-- ==== Sys2Proof/Word.lean ====
section
/-! DEFINITION. The two word types of WZ-HUF and nothing else: every register and count is 64 bits, every datum of a
buffer is one byte (00_scope.md R11, R20; 10_state.md R31). -/

namespace Sys2Proof

/-- A byte of host memory, of the bit buffer's storage, or a symbol of the alphabet (R11). -/
abbrev Byte := BitVec 8

/-- A 64-bit register, count or integer value (R11, R31). -/
abbrev Word := BitVec 64

end Sys2Proof
end

