-- ==== Sys2Proof/Syntax.lean ====
section
/-! DEFINITION. The commands of WZ-HUF: one constructor for each row of the opcode table (30_encoding.md R146), in the
table's order. A command word carries no operand (R143), so no constructor has a field: the operands are the operand
registers of the state. -/

namespace Sys2Proof

/-- The 27 commands (R146). -/
inductive Instr where
  | nop
  | compress
  | decompress
  | freqClear
  | freqCount
  | freqWrite
  | freqRemove
  | freqRead
  | treeBuild
  | nodeRead
  | encmapGen
  | lutRead
  | decmapGen
  | fsmRead
  | bbClear
  | bbAppendBit
  | bbAppendMany
  | bbGetBit
  | bbLength
  | bbStore
  | viMinWidth
  | viPack
  | viUnpack
  | ctSerialize
  | ctDeserialize
  | encode
  | decode
deriving DecidableEq, Repr

end Sys2Proof
end

