-- ==== Sys2Proof/Config.lean ====
section
/-! DEFINITION. What one machine fixes (the parameters of 00_scope.md R13, as plain data) and the free values: opaque
constants without a body, one for each width, from which every 'unspecified value' of the spec is drawn. -/

namespace Sys2Proof

/-- The parameters of R13. A machine carries one `Config` in its state and no step changes it, so a statement about every
state is a statement about every machine.

`MemOK` is any predicate on addresses. The DMA space is finite, so every predicate on it is given by the finite list of
the regions where it is false. -/
structure Config where
  /-- `ADDR_W`: the width of a DMA address, legal values 32 to 64 (R13). -/
  addrW : Nat
  /-- `BB_CAP_BYTES`: the bit buffer's capacity in bytes, legal values 1 to 2^61 - 1 (R13, R33). -/
  capBytes : Nat
  /-- The regions (base, length) on which `MemOK` is false (R13, R103). -/
  holes : List (Nat × Nat)
  /-- `COHERENT`: whether DMA accesses are coherent with the host's caches (R13, R118). -/
  coherent : Bool
deriving DecidableEq, Repr

/-- The parameters of the reset machine. `ADDR_W = 64` is the spec's default (R13). The other three have no default in the
spec: DESIGN CHOICE, the values of the conventions of 95_test_vectors.md (assumption log 1). Unsafe for a claim that rests
on them; no obligation does. -/
def Config.standard : Config := { addrW := 64, capBytes := 65536, holes := [], coherent := true }

/-- Free 64-bit value number `k`: an unspecified register value or register read (R82, R509 item 2). It has no body. -/
opaque Config.freeWord : Nat → Word

/-- Free byte of draw `k` at address `a`: an unspecified byte of the destination buffer (R116, R509 item 3, R554). It has
no body. -/
opaque Config.freeByte : Nat → Nat → Byte

end Sys2Proof
end

