-- ==== Sys2Proof/WellFormed.lean ====
section
/-! DEFINITION. The checks on data that a term's type does not make. An `Instr` has no field (R143), so every term of it
is well formed; what can be ill formed is a command word, a machine's parameters and a host's register access. -/

namespace Sys2Proof

/-- The command word's reserved field `RSVD = CMD[63:8]` is 0 (R140, R141). -/
def reservedClear (w : Word) : Bool := w >>> 8 == 0

/-- The parameters are in the legal ranges of R13. -/
def Config.wellFormed (c : Config) : Bool :=
  decide (32 ≤ c.addrW) && decide (c.addrW ≤ 64) && decide (1 ≤ c.capBytes) && decide (c.capBytes ≤ 2 ^ 61 - 1)

/-- An access of `size` bytes at offset `off` is one the register interface offers: 8 bytes, aligned, within the 4096-byte
window (R31, R46). -/
def accessWellFormed (off size : Nat) : Bool :=
  decide (size = 8) && decide (off % 8 = 0) && decide (off < 4096)

end Sys2Proof
end

