-- ==== Sys2Proof/Decode.lean ====
section
/-! DEFINITION. The decoder, total on every word (30_encoding.md R142), and the encoder. A refused word is refused by name;
the machine then ends the command with `ILLEGAL_CMD` (R141). -/

namespace Sys2Proof

/-- Why a word or a byte string is no command (R141). -/
inductive Reject where
  /-- `RSVD = CMD[63:8]` is not 0. -/
  | reservedBits
  /-- `OPCODE` is a reserved value (R147). -/
  | reservedOpcode
  /-- Fewer than 8 bytes: a command word is 64 bits and has no other length (R140, R149). -/
  | shortWord
deriving DecidableEq, Repr

/-- The opcode column of R146, read from the number to the command. Every other value is reserved (R147). -/
def decodeOpcode (b : Byte) : Option Instr :=
  match b.toNat with
  | 0x00 => some .nop
  | 0x01 => some .compress
  | 0x02 => some .decompress
  | 0x10 => some .freqClear
  | 0x11 => some .freqCount
  | 0x12 => some .freqWrite
  | 0x13 => some .freqRemove
  | 0x14 => some .freqRead
  | 0x20 => some .treeBuild
  | 0x21 => some .nodeRead
  | 0x28 => some .encmapGen
  | 0x29 => some .lutRead
  | 0x2C => some .decmapGen
  | 0x2D => some .fsmRead
  | 0x30 => some .bbClear
  | 0x31 => some .bbAppendBit
  | 0x32 => some .bbAppendMany
  | 0x33 => some .bbGetBit
  | 0x34 => some .bbLength
  | 0x35 => some .bbStore
  | 0x40 => some .viMinWidth
  | 0x41 => some .viPack
  | 0x42 => some .viUnpack
  | 0x50 => some .ctSerialize
  | 0x51 => some .ctDeserialize
  | 0x58 => some .encode
  | 0x59 => some .decode
  | _ => none

/-- `OPCODE = CMD[7:0]` (R140). -/
def opcodeField (w : Word) : Byte := w.setWidth 8

/-- `Decode(w)` of R142. -/
def decode (w : Word) : Except Reject Instr :=
  if reservedClear w then
    match decodeOpcode (opcodeField w) with
    | some i => .ok i
    | none => .error .reservedOpcode
  else .error .reservedBits

/-- The value of a byte string, least significant byte first (R46, R110). -/
def leNat : List Byte → Nat
  | [] => 0
  | b :: bs => b.toNat + 256 * leNat bs

/-- A command word as the 8 bytes of the `CMD` register in memory order, lowest address first (R46), and what follows. -/
def decodeBytes (bs : List Byte) : Except Reject (Instr × List Byte) :=
  if bs.length < 8 then .error .shortWord
  else (decode (BitVec.ofNat 64 (leNat (bs.take 8)))).map fun i => (i, bs.drop 8)

/-- The opcode column of R146, read from the command to the number. -/
def opcode : Instr → Byte
  | .nop => 0x00
  | .compress => 0x01
  | .decompress => 0x02
  | .freqClear => 0x10
  | .freqCount => 0x11
  | .freqWrite => 0x12
  | .freqRemove => 0x13
  | .freqRead => 0x14
  | .treeBuild => 0x20
  | .nodeRead => 0x21
  | .encmapGen => 0x28
  | .lutRead => 0x29
  | .decmapGen => 0x2C
  | .fsmRead => 0x2D
  | .bbClear => 0x30
  | .bbAppendBit => 0x31
  | .bbAppendMany => 0x32
  | .bbGetBit => 0x33
  | .bbLength => 0x34
  | .bbStore => 0x35
  | .viMinWidth => 0x40
  | .viPack => 0x41
  | .viUnpack => 0x42
  | .ctSerialize => 0x50
  | .ctDeserialize => 0x51
  | .encode => 0x58
  | .decode => 0x59

/-- The command word of a command: its opcode with `RSVD = 0` (R140, R151). -/
def encode (i : Instr) : Word := (opcode i).setWidth 64

/-- The 8 bytes of a command word in memory order (R46). -/
def encodeBytes (i : Instr) : List Byte :=
  (List.range 8).map fun j => (encode i >>> (8 * j)).setWidth 8

/-- The command the decoder reads from a word of the opcode table, whose bits above `nbits` are 0. -/
def decodeTableWord (nbits w : Nat) : Option Instr :=
  match decode (BitVec.ofNat 64 (w % 2 ^ nbits)) with
  | .ok i => some i
  | .error _ => none

end Sys2Proof
end

