-- ==== Sys2Proof/Machine/State.lean ====
section
/-! DEFINITION. The whole state of the machine as plain data: the registers of 10_state.md R31, the block's internal
structures (R50 to R78), host memory, and the host's side of the interface (the actions it has still to perform, which
agent moves next while the block is busy, its cache, and the counter of free values); with the reset state of
70_reset_and_hazards.md R551. -/

namespace Sys2Proof.Machine

/-! ## The frequency table (R50, R51) -/

/-- The 256 entries of `FT`: `none` is an absent entry, `some c` a present entry with count `c`. "Absence means count 0"
and presence is kept apart from a count of 0 (R50, R51). -/
abbrev FreqTable := Vector (Option Word) 256

/-! ## The tree (R55, R56) -/

/-- A slot of the node arena (R56). A leaf's `min_byte` is its byte; `left` and `right` are slot indices of 9 bits. -/
inductive Node where
  | leaf (byte : Byte) (count : Word)
  | internal (left right : BitVec 9) (count : Word) (minByte : Byte)
deriving DecidableEq, Repr

/-- The node arena in use and its leaf count (R55): slots 0 to `2 * nleaf - 2`. -/
structure Tree where
  /-- `NLEAF` (R37). -/
  nleaf : Nat
  /-- The slots in use, slot 0 first. -/
  nodes : List Node
deriving DecidableEq, Repr

/-! ## The encode look-up table (R60) -/

/-- One entry of `LUT`: the code length (0: no code) and the code bits, `code[j]` at bit `j` (R60, R330). -/
structure LutEntry where
  len : BitVec 8
  code : BitVec 255
deriving DecidableEq, Repr

/-- The 256 entries of `LUT` (R60). -/
abbrev Lut := Vector LutEntry 256

/-! ## The decoder state machine (R65) -/

/-- An entry of `FSM` (R65). A `GOTO` target fits 8 bits (R341). -/
inductive FsmEntry where
  | goto (target : Byte)
  | emit (value : Byte)
  | dead
deriving DecidableEq, Repr

/-- The decoder table: for each state the entries for input bit 0 and 1; and `FSM_START` (R65). -/
structure Fsm where
  states : List (FsmEntry × FsmEntry)
  start : Nat
deriving DecidableEq, Repr

/-! ## The bit buffer (R70) -/

/-- `BB.n` and the meaningful storage `BB.st[0 .. ceil8(BB.n))`, byte 0 first. The storage bytes past it are unspecified
and not observable (R70, R71), so the model holds none. -/
structure BitBuffer where
  n : Nat
  st : List Byte
deriving DecidableEq, Repr

/-! ## Errors (R501) -/

/-- The error codes 0x01 to 0x11 of R501 by name. -/
inductive ErrCode where
  | illegalCmd
  | argRange
  | notReady
  | memFault
  | overlap
  | dstOverflow
  | bbOverflow
  | invalidBit
  | packWidth
  | unpackWidth
  | ctTruncated
  | ctTrailing
  | ctBadWidth
  | ctBadTable
  | countOverflow
  | noCode
  | decodeIncomplete
deriving DecidableEq, Repr

/-- What `raise NAME(info)` carries (R16, R505). -/
structure CmdError where
  code : ErrCode
  info : Word
deriving DecidableEq, Repr

/-- The five internal structures, each with a valid flag (R78). -/
inductive Struct where
  | ft
  | tree
  | lut
  | fsm
  | bb
deriving DecidableEq, Repr

/-! ## Registers (R31) -/

/-- The fields of `STATUS` (R36). Its reserved bits read 0 and ignore writes (R48), so the fields are all of it. -/
structure Status where
  busy : Bool
  done : Bool
  err : Bool
  ovr : Bool
  errcode : Byte
deriving DecidableEq, Repr

/-- `IRQ_EN[0]` and `IRQ_EN[1]`; its other bits read 0 and ignore writes (R38). -/
structure IrqEnable where
  doneIe : Bool
  errIe : Bool
deriving DecidableEq, Repr

/-- The operand registers (R39 to R41, R45): the host writes them and no command does. -/
structure Operands where
  srcAddr : Word
  srcLen : Word
  dstAddr : Word
  dstCap : Word
  arg0 : Word
  arg1 : Word
deriving DecidableEq, Repr

/-- The result registers (R42 to R44). -/
structure Results where
  outLen : Word
  result0 : Word
  result1 : Word
  errInfo : Word
deriving DecidableEq, Repr

/-! ## Host memory and the host (20_memory.md, R189) -/

/-- Host memory: (address, byte) with addresses strictly rising and no entry equal to what an unlisted address reads as
(`Memory.wf`, `Memory.unlisted` in Machine/Ops.lean). -/
abbrev Memory := List Host.Cell

/-- A copy of one byte in the host's cache; `dirty` when the host stored it and has not written it back (R118). -/
structure CacheByte where
  addr : Nat
  val : Byte
  dirty : Bool
deriving DecidableEq, Repr

/-- What the host may do (R150, R189), with the cache maintenance of R118 and the platform reset of R550. -/
inductive HostAction where
  /-- `wr`: write the low `size` bytes of `v` at offset `off` of the register window. -/
  | regWrite (off size : Nat) (v : Word)
  /-- `rd`: read `size` bytes at offset `off` of the register window. -/
  | regRead (off size : Nat)
  /-- `mem`: store the byte `v` at address `a` of host memory. -/
  | store (a : Nat) (v : Byte)
  /-- `memchk`: load the byte at address `a` of host memory. -/
  | load (a : Nat)
  /-- Write the cached copy of the byte at `a` back to memory. -/
  | writeBack (a : Nat)
  /-- Discard the cached copy of the byte at `a`. -/
  | discard (a : Nat)
  /-- The platform's reset (R550). -/
  | platformReset
deriving DecidableEq, Repr

/-- The two agents (R10). -/
inductive Agent where
  | host
  | block
deriving DecidableEq, Repr

/-- A stop of the machine that is a fault. No command ends in one: an error of a command ends the command and the machine
goes on (R500). -/
inductive Fault where
  /-- Raised by a host store, load, write-back or discard at an address that is not in the `2^ADDR_W` bytes of DMA space
  (R101). Safe: the machine stops where the spec gives the address no memory. -/
  | noSuchAddress (a : Nat)
deriving DecidableEq, Repr

/-- A stop of the machine because the interface does not offer the action. No command ends in one. -/
inductive Refusal where
  /-- The host's name for an instruction without a meaning; no arm of `exec` answers with it. Safe. -/
  | notModelled (mnemonic : String)
  /-- Raised by a register access of another size or alignment: "a model refuses it" (R46, R562,
  93_implementation_defined.md U10); and by one outside the window (DEDUCED, assumption log 12). Safe. -/
  | registerAccess (off size : Nat)
  /-- Raised by a host write to the source or destination buffer while `BUSY = 1`: "a model gives the host no such step"
  (R189, R561, U8). Safe. -/
  | bufferWriteWhileBusy (a : Nat)
deriving DecidableEq, Repr

/-! ## The state -/

/-- Everything the spec gives the machine (R30, R31), host memory (R100), and the model's own fields for the host
(R189): see INVENTORY.md, '## State'. The valid flag of a structure (R78) is its `Option`: `some` when the flag is 1,
`none` when it is 0 and the contents are unspecified and never read. -/
structure State where
  /-- The machine's parameters (R13); no step changes them. -/
  cfg : Config
  /-- `CMD` (R35). -/
  cmd : Word
  /-- `STATUS` (R36). -/
  status : Status
  /-- `IRQ_EN` (R38). -/
  irqEn : IrqEnable
  /-- `SRC_ADDR`, `SRC_LEN`, `DST_ADDR`, `DST_CAP`, `ARG0`, `ARG1` (R39 to R41). -/
  ops : Operands
  /-- `OUT_LEN`, `RESULT0`, `RESULT1`, `ERR_INFO` (R42 to R44). -/
  res : Results
  /-- `FT` with `FT_VALID` (R50, R78). -/
  ft : Option FreqTable
  /-- `NODE` and `NLEAF` with `TREE_VALID` (R55, R78). -/
  tree : Option Tree
  /-- `LUT` with `LUT_VALID` (R60, R78). -/
  lut : Option Lut
  /-- `FSM` and `FSM_START` with `FSM_VALID` (R65, R78). -/
  fsm : Option Fsm
  /-- `BB` with `BB_VALID` (R70, R78). -/
  bb : Option BitBuffer
  /-- Host memory (R100). -/
  mem : Memory
  /-- The actions the host has still to perform, the next one first. -/
  host : List HostAction
  /-- Which agent moves at each of the next steps taken while the block is busy; past its end the block does (R188). -/
  turns : List Agent
  /-- The host's cached bytes, addresses strictly rising; used only when `COHERENT = false` (R118). -/
  cache : List CacheByte
  /-- What the host's last register read or memory load returned. -/
  hostData : Word
  /-- How many free values have been drawn; the next one has this number. -/
  draws : Nat
deriving DecidableEq, Repr

/-- `STATUS` after reset (R551). -/
def Status.reset : Status := { busy := false, done := false, err := false, ovr := false, errcode := 0 }

/-- The state right after a reset of a machine with parameters `c` (R551): the empty valid frequency table and bit buffer,
no tree, look-up table or state machine, every register 0. Memory lists nothing, the host has nothing to do; the fields of
the model's own are DESIGN CHOICE (assumption log 4). -/
def State.resetOf (c : Config) : State :=
  { cfg := c
    cmd := 0
    status := Status.reset
    irqEn := { doneIe := false, errIe := false }
    ops := { srcAddr := 0, srcLen := 0, dstAddr := 0, dstCap := 0, arg0 := 0, arg1 := 0 }
    res := { outLen := 0, result0 := 0, result1 := 0, errInfo := 0 }
    ft := some (Vector.replicate 256 none)
    tree := none
    lut := none
    fsm := none
    bb := some { n := 0, st := [] }
    mem := []
    host := []
    turns := []
    cache := []
    hostData := 0
    draws := 0 }

/-- The reset state of the machine with the standard parameters (R551). -/
def State.reset : State := State.resetOf Config.standard

end Sys2Proof.Machine
end

