-- ==== Sys2Proof/Machine/Flags.lean ====
section
/-! DEFINITION. Every flag computation of the spec: the error code numbers (60_exceptions.md R501), the `STATUS` fields and
who sets and clears them (10_state.md R36; 40_command.md R187), the `STATE` word and its valid flags (R37, R78), `IRQ_EN`
(R38) and the interrupt output (R530). -/

namespace Sys2Proof.Machine

/-- A flag as a register bit. -/
def bit (b : Bool) : Word := if b then 1 else 0

/-! ## Error codes -/

/-- The number `STATUS.ERRCODE` shows for an error (R501). -/
def ErrCode.number : ErrCode → Byte
  | .illegalCmd => 0x01
  | .argRange => 0x02
  | .notReady => 0x03
  | .memFault => 0x04
  | .overlap => 0x05
  | .dstOverflow => 0x06
  | .bbOverflow => 0x07
  | .invalidBit => 0x08
  | .packWidth => 0x09
  | .unpackWidth => 0x0A
  | .ctTruncated => 0x0B
  | .ctTrailing => 0x0C
  | .ctBadWidth => 0x0D
  | .ctBadTable => 0x0E
  | .countOverflow => 0x0F
  | .noCode => 0x10
  | .decodeIncomplete => 0x11

/-- The detail value of `NOT_READY` for a structure: 0 `FT`, 1 `TREE`, 2 `LUT`, 3 `FSM`, 4 `BB` (R78, R501). -/
def Struct.number : Struct → Word
  | .ft => 0
  | .tree => 1
  | .lut => 2
  | .fsm => 3
  | .bb => 4

/-! ## `STATUS` -/

/-- `STATUS` as the 64-bit word a read returns (R36). -/
def Status.word (f : Status) : Word :=
  bit f.busy ||| bit f.done <<< 1 ||| bit f.err <<< 2 ||| bit f.ovr <<< 3 ||| f.errcode.setWidth 64 <<< 8

/-- Acceptance of a command: `BUSY` set; `DONE`, `ERR`, `ERRCODE` cleared; `OVR` kept (R181). -/
def Status.accepted (f : Status) : Status :=
  { f with busy := true, done := false, err := false, errcode := 0 }

/-- Completion without error (R185). -/
def Status.completed (f : Status) : Status := { f with busy := false, done := true }

/-- Completion with an error (R505). -/
def Status.failed (f : Status) (e : ErrCode) : Status :=
  { f with busy := false, err := true, errcode := e.number }

/-- A register write dropped while busy sets the sticky `OVR` (R49). -/
def Status.overrun (f : Status) : Status := { f with ovr := true }

/-- A write of `v` to `STATUS`: writing 1 clears `DONE`, `ERR` (and with it `ERRCODE`) and `OVR`; writing 0 leaves them
(R31, R36). -/
def Status.writeOneClears (f : Status) (v : Word) : Status :=
  { f with
    done := f.done && !v.getLsbD 1
    err := f.err && !v.getLsbD 2
    ovr := f.ovr && !v.getLsbD 3
    errcode := if v.getLsbD 2 then 0 else f.errcode }

/-! ## The valid flags and `STATE` -/

/-- The valid flag of a structure (R78). -/
def State.valid (s : State) : Struct → Bool
  | .ft => s.ft.isSome
  | .tree => s.tree.isSome
  | .lut => s.lut.isSome
  | .fsm => s.fsm.isSome
  | .bb => s.bb.isSome

/-- `NLEAF`: the leaf count of the current tree, 0 when there is none (R37). -/
def State.nleaf (s : State) : Nat :=
  match s.tree with
  | some t => t.nleaf
  | none => 0

/-- `STATE` as the 64-bit word a read returns (R37): the valid flags in bits 4 to 0, `NLEAF` in bits 40:32. -/
def State.stateWord (s : State) : Word :=
  bit (s.valid .ft) ||| bit (s.valid .tree) <<< 1 ||| bit (s.valid .lut) <<< 2 ||| bit (s.valid .fsm) <<< 3
    ||| bit (s.valid .bb) <<< 4 ||| (BitVec.ofNat 9 s.nleaf).setWidth 64 <<< 32

/-! ## Interrupt -/

/-- `IRQ_EN` as the 64-bit word a read returns (R38). -/
def IrqEnable.word (e : IrqEnable) : Word := bit e.doneIe ||| bit e.errIe <<< 1

/-- The enables a write of `v` to `IRQ_EN` leaves; bits 63:2 are ignored (R38). -/
def IrqEnable.ofWord (v : Word) : IrqEnable := { doneIe := v.getLsbD 0, errIe := v.getLsbD 1 }

/-- The level of the interrupt output (R530). -/
def State.irq (s : State) : Bool :=
  (s.status.done && s.irqEn.doneIe) || (s.status.err && s.irqEn.errIe)

end Sys2Proof.Machine
end

