-- ==== Sys2Proof/Machine/Ops.lean ====
section
/-! DEFINITION. The named operations over memory, the registers and the internal structures that the commands share: host
memory and the DMA primitives (20_memory.md R103 to R108), the accessors that keep the dependencies between the structures
(10_state.md R79), acceptance, completion, and ending a command with an error, the block's one exception
(60_exceptions.md R505, R509), with its acknowledgement (R516) and reset (70_reset_and_hazards.md R551 to R554). -/

namespace Sys2Proof.Machine

/-! ## Numbers -/

/-- `ceil8(n)`: the bytes that hold `n` bits, computed exactly (R15). -/
def ceil8 (n : Nat) : Nat := (n + 7) / 8

/-- A natural number as a register value; every rule checks that it is below 2^64 (R15). -/
def word (n : Nat) : Word := BitVec.ofNat 64 n

/-! ## Host memory -/

/-- What an address that the memory does not list reads as. The spec gives host memory no initial contents: DESIGN CHOICE
0 (assumption log 3), unsafe for a claim about bytes nobody has written. -/
def Memory.unlisted : Byte := 0

/-- The byte of host memory at `a` (R104). -/
def Memory.read : Memory → Nat → Byte
  | [], _ => Memory.unlisted
  | (b, v) :: m, a => if a = b then v else Memory.read m a

/-- Host memory with the byte `v` at `a` (R105), in canonical form. -/
def Memory.write : Memory → Nat → Byte → Memory
  | [], a, v => if v = Memory.unlisted then [] else [(a, v)]
  | (b, w) :: m, a, v =>
    if a < b then
      if v = Memory.unlisted then (b, w) :: m else (a, v) :: (b, w) :: m
    else if a = b then
      if v = Memory.unlisted then m else (a, v) :: m
    else (b, w) :: Memory.write m a v

/-- The canonical form: every listed address is at least `lo`, addresses strictly rise, and no entry is equal to what an
unlisted address reads as. -/
def Memory.wfFrom : Nat → Memory → Bool
  | _, [] => true
  | lo, (a, v) :: m => decide (lo ≤ a) && decide (v ≠ Memory.unlisted) && Memory.wfFrom (a + 1) m

/-- The canonical form of host memory. -/
def Memory.wf (m : Memory) : Bool := Memory.wfFrom 0 m

/-- The bytes at `a`, `a + 1`, … are replaced by `f` of their address, `n` of them. -/
def Memory.fill (f : Nat → Byte) : Nat → Nat → Memory → Memory
  | 0, _, m => m
  | n + 1, a, m => Memory.fill f n (a + 1) (m.write a (f a))

/-! ## The DMA port -/

/-- `2^ADDR_W`: the number of bytes of DMA space (R101). -/
def Config.space (c : Config) : Nat := 2 ^ c.addrW

/-- `MemOK(a)`: the platform's answer for a DMA byte access at `a` (R103). -/
def Config.memOK (c : Config) (a : Nat) : Bool :=
  c.holes.all fun h => decide (a < h.1) || decide (h.1 + h.2 ≤ a)

/-- `MemRead(a, 1)` (R103, R104). -/
def memRead (s : State) (a : Nat) : Except CmdError Byte :=
  if Config.memOK s.cfg a then .ok (s.mem.read a) else .error ⟨.memFault, word a⟩

/-- `SrcByte(i)` (R107). -/
def srcByte (s : State) (i : Nat) : Except CmdError Byte := memRead s (s.ops.srcAddr.toNat + i)

/-- `[SrcByte(c), …, SrcByte(c + k - 1)]`, read in increasing order (R107). -/
def srcBytes (s : State) : Nat → Nat → Except CmdError (List Byte)
  | _, 0 => .ok []
  | c, k + 1 => do
    let b ← srcByte s c
    let bs ← srcBytes s (c + 1) k
    .ok (b :: bs)

/-- The loop `for i in i0 .. i0 + k - 1: v <- SrcByte(i); f i v` that `FREQ_COUNT`, `BB_APPEND_MANY` and `ENCODE` are
(R221, R252, R450); it ends at the first error of a read or of `f`. -/
def forSrc {α : Type} (s : State) (f : Nat → Byte → α → Except CmdError α) : Nat → Nat → α → Except CmdError α
  | _, 0, x => .ok x
  | i, k + 1, x => do
    let b ← srcByte s i
    let y ← f i b x
    forSrc s f (i + 1) k y

/-- Host memory and the output count `o` of a command that writes the destination buffer (R108). -/
structure Output where
  mem : Memory
  count : Nat
deriving DecidableEq, Repr

/-- `DstPut(v)` (R108). -/
def dstPut (s : State) (v : Byte) (o : Output) : Except CmdError Output :=
  if s.ops.dstCap.toNat ≤ o.count then .error ⟨.dstOverflow, word o.count⟩
  else if Config.memOK s.cfg (s.ops.dstAddr.toNat + o.count) then
    .ok { mem := o.mem.write (s.ops.dstAddr.toNat + o.count) v, count := o.count + 1 }
  else .error ⟨.memFault, word (s.ops.dstAddr.toNat + o.count)⟩

/-- `DstPut` of each byte of a string, the first byte first ("emit" of R410). -/
def dstPuts (s : State) : List Byte → Output → Except CmdError Output
  | [], o => .ok o
  | v :: vs, o => do
    let o' ← dstPut s v o
    dstPuts s vs o'

/-- The output of a command that completes: memory as written and `OUT_LEN <- o` (R108). -/
def State.withOutput (s : State) (o : Output) : State :=
  { s with mem := o.mem, res := { s.res with outLen := word o.count } }

/-- Emits a byte string to the destination buffer and sets `OUT_LEN` (R108). -/
def emit (s : State) (vs : List Byte) : Except CmdError State := do
  let o ← dstPuts s vs { mem := s.mem, count := 0 }
  .ok (s.withOutput o)

/-! ## The internal structures

The only operations that write a structure, so that its dependents go with it (R79). `none` clears the valid flag. -/

/-- Writes the tree, so `LUT` and `FSM` become invalid (R79). -/
def State.setTree (s : State) (t : Option Tree) : State := { s with tree := t, lut := none, fsm := none }

/-- Writes `FT`, so the tree (`NLEAF` with it), `LUT` and `FSM` become invalid (R79). -/
def State.setFt (s : State) (t : Option FreqTable) : State :=
  { s with ft := t, tree := none, lut := none, fsm := none }

/-- Writes `LUT`, on which no structure depends (R79). -/
def State.setLut (s : State) (l : Option Lut) : State := { s with lut := l }

/-- Writes `FSM`, on which no structure depends (R79). -/
def State.setFsm (s : State) (f : Option Fsm) : State := { s with fsm := f }

/-- Writes `BB`, on which no structure depends (R79). -/
def State.setBb (s : State) (b : Option BitBuffer) : State := { s with bb := b }

/-- Clears the valid flag of one structure with its dependents (R79, R509 item 4). -/
def State.invalidate (s : State) : Struct → State
  | .ft => s.setFt none
  | .tree => s.setTree none
  | .lut => s.setLut none
  | .fsm => s.setFsm none
  | .bb => s.setBb none

/-- Clears the valid flags of several structures (R509 item 4). -/
def State.invalidateAll (s : State) (l : List Struct) : State := l.foldl State.invalidate s

/-- `require S` gave the structure `S`, or `NOT_READY(code of S)` (R16, R78). -/
def require {α : Type} (x : Option α) (part : Struct) : Except CmdError α :=
  match x with
  | some v => .ok v
  | none => .error ⟨.notReady, part.number⟩

/-! ## Result registers -/

/-- `x[RESULT0] <- v` (R43). -/
def State.setResult0 (s : State) (v : Word) : State := { s with res := { s.res with result0 := v } }

/-- `x[RESULT0] <- v; x[RESULT1] <- w` (R43). -/
def State.setResults (s : State) (v w : Word) : State := { s with res := { s.res with result0 := v, result1 := w } }

/-- `x[OUT_LEN] <- v` (R42). -/
def State.setOutLen (s : State) (v : Word) : State := { s with res := { s.res with outLen := v } }

/-! ## Free values -/

/-- The counter of free values after `n` draws. -/
def State.drew (s : State) (n : Nat) : State := { s with draws := s.draws + n }

/-- How many bytes of the destination buffer lie in DMA space: all of them unless the region runs past its top (R40,
R102). -/
def State.dstExtent (s : State) : Nat := min s.ops.dstCap.toNat (Config.space s.cfg - s.ops.dstAddr.toNat)

/-- Every byte of the destination buffer holds an unspecified value, a free byte of its own (R509 item 3, R554). -/
def State.scrambleDst (s : State) : State :=
  State.drew
    { s with mem := s.mem.fill (Config.freeByte s.draws) s.dstExtent s.ops.dstAddr.toNat } 1

/-! ## The life of a command -/

/-- Acceptance of the command word `w` (R181). -/
def State.accept (s : State) (w : Word) : State :=
  { s with cmd := w, status := s.status.accepted, res := { s.res with errInfo := 0 } }

/-- Completion without error (R185). -/
def State.complete (s : State) : State := { s with status := s.status.completed }

/-- Ending a command with the error `e`, the block's only exception (R500, R505), with the state of R509: `OUT_LEN` 0,
`RESULT0` and `RESULT1` free, the destination bytes free when `dst`, the structures the command `writes` invalid with their
dependents, and everything else as it was when the command was accepted. `STATUS` keeps the code and `ERR_INFO` the detail;
nothing else is saved and control moves nowhere (R515). -/
def State.raise (s : State) (writes : List Struct) (dst : Bool) (e : CmdError) : State :=
  let s := s.invalidateAll writes
  let s := if dst then s.scrambleDst else s
  State.drew
    { s with
      status := s.status.failed e.code
      res := { outLen := 0, result0 := Config.freeWord s.draws, result1 := Config.freeWord (s.draws + 1), errInfo := e.info } } 2

/-- The acknowledgement of an error or a completion: a write of `v` to `STATUS` (R516, R36). There is no return
instruction; acceptance of the next command is the other way. -/
def State.acknowledge (s : State) (v : Word) : State := { s with status := s.status.writeOneClears v }

/-- The effect of R551 on a state: every register and structure at its reset value; host memory, the parameters and the
host's own fields are not block state (R552, R555). -/
def State.toReset (s : State) : State :=
  { State.resetOf s.cfg with
    mem := s.mem, host := s.host, turns := s.turns, cache := s.cache, hostData := s.hostData, draws := s.draws }

end Sys2Proof.Machine
end

