-- ==== Sys2Proof/Machine/Operands.lean ====
section
/-! DEFINITION. The operand forms of 30_encoding.md R144, each read from its whole register; what each command reads and
writes (R146, 60_exceptions.md R509 item 4); and the checks on the buffers that come before any access (20_memory.md R102,
R109; R510). -/

namespace Sys2Proof.Machine

/-! ## What a command reads and writes -/

/-- The commands that read the source buffer (R146). -/
def readsSrc : Instr → Bool
  | .compress | .decompress | .freqCount | .bbAppendMany | .viUnpack | .ctDeserialize | .encode => true
  | .nop | .freqClear | .freqWrite | .freqRemove | .freqRead | .treeBuild | .nodeRead | .encmapGen | .lutRead
  | .decmapGen | .fsmRead | .bbClear | .bbAppendBit | .bbGetBit | .bbLength | .bbStore | .viMinWidth | .viPack
  | .ctSerialize | .decode => false

/-- The commands that write the destination buffer (R146). -/
def writesDst : Instr → Bool
  | .compress | .decompress | .bbStore | .viPack | .ctSerialize | .decode => true
  | .nop | .freqClear | .freqCount | .freqWrite | .freqRemove | .freqRead | .treeBuild | .nodeRead | .encmapGen
  | .lutRead | .decmapGen | .fsmRead | .bbClear | .bbAppendBit | .bbAppendMany | .bbGetBit | .bbLength | .viMinWidth
  | .viUnpack | .ctDeserialize | .encode => false

/-- The structures a command writes, whose flags an error clears (R146, R509 item 4). -/
def writesStructs : Instr → List Struct
  | .freqClear | .freqCount | .freqWrite | .freqRemove => [.ft]
  | .ctDeserialize => [.ft, .bb]
  | .treeBuild => [.tree]
  | .encmapGen => [.lut]
  | .decmapGen => [.fsm]
  | .bbClear | .bbAppendBit | .bbAppendMany | .encode => [.bb]
  | .compress => [.ft, .tree, .lut, .bb]
  | .decompress => [.ft, .bb, .tree, .fsm]
  | .nop | .freqRead | .nodeRead | .lutRead | .fsmRead | .bbGetBit | .bbLength | .bbStore | .viMinWidth | .viPack
  | .viUnpack | .ctSerialize | .decode => []

/-! ## Checks -/

/-- A check that raises `e` when `ok` fails. -/
def check (ok : Bool) (e : CmdError) : Except CmdError Unit :=
  if ok then .ok () else .error e

/-- The region of `len` bytes at `addr` is empty or ends within DMA space; the sum is exact (R102). -/
def regionOk (c : Config) (addr len : Word) : Bool :=
  decide (len.toNat = 0) || decide (addr.toNat + len.toNat ≤ Config.space c)

/-- The two buffers are not empty and share a byte (R109). -/
def buffersOverlap (o : Operands) : Bool :=
  decide (0 < o.srcLen.toNat) && decide (0 < o.dstCap.toNat)
    && decide (o.srcAddr.toNat < o.dstAddr.toNat + o.dstCap.toNat)
    && decide (o.dstAddr.toNat < o.srcAddr.toNat + o.srcLen.toNat)

/-- The checks of a command's buffers before its first access: the source region, the destination region, then the overlap
for a command that uses both (R102, R109, R510 items 3 and 4). -/
def checkBuffers (i : Instr) (s : State) : Except CmdError Unit := do
  check (!readsSrc i || regionOk s.cfg s.ops.srcAddr s.ops.srcLen) ⟨.memFault, s.ops.srcAddr⟩
  check (!writesDst i || regionOk s.cfg s.ops.dstAddr s.ops.dstCap) ⟨.memFault, s.ops.dstAddr⟩
  check (!(readsSrc i && writesDst i) || !buffersOverlap s.ops) ⟨.overlap, s.ops.dstAddr⟩

/-! ## Operand forms (R144) -/

/-- Byte value: `ARG0` in 0 to 255, else `ARG_RANGE(ARG0)`. -/
def byteOperand (s : State) : Except CmdError Byte :=
  if 255 < s.ops.arg0.toNat then .error ⟨.argRange, s.ops.arg0⟩ else .ok (s.ops.arg0.setWidth 8)

/-- Count: `ARG1`, any value. -/
def countOperand (s : State) : Word := s.ops.arg1

/-- Bit value: `ARG0` 0 or 1, else `INVALID_BIT(ARG0)`; nothing is truncated (R218). -/
def bitOperand (s : State) : Except CmdError Bool :=
  if 1 < s.ops.arg0.toNat then .error ⟨.invalidBit, s.ops.arg0⟩ else .ok (s.ops.arg0.getLsbD 0)

/-- Bit index: `ARG0`, any value. -/
def bitIndexOperand (s : State) : Nat := s.ops.arg0.toNat

/-- Node index or state index: `ARG0` up to `last`, else `ARG_RANGE(ARG0)` (R300, R350). -/
def indexOperand (s : State) (last : Nat) : Except CmdError Nat :=
  if last < s.ops.arg0.toNat then .error ⟨.argRange, s.ops.arg0⟩ else .ok s.ops.arg0.toNat

/-- Code word index: `ARG1` in 0 to 3, else `ARG_RANGE(ARG1)`. -/
def codeWordOperand (s : State) : Except CmdError Nat :=
  if 3 < s.ops.arg1.toNat then .error ⟨.argRange, s.ops.arg1⟩ else .ok s.ops.arg1.toNat

/-- Integer value: `ARG0`, any value. -/
def valueOperand (s : State) : Word := s.ops.arg0

/-- Width: `ARG1`; its range depends on the value and is checked by `pack` (R372). -/
def widthOperand (s : State) : Nat := s.ops.arg1.toNat

/-! ## Ending a command -/

/-- Ends the command `i` that was accepted in `s`: without error in the state its body left (R185), or with the error its
first failing check raised (R505, R509, R511). -/
def finish (i : Instr) (s : State) (r : Except CmdError State) : Host.Outcome State Fault Refusal :=
  match r with
  | .ok t => .next t.complete
  | .error e => .next (s.raise (writesStructs i) (writesDst i) e)

end Sys2Proof.Machine
end

