-- ==== Sys2Proof/Machine/BitBuffers.lean ====
section
/-! DEFINITION. The bit-buffer manager (41_bitbuffer.md): its primitives and the six commands. -/

namespace Sys2Proof.Machine

/-! ## Primitives -/

/-- Storage with the byte `v` at index `q`, which is within it or just past its end. -/
def setByte (st : List Byte) (q : Nat) (v : Byte) : List Byte := st.take q ++ v :: st.drop (q + 1)

/-- The empty buffer (R70, R215). -/
def BitBuffer.empty : BitBuffer := { n := 0, st := [] }

/-- `AppendBit(t)` without its capacity check (R211): a whole new byte when `BB.n mod 8 = 0`, else the bit is OR-ed in. -/
def BitBuffer.push (b : BitBuffer) (t : Bool) : BitBuffer :=
  let q := b.n / 8
  let r := b.n % 8
  let v : Byte := if t then 1 else 0
  { n := b.n + 1
    st := if r = 0 then setByte b.st q v else setByte b.st q (b.st.getD q 0 ||| v <<< r) }

/-- `AppendBit(t)` (R211). -/
def appendBit (c : Config) (t : Bool) (b : BitBuffer) : Except CmdError BitBuffer :=
  if 8 * c.capBytes ≤ b.n then .error ⟨.bbOverflow, word (8 * c.capBytes)⟩ else .ok (b.push t)

/-- `AppendBit` of each bit in turn, the first bit first. -/
def appendBits (c : Config) : List Bool → BitBuffer → Except CmdError BitBuffer
  | [], b => .ok b
  | t :: ts, b => do
    let b' ← appendBit c t b
    appendBits c ts b'

/-- `GetBit(i)` (R212); `none` is `absent`. -/
def BitBuffer.getBit (b : BitBuffer) (i : Nat) : Option Bool :=
  if b.n ≤ i then none else some ((b.st.getD (i / 8) 0).getLsbD (i % 8))

/-- `bits(BB)` (R210). -/
def BitBuffer.bits (b : BitBuffer) : List Bool := (List.range b.n).map fun i => (b.getBit i).getD false

/-- The meaningful storage bytes, `ceil8(BB.n)` of them (R70, R213). -/
def BitBuffer.storage (b : BitBuffer) : List Byte := b.st.take (ceil8 b.n)

/-! ## Commands -/

/-- `BB_CLEAR` (R215). -/
def execBbClear (s : State) : Host.Outcome State Fault Refusal := finish .bbClear s (.ok (s.setBb (some .empty)))

/-- `BB_APPEND_BIT` (R218). -/
def bbAppendBitBody (s : State) : Except CmdError State := do
  let b ← require s.bb .bb
  let t ← bitOperand s
  let b' ← appendBit s.cfg t b
  .ok ((s.setBb (some b')).setResult0 (word b'.n))

@[inherit_doc bbAppendBitBody]
def execBbAppendBit (s : State) : Host.Outcome State Fault Refusal := finish .bbAppendBit s (bbAppendBitBody s)

/-- One turn of the loop of `BB_APPEND_MANY`: source byte `i`, which must be 0 or 1 (R221). -/
def appendSrcBit (c : Config) (i : Nat) (v : Byte) (b : BitBuffer) : Except CmdError BitBuffer :=
  if 1 < v.toNat then .error ⟨.invalidBit, word i⟩ else appendBit c (v.getLsbD 0) b

/-- `BB_APPEND_MANY` (R221). -/
def bbAppendManyBody (s : State) : Except CmdError State := do
  checkBuffers .bbAppendMany s
  let b ← require s.bb .bb
  let b' ← forSrc s (appendSrcBit s.cfg) 0 s.ops.srcLen.toNat b
  .ok ((s.setBb (some b')).setResult0 (word b'.n))

@[inherit_doc bbAppendManyBody]
def execBbAppendMany (s : State) : Host.Outcome State Fault Refusal := finish .bbAppendMany s (bbAppendManyBody s)

/-- `BB_GET_BIT` (R223): an index past the bit count is absent, not an error. -/
def bbGetBitBody (s : State) : Except CmdError State := do
  let b ← require s.bb .bb
  match b.getBit (bitIndexOperand s) with
  | none => .ok (s.setResults 0 0)
  | some t => .ok (s.setResults (bit t) 1)

@[inherit_doc bbGetBitBody]
def execBbGetBit (s : State) : Host.Outcome State Fault Refusal := finish .bbGetBit s (bbGetBitBody s)

/-- `BB_LENGTH` (R224). -/
def bbLengthBody (s : State) : Except CmdError State := do
  let b ← require s.bb .bb
  .ok (s.setResults (word b.n) (word (ceil8 b.n)))

@[inherit_doc bbLengthBody]
def execBbLength (s : State) : Host.Outcome State Fault Refusal := finish .bbLength s (bbLengthBody s)

/-- `BB_STORE` (R225). -/
def bbStoreBody (s : State) : Except CmdError State := do
  checkBuffers .bbStore s
  let b ← require s.bb .bb
  emit s b.storage

@[inherit_doc bbStoreBody]
def execBbStore (s : State) : Host.Outcome State Fault Refusal := finish .bbStore s (bbStoreBody s)

end Sys2Proof.Machine
end

