-- ==== Sys2Proof/Machine/Frequency.lean ====
section
/-! DEFINITION. The frequency counter (42_frequency.md): the table's accessors and the five commands. -/

namespace Sys2Proof.Machine

/-! ## The table -/

/-- The empty table (R50). -/
def FreqTable.empty : FreqTable := Vector.replicate 256 none

/-- Entry `b`: `none` when absent (R50). -/
def FreqTable.entry (t : FreqTable) (b : Byte) : Option Word := t[b.toNat]'b.isLt

/-- The table with entry `b` replaced. -/
def FreqTable.put (t : FreqTable) (b : Byte) (c : Option Word) : FreqTable := t.set b.toNat c b.isLt

/-- The present entries in ascending order of byte value (R281, R404). -/
def FreqTable.entries (t : FreqTable) : List (Byte × Word) :=
  t.toList.zipIdx.filterMap fun p => p.1.map fun c => (BitVec.ofNat 8 p.2, c)

/-- `nFT`: the number of present entries (R51). -/
def FreqTable.size (t : FreqTable) : Nat := t.entries.length

/-- `FT[v].present <- 1; FT[v].count <- FT[v].count + 1`, an absent entry counting 0 (R252). -/
def FreqTable.bump (t : FreqTable) (v : Byte) : FreqTable := t.put v (some ((t.entry v).getD 0 + 1))

/-- The table of a byte string, `from_bytes` of the source (R252). -/
def FreqTable.ofBytes (bs : List Byte) : FreqTable := bs.foldl FreqTable.bump FreqTable.empty

/-! ## Commands -/

/-- `FREQ_CLEAR` (R250). -/
def execFreqClear (s : State) : Host.Outcome State Fault Refusal := finish .freqClear s (.ok (s.setFt (some FreqTable.empty)))

/-- The body of `FREQ_COUNT` (R252): one pass over the source. -/
def freqCountBody (s : State) : Except CmdError State := do
  let t ← forSrc s (fun _ v t => .ok (FreqTable.bump t v)) 0 s.ops.srcLen.toNat FreqTable.empty
  .ok ((s.setFt (some t)).setResult0 (word (FreqTable.size t)))

/-- `FREQ_COUNT` (R252). -/
def execFreqCount (s : State) : Host.Outcome State Fault Refusal :=
  finish .freqCount s do
    checkBuffers .freqCount s
    freqCountBody s

/-- `FREQ_WRITE` (R256). -/
def freqWriteBody (s : State) : Except CmdError State := do
  let b ← byteOperand s
  let t ← require s.ft .ft
  .ok (s.setFt (some (FreqTable.put t b (some (countOperand s)))))

@[inherit_doc freqWriteBody]
def execFreqWrite (s : State) : Host.Outcome State Fault Refusal := finish .freqWrite s (freqWriteBody s)

/-- `FREQ_REMOVE` (R258). -/
def freqRemoveBody (s : State) : Except CmdError State := do
  let b ← byteOperand s
  let t ← require s.ft .ft
  .ok (s.setFt (some (FreqTable.put t b none)))

@[inherit_doc freqRemoveBody]
def execFreqRemove (s : State) : Host.Outcome State Fault Refusal := finish .freqRemove s (freqRemoveBody s)

/-- `FREQ_READ` (R260): an absent entry reads count 0 and present 0. -/
def freqReadBody (s : State) : Except CmdError State := do
  let b ← byteOperand s
  let t ← require s.ft .ft
  .ok (s.setResults ((FreqTable.entry t b).getD 0) (bit (FreqTable.entry t b).isSome))

@[inherit_doc freqReadBody]
def execFreqRead (s : State) : Host.Outcome State Fault Refusal := finish .freqRead s (freqReadBody s)

end Sys2Proof.Machine
end

