-- ==== Sys2Proof/Machine/TreeBuilder.lean ====
section
/-! DEFINITION. The tree builder (43_tree.md): the node order, the build algorithm and the two commands. -/

namespace Sys2Proof.Machine

/-! ## Nodes (R56) -/

/-- The aggregate count. -/
def Node.count : Node → Word
  | .leaf _ c => c
  | .internal _ _ c _ => c

/-- The minimum byte, which is a leaf's own byte. -/
def Node.minByte : Node → Byte
  | .leaf b _ => b
  | .internal _ _ _ m => m

/-- The left child; a leaf reads 0 (R300). -/
def Node.left : Node → BitVec 9
  | .leaf _ _ => 0
  | .internal l _ _ _ => l

/-- The right child; a leaf reads 0 (R300). -/
def Node.right : Node → BitVec 9
  | .leaf _ _ => 0
  | .internal _ r _ _ => r

/-- Whether the node is an internal node (`kind`, R56). -/
def Node.isInternal : Node → Bool
  | .leaf _ _ => false
  | .internal _ _ _ _ => true

/-- `NODE[i]`. A slot not in use is never read (R55); the answer there stands only to make the function total. -/
def Tree.node (t : Tree) (i : Nat) : Node := t.nodes.getD i (.leaf 0 0)

/-- The last slot in use, which is the root: `2n - 2` (R55, R285). -/
def Tree.root (t : Tree) : Nat := 2 * t.nleaf - 2

/-! ## The build algorithm -/

/-- The node order `<N`: by count, on a tie by minimum byte (R282). -/
def Node.before (p q : Node) : Bool :=
  decide (p.count.toNat < q.count.toNat)
    || (decide (p.count.toNat = q.count.toNat) && decide (p.minByte.toNat < q.minByte.toNat))

/-- The `<N`-least node of a working set of slots with their nodes, and the set without it (R283). -/
def extractLeast : List (Nat × Node) → Option ((Nat × Node) × List (Nat × Node))
  | [] => none
  | x :: xs =>
    match extractLeast xs with
    | none => some (x, [])
    | some (m, rest) => if Node.before m.2 x.2 then some (m, x :: rest) else some (x, xs)

/-- The internal node over the first extracted node `a`, its left child, and the second, `b` (R56, R283, R284). -/
def mergeNodes (a b : Nat × Node) : Node :=
  .internal (BitVec.ofNat 9 a.1) (BitVec.ofNat 9 b.1) (word (a.2.count.toNat + b.2.count.toNat))
    (if a.2.minByte.toNat ≤ b.2.minByte.toNat then a.2.minByte else b.2.minByte)

/-- The loop of `Build()`: merges the two least nodes of the working set until one is left, at most `fuel` times, the new
nodes taking the slots from `next` up; answers the internal nodes in the order they were made (R283). -/
def mergeLoop : Nat → List (Nat × Node) → Nat → Except CmdError (List Node)
  | 0, _, _ => .ok []
  | fuel + 1, w, next =>
    match extractLeast w with
    | none => .ok []
    | some (a, w1) =>
      match extractLeast w1 with
      | none => .ok []
      | some (b, w2) =>
        if 2 ^ 64 - 1 < a.2.count.toNat + b.2.count.toNat then .error ⟨.countOverflow, word next⟩
        else do
          let rest ← mergeLoop fuel ((next, mergeNodes a b) :: w2) (next + 1)
          .ok (mergeNodes a b :: rest)

/-- The leaves, one for each present entry in ascending order of byte value (R281). -/
def seedLeaves (t : FreqTable) : List Node := (FreqTable.entries t).map fun e => .leaf e.1 e.2

/-- Slots with their nodes, from slot 0 up. -/
def withSlots (l : List Node) : List (Nat × Node) := l.zipIdx.map fun p => (p.2, p.1)

/-- `Build()` (R283); the tree of the empty table is "none". The loop runs `n - 1` times (R285). -/
def build (t : FreqTable) : Except CmdError (Option Tree) :=
  let leaves := seedLeaves t
  let n := leaves.length
  if n = 0 then .ok none
  else do
    let internals ← mergeLoop (n - 1) (withSlots leaves) n
    .ok (some { nleaf := n, nodes := leaves ++ internals })

/-! ## Commands -/

/-- `TREE_BUILD` (R290): the tree of the empty table is no tree and no error. -/
def treeBuildBody (s : State) : Except CmdError State := do
  let t ← require s.ft .ft
  let r ← build t
  match r with
  | none => .ok ((s.setTree none).setResults 0 0)
  | some tr => .ok ((s.setTree (some tr)).setResults (word tr.nleaf) (word tr.root))

@[inherit_doc treeBuildBody]
def execTreeBuild (s : State) : Host.Outcome State Fault Refusal := finish .treeBuild s (treeBuildBody s)

/-- The second word of a node read-back (R300): kind in bit 0, `min_byte` in 15:8, `left` in 24:16, `right` in 40:32. -/
def Node.linkWord (x : Node) : Word :=
  bit x.isInternal ||| x.minByte.setWidth 64 <<< 8 ||| x.left.setWidth 64 <<< 16 ||| x.right.setWidth 64 <<< 32

/-- `NODE_READ` (R300): the range check depends on the tree and comes after the valid flag. -/
def nodeReadBody (s : State) : Except CmdError State := do
  let t ← require s.tree .tree
  let i ← indexOperand s t.root
  .ok (s.setResults (t.node i).count (t.node i).linkWord)

@[inherit_doc nodeReadBody]
def execNodeRead (s : State) : Host.Outcome State Fault Refusal := finish .nodeRead s (nodeReadBody s)

end Sys2Proof.Machine
end

