-- ==== Sys2Proof/Machine/CodeMaps.lean ====
section
/-! DEFINITION. The encode-map and decode-map generators (44_codemaps.md): the codes, the look-up table, the decoder state
machine and the four commands. -/

namespace Sys2Proof.Machine

/-! ## Codes -/

/-- `Path(i, p)` (R320): the codes of the leaves under slot `i`, reached with path `p`, a 0 for each left and a 1 for each
right. `fuel` bounds the depth. -/
def pathsFrom (t : Tree) : Nat → Nat → List Bool → List (Byte × List Bool)
  | 0, _, _ => []
  | fuel + 1, i, p =>
    match t.node i with
    | .leaf b _ => [(b, p)]
    | .internal l r _ _ => pathsFrom t fuel l.toNat (p ++ [false]) ++ pathsFrom t fuel r.toNat (p ++ [true])

/-- The codes of a tree: the paths from the root, or `[0]` for the one byte of a single leaf (R320, R321). -/
def codes (t : Tree) : List (Byte × List Bool) :=
  if t.nleaf = 1 then [((t.node 0).minByte, [false])] else pathsFrom t t.nodes.length t.root []

/-! ## Encode look-up table (R60) -/

/-- A bit sequence as a number, its first bit at bit 0. -/
def bitsNat : List Bool → Nat
  | [] => 0
  | b :: bs => (if b then 1 else 0) + 2 * bitsNat bs

/-- The entry of a byte with no code. -/
def LutEntry.absent : LutEntry := { len := 0, code := 0 }

/-- The entry of a byte with the code `p` (R325). -/
def LutEntry.ofCode (p : List Bool) : LutEntry := { len := BitVec.ofNat 8 p.length, code := BitVec.ofNat 255 (bitsNat p) }

/-- The code of an entry, `[code[0], …, code[len - 1]]` (R60). -/
def LutEntry.bits (e : LutEntry) : List Bool := (List.range e.len.toNat).map fun j => e.code.getLsbD j

/-- `LUT[b]`. -/
def Lut.entry (l : Lut) (b : Byte) : LutEntry := l[b.toNat]'b.isLt

/-- The look-up table of a tree (R325). -/
def genLut (t : Tree) : Lut :=
  (codes t).foldl (fun l p => l.set p.1.toNat (LutEntry.ofCode p.2) p.1.isLt) (Vector.replicate 256 LutEntry.absent)

/-- The longest code: the maximum of `LUT[b].len` over all bytes (R325). -/
def Lut.longest (l : Lut) : Nat := l.toList.foldl (fun m e => max m e.len.toNat) 0

/-- `ENCMAP_GEN` (R325). -/
def encmapGenBody (s : State) : Except CmdError State := do
  let t ← require s.tree .tree
  .ok ((s.setLut (some (genLut t))).setResults (word t.nleaf) (word (Lut.longest (genLut t))))

@[inherit_doc encmapGenBody]
def execEncmapGen (s : State) : Host.Outcome State Fault Refusal := finish .encmapGen s (encmapGenBody s)

/-- Code bits `64w` to `64w + 63`, code bit `64w` at bit 0; code bit 255 reads 0 (R330). -/
def LutEntry.codeWord (e : LutEntry) (w : Nat) : Word := (e.code >>> (64 * w)).setWidth 64

/-- `LUT_READ` (R330). -/
def lutReadBody (s : State) : Except CmdError State := do
  let b ← byteOperand s
  let w ← codeWordOperand s
  let l ← require s.lut .lut
  .ok (s.setResults ((Lut.entry l b).len.setWidth 64) ((Lut.entry l b).codeWord w))

@[inherit_doc lutReadBody]
def execLutRead (s : State) : Host.Outcome State Fault Refusal := finish .lutRead s (lutReadBody s)

/-! ## Decoder state machine (R65) -/

/-- The entry for a branch to slot `c` of a tree with `n` leaves (R341). -/
def fsmEntryFor (t : Tree) (c : Nat) : FsmEntry :=
  match t.node c with
  | .leaf b _ => .emit b
  | .internal _ _ _ _ => .goto (BitVec.ofNat 8 (c - t.nleaf))

/-- `BuildFSM()` (R341): the single-leaf machine, or one state for each internal node. -/
def buildFsm (t : Tree) : Fsm :=
  if t.nleaf = 1 then { states := [(.emit (t.node 0).minByte, .dead)], start := 0 }
  else
    { states := (List.range (t.nleaf - 1)).map fun k =>
        (fsmEntryFor t (t.node (t.nleaf + k)).left.toNat, fsmEntryFor t (t.node (t.nleaf + k)).right.toNat)
      start := t.nleaf - 2 }

/-- `FSM[k]`, the entries for input bit 0 and 1. A state number of a valid table is below `S` (R65); the answer past it
stands only to make the function total. -/
def Fsm.state (f : Fsm) (k : Nat) : FsmEntry × FsmEntry := f.states.getD k (.dead, .dead)

/-- `FSM[k][t]`. -/
def Fsm.entry (f : Fsm) (k : Nat) (t : Bool) : FsmEntry := if t then (f.state k).2 else (f.state k).1

/-- `DECMAP_GEN` (R345). -/
def decmapGenBody (s : State) : Except CmdError State := do
  let t ← require s.tree .tree
  .ok ((s.setFsm (some (buildFsm t))).setResults (word (buildFsm t).states.length) (word (buildFsm t).start))

@[inherit_doc decmapGenBody]
def execDecmapGen (s : State) : Host.Outcome State Fault Refusal := finish .decmapGen s (decmapGenBody s)

/-- The read-back word of an entry: `kind | (value << 8)` (R66). -/
def FsmEntry.word : FsmEntry → Word
  | .goto k => k.setWidth 64 <<< 8
  | .emit v => 1 ||| v.setWidth 64 <<< 8
  | .dead => 2

/-- `FSM_READ` (R350): the range check comes after the valid flag. -/
def fsmReadBody (s : State) : Except CmdError State := do
  let f ← require s.fsm .fsm
  let k ← indexOperand s (f.states.length - 1)
  .ok (s.setResults (f.state k).1.word (f.state k).2.word)

@[inherit_doc fsmReadBody]
def execFsmRead (s : State) : Host.Outcome State Fault Refusal := finish .fsmRead s (fsmReadBody s)

end Sys2Proof.Machine
end

