-- ==== Sys2Proof/Machine/Varint.lean ====
section
/-! DEFINITION. The variable-width integer codec (45_varint.md): its three functions and the three commands. -/

namespace Sys2Proof.Machine

/-- `min_width(v)` (R371): the fewest bytes that hold `v`, 1 for 0. -/
def minWidth (v : Word) : Nat :=
  if v = 0 then 1 else ((List.range' 1 8).find? fun k => decide (v.toNat < 2 ^ (8 * k))).getD 8

/-- The low `w` bytes of `v`, least significant first (R372). -/
def packBytes (v : Word) (w : Nat) : List Byte := (List.range w).map fun i => (v >>> (8 * i)).setWidth 8

/-- `pack(v, w)` (R372). -/
def pack (v : Word) (w : Nat) : Except CmdError (List Byte) :=
  if w = 0 ∨ 8 < w ∨ w < minWidth v then .error ⟨.packWidth, word w⟩ else .ok (packBytes v w)

/-- `unpack(s)` (R373): the little-endian value of at most 8 bytes. -/
def unpack (bs : List Byte) : Except CmdError Word :=
  if 8 < bs.length then .error ⟨.unpackWidth, word bs.length⟩ else .ok (word (leNat bs))

/-- `VI_MIN_WIDTH` (R380). -/
def execViMinWidth (s : State) : Host.Outcome State Fault Refusal :=
  finish .viMinWidth s (.ok (s.setResult0 (word (minWidth (valueOperand s)))))

/-- `VI_PACK` (R383). -/
def viPackBody (s : State) : Except CmdError State := do
  checkBuffers .viPack s
  let bs ← pack (valueOperand s) (widthOperand s)
  emit s bs

@[inherit_doc viPackBody]
def execViPack (s : State) : Host.Outcome State Fault Refusal := finish .viPack s (viPackBody s)

/-- `VI_UNPACK` (R386): the length is checked before any byte is read. -/
def viUnpackBody (s : State) : Except CmdError State := do
  checkBuffers .viUnpack s
  check (decide (s.ops.srcLen.toNat ≤ 8)) ⟨.unpackWidth, s.ops.srcLen⟩
  let bs ← srcBytes s 0 s.ops.srcLen.toNat
  let v ← unpack bs
  .ok (s.setResult0 v)

@[inherit_doc viUnpackBody]
def execViUnpack (s : State) : Host.Outcome State Fault Refusal := finish .viUnpack s (viUnpackBody s)

end Sys2Proof.Machine
end

