-- ==== Sys2Proof/Machine/Container.lean ====
section
/-! DEFINITION. The container serializer and deserializer (46_container.md) and their two commands. -/

namespace Sys2Proof.Machine

/-! ## Serializer -/

/-- The entry width on write: the largest `min_width` of the counts, 1 for the empty table (R403). -/
def entryWidth (es : List (Byte × Word)) : Nat := es.foldl (fun m e => max m (minWidth e.2)) 1

/-- The table section: the width byte and the entries in ascending order (R402 to R404). -/
def tableSection (t : FreqTable) : List Byte :=
  let es := FreqTable.entries t
  let w := entryWidth es
  BitVec.ofNat 8 w :: es.flatMap fun e => e.1 :: packBytes e.2 w

/-- The container of a table and a bit buffer, the bytes `Serialize()` emits in order (R400, R401, R410). -/
def containerBytes (t : FreqTable) (b : BitBuffer) : List Byte :=
  let sw := minWidth (word b.n)
  packBytes (word (tableSection t).length) 2 ++ tableSection t ++ BitVec.ofNat 8 sw :: packBytes (word b.n) sw ++ b.storage

/-- The body of `CT_SERIALIZE` (R415): `require FT`, then `require BB`. -/
def ctSerializeBody (s : State) : Except CmdError State := do
  let t ← require s.ft .ft
  let b ← require s.bb .bb
  emit s (containerBytes t b)

/-- `CT_SERIALIZE` (R415). -/
def execCtSerialize (s : State) : Host.Outcome State Fault Refusal :=
  finish .ctSerialize s do
    checkBuffers .ctSerialize s
    ctSerializeBody s

/-! ## Deserializer -/

/-- `Room(k)` at cursor `c`: the declared length must fit the bytes left (R420, R421). -/
def room (s : State) (c k : Nat) : Except CmdError Unit :=
  check (decide (k ≤ s.ops.srcLen.toNat - c)) ⟨.ctTruncated, word c⟩

/-- `Take(k)` at cursor `c`; the cursor after it is `c + k` (R420). -/
def takeSrc (s : State) (c k : Nat) : Except CmdError (List Byte) := do
  room s c k
  srcBytes s c k

/-- The entries of a table section `tb` with entry width `w`, `e` of them from section offset `off` on, added to `t`; a
byte value given twice is refused (R420, R422). -/
def readEntries (tb : List Byte) (w : Nat) : Nat → Nat → FreqTable → Except CmdError FreqTable
  | 0, _, t => .ok t
  | e + 1, off, t => do
    let b := tb.getD off 0
    check (FreqTable.entry t b).isNone ⟨.ctBadTable, word (2 + off)⟩
    let c ← unpack ((tb.drop (off + 1)).take w)
    readEntries tb w e (off + 1 + w) (FreqTable.put t b (some c))

/-- A table section of `L` bytes as a frequency table (R420, R422, R423). -/
def readTable (tb : List Byte) : Except CmdError FreqTable := do
  check (decide (tb.length ≠ 0)) ⟨.ctBadTable, 2⟩
  let w := (tb.getD 0 0).toNat
  check (decide (w ≤ 8)) ⟨.ctBadWidth, 2⟩
  check (decide ((tb.length - 1) % (1 + w) = 0)) ⟨.ctBadTable, 2⟩
  readEntries tb w ((tb.length - 1) / (1 + w)) 1 FreqTable.empty

/-- Storage of `nb` bits with the pad bits of its last byte cleared (R426). -/
def clearPad (nb : Nat) (st : List Byte) : List Byte :=
  if nb % 8 = 0 then st
  else setByte st (ceil8 nb - 1) (st.getD (ceil8 nb - 1) 0 &&& BitVec.ofNat 8 (2 ^ (nb % 8) - 1))

/-- The part of `Deserialize()` after the table section (R420): the width and value of the bit count at cursor `sOff`, then
the payload, which must end the source and fit the bit buffer. -/
def deserializePayload (s : State) (t : FreqTable) (sOff : Nat) : Except CmdError (FreqTable × BitBuffer) := do
  let sb ← takeSrc s sOff 1
  let sw := leNat sb
  check (decide (sw ≤ 8)) ⟨.ctBadWidth, word sOff⟩
  let nbs ← takeSrc s (sOff + 1) sw
  let nb := leNat nbs
  let c := sOff + 1 + sw
  room s c (ceil8 nb)
  check (decide (c + ceil8 nb = s.ops.srcLen.toNat)) ⟨.ctTrailing, word (c + ceil8 nb)⟩
  check (decide (ceil8 nb ≤ s.cfg.capBytes)) ⟨.bbOverflow, word (8 * s.cfg.capBytes)⟩
  let st ← takeSrc s c (ceil8 nb)
  .ok (t, { n := nb, st := clearPad nb st })

/-- `Deserialize()` (R420): a strict sequential cursor over the source buffer, the checks in the pseudocode's order. -/
def deserialize (s : State) : Except CmdError (FreqTable × BitBuffer) := do
  let tl ← takeSrc s 0 2
  let tb ← takeSrc s 2 (leNat tl)
  let t ← readTable tb
  deserializePayload s t (2 + leNat tl)

/-- The body of `CT_DESERIALIZE` (R435). -/
def ctDeserializeBody (s : State) : Except CmdError State := do
  let r ← deserialize s
  .ok (((s.setFt (some r.1)).setBb (some r.2)).setResults (word (FreqTable.size r.1)) (word r.2.n))

/-- `CT_DESERIALIZE` (R435). -/
def execCtDeserialize (s : State) : Host.Outcome State Fault Refusal :=
  finish .ctDeserialize s do
    checkBuffers .ctDeserialize s
    ctDeserializeBody s

end Sys2Proof.Machine
end

