-- ==== Sys2Proof/Machine/Control.lean ====
section
/-! DEFINITION. The control command `NOP` (40_command.md R190). -/

namespace Sys2Proof.Machine

/-- `NOP` (R190): always completes, and writes nothing. -/
def execNop (s : State) : Host.Outcome State Fault Refusal := finish .nop s (.ok s)

end Sys2Proof.Machine
end

