-- ==== Sys2Proof/Machine/Pipeline.lean ====
section
/-! DEFINITION. The payload encoder and decoder and the two entry points (47_pipeline.md). -/

namespace Sys2Proof.Machine

/-! ## Payload encoder -/

/-- One turn of the loop of `Encode()`: appends the code of source byte `i` (R450). -/
def encodeByte (c : Config) (l : Lut) (i : Nat) (v : Byte) (b : BitBuffer) : Except CmdError BitBuffer :=
  if (Lut.entry l v).len = 0 then .error ⟨.noCode, word i⟩ else appendBits c (Lut.entry l v).bits b

/-- The body of `ENCODE` (R450, R452). -/
def encodeBody (s : State) : Except CmdError State := do
  let l ← require s.lut .lut
  let b ← forSrc s (encodeByte s.cfg l) 0 s.ops.srcLen.toNat .empty
  .ok ((s.setBb (some b)).setResult0 (word b.n))

/-- `ENCODE` (R452). -/
def execEncode (s : State) : Host.Outcome State Fault Refusal :=
  finish .encode s do
    checkBuffers .encode s
    encodeBody s

/-! ## Payload decoder -/

/-- The loop of `Decode()` over the bits from `i` on, `k` of them (R460). The decoder state is `some` state number, or
`none` for `DEAD`; `start` is the index of the first bit of the unfinished code. A byte is emitted as its code completes. -/
def decodeLoop (s : State) (f : Fsm) (b : BitBuffer) : Nat → Nat → Option Nat → Nat → Output → Except CmdError Output
  | 0, _, q, start, o => if q = some f.start then .ok o else .error ⟨.decodeIncomplete, word start⟩
  | k + 1, i, none, start, o => decodeLoop s f b k (i + 1) none start o
  | k + 1, i, some q, start, o =>
    match f.entry q ((b.getBit i).getD false) with
    | .emit v => do
      let o' ← dstPut s v o
      decodeLoop s f b k (i + 1) (some f.start) (i + 1) o'
    | .goto j => decodeLoop s f b k (i + 1) (some j.toNat) start o
    | .dead => decodeLoop s f b k (i + 1) none start o

/-- The body of `DECODE` (R462): `require FSM`, then `require BB`. -/
def decodeBody (s : State) : Except CmdError State := do
  let f ← require s.fsm .fsm
  let b ← require s.bb .bb
  let o ← decodeLoop s f b b.n 0 (some f.start) 0 { mem := s.mem, count := 0 }
  .ok (s.withOutput o)

/-- `DECODE` (R462). -/
def execDecode (s : State) : Host.Outcome State Fault Refusal :=
  finish .decode s do
    checkBuffers .decode s
    decodeBody s

/-! ## Entry points -/

/-- The end of an entry point that has nothing to output: `OUT_LEN`, `RESULT0` and `RESULT1` are 0 (R470, R480). -/
def State.emptyOutput (s : State) : State := (s.setOutLen 0).setResults 0 0

/-- The body of `COMPRESS` (R470): count, build, encode map, encode, serialize; an empty source has no tree and stops
after the second step. -/
def compressBody (s : State) : Except CmdError State := do
  let s1 ← freqCountBody s
  let s2 ← treeBuildBody s1
  match s2.tree with
  | none => .ok s2.emptyOutput
  | some _ =>
    let s3 ← encmapGenBody s2
    let s4 ← encodeBody s3
    let s5 ← ctSerializeBody s4
    let b ← require s5.bb .bb
    let l ← require s5.lut .lut
    .ok (s5.setResults (word b.n) (word (Lut.longest l)))

/-- `COMPRESS` (R470). -/
def execCompress (s : State) : Host.Outcome State Fault Refusal :=
  finish .compress s do
    checkBuffers .compress s
    compressBody s

/-- The last steps of `DECOMPRESS` once the tree is built: decode map and decode, or nothing for an empty table (R480). -/
def decompressOutput (s : State) : Except CmdError State :=
  match s.tree with
  | none => .ok (s.setOutLen 0)
  | some _ => do
    let s' ← decmapGenBody s
    decodeBody s'

/-- The body of `DECOMPRESS` on a source that is not empty (R480): deserialize, build, decode map, decode; an empty table
gives empty output. -/
def decompressBody (s : State) : Except CmdError State := do
  let s1 ← ctDeserializeBody s
  let t ← require s1.ft .ft
  let b ← require s1.bb .bb
  let s2 ← treeBuildBody s1
  let s4 ← decompressOutput s2
  .ok (s4.setResults (word (FreqTable.size t)) (word b.n))

/-- `DECOMPRESS` (R480): a source of length 0 gives empty output and changes no structure. -/
def execDecompress (s : State) : Host.Outcome State Fault Refusal :=
  finish .decompress s do
    checkBuffers .decompress s
    if s.ops.srcLen.toNat = 0 then .ok s.emptyOutput else decompressBody s

end Sys2Proof.Machine
end

