-- ==== Sys2Proof/Machine/Dispatch.lean ====
section
/-! DEFINITION. The dispatch: one arm for each command of the opcode table (30_encoding.md R146), in its order. -/

namespace Sys2Proof.Machine

def exec (i : Instr) (s : State) : Host.Outcome State Fault Refusal :=
  match i with
  | .nop => Sys2Proof.Machine.execNop s
  | .compress => Sys2Proof.Machine.execCompress s
  | .decompress => Sys2Proof.Machine.execDecompress s
  | .freqClear => Sys2Proof.Machine.execFreqClear s
  | .freqCount => Sys2Proof.Machine.execFreqCount s
  | .freqWrite => Sys2Proof.Machine.execFreqWrite s
  | .freqRemove => Sys2Proof.Machine.execFreqRemove s
  | .freqRead => Sys2Proof.Machine.execFreqRead s
  | .treeBuild => Sys2Proof.Machine.execTreeBuild s
  | .nodeRead => Sys2Proof.Machine.execNodeRead s
  | .encmapGen => Sys2Proof.Machine.execEncmapGen s
  | .lutRead => Sys2Proof.Machine.execLutRead s
  | .decmapGen => Sys2Proof.Machine.execDecmapGen s
  | .fsmRead => Sys2Proof.Machine.execFsmRead s
  | .bbClear => Sys2Proof.Machine.execBbClear s
  | .bbAppendBit => Sys2Proof.Machine.execBbAppendBit s
  | .bbAppendMany => Sys2Proof.Machine.execBbAppendMany s
  | .bbGetBit => Sys2Proof.Machine.execBbGetBit s
  | .bbLength => Sys2Proof.Machine.execBbLength s
  | .bbStore => Sys2Proof.Machine.execBbStore s
  | .viMinWidth => Sys2Proof.Machine.execViMinWidth s
  | .viPack => Sys2Proof.Machine.execViPack s
  | .viUnpack => Sys2Proof.Machine.execViUnpack s
  | .ctSerialize => Sys2Proof.Machine.execCtSerialize s
  | .ctDeserialize => Sys2Proof.Machine.execCtDeserialize s
  | .encode => Sys2Proof.Machine.execEncode s
  | .decode => Sys2Proof.Machine.execDecode s

end Sys2Proof.Machine
end

