-- ==== Sys2Proof/Machine/HostSide.lean ====
section
/-! DEFINITION. The host's side of the block: the register map and its reads and writes (10_state.md R31 to R49, R82), the
two resets (70_reset_and_hazards.md R550 to R554), and the host's accesses to memory with its cache (20_memory.md R114 to
R118; 40_command.md R189). -/

namespace Sys2Proof.Machine

/-! ## The register map (R31) -/

/-- The 17 registers of the window. -/
inductive Reg where
  | id
  | cap
  | ctrl
  | cmd
  | status
  | state
  | irqEn
  | srcAddr
  | srcLen
  | dstAddr
  | dstCap
  | arg0
  | arg1
  | outLen
  | result0
  | result1
  | errInfo
deriving DecidableEq, Repr

/-- The register at an aligned offset of the window; `none` is a reserved offset (R31, R47). -/
def regAt (off : Nat) : Option Reg :=
  match off with
  | 0x000 => some .id
  | 0x008 => some .cap
  | 0x010 => some .ctrl
  | 0x018 => some .cmd
  | 0x020 => some .status
  | 0x028 => some .state
  | 0x030 => some .irqEn
  | 0x038 => some .srcAddr
  | 0x040 => some .srcLen
  | 0x048 => some .dstAddr
  | 0x050 => some .dstCap
  | 0x058 => some .arg0
  | 0x060 => some .arg1
  | 0x068 => some .outLen
  | 0x070 => some .result0
  | 0x078 => some .result1
  | 0x080 => some .errInfo
  | _ => none

/-- `ID`: "WZIP", revision 1 of the interface, `ADDR_W` (R32). -/
def Config.idWord (c : Config) : Word :=
  0x50495A57 ||| 0x0001 <<< 32 ||| (BitVec.ofNat 8 c.addrW).setWidth 64 <<< 48

/-- The value of a register (R31 to R44). `CTRL` reads 0 (R34). -/
def regValue (s : State) : Reg → Word
  | .id => Config.idWord s.cfg
  | .cap => word s.cfg.capBytes
  | .ctrl => 0
  | .cmd => s.cmd
  | .status => s.status.word
  | .state => s.stateWord
  | .irqEn => s.irqEn.word
  | .srcAddr => s.ops.srcAddr
  | .srcLen => s.ops.srcLen
  | .dstAddr => s.ops.dstAddr
  | .dstCap => s.ops.dstCap
  | .arg0 => s.ops.arg0
  | .arg1 => s.ops.arg1
  | .outLen => s.res.outLen
  | .result0 => s.res.result0
  | .result1 => s.res.result1
  | .errInfo => s.res.errInfo

/-- The registers whose value is unspecified while the block is busy (R82). -/
def drawnWhileBusy : Reg → Bool
  | .state | .outLen | .result0 | .result1 | .errInfo => true
  | .id | .cap | .ctrl | .cmd | .status | .irqEn | .srcAddr | .srcLen | .dstAddr | .dstCap | .arg0 | .arg1 => false

/-- A read of a register: its value, or a free value (R82). Reads have no other effect (R111). -/
def readReg (r : Reg) (s : State) : State :=
  if s.status.busy && drawnWhileBusy r then State.drew { s with hostData := Config.freeWord s.draws } 1
  else { s with hostData := regValue s r }

/-! ## Resets (R550 to R555) -/

/-- Whether the command that `CMD` holds writes the destination buffer (R146). -/
def runningWritesDst (s : State) : Bool :=
  match decode s.cmd with
  | .ok i => writesDst i
  | .error _ => false

/-- A reset, soft or of the platform (R550, R551). One that aborts a command leaves the destination bytes that the command
may have written unspecified (R554); otherwise memory keeps its value (R552). -/
def resetBlock (s : State) : State :=
  if s.status.busy && runningWritesDst s then s.scrambleDst.toReset else s.toReset

/-! ## Register writes -/

/-- A write that takes effect only while the block is idle, and while it is busy is dropped and sets `OVR` (R49). -/
def whenIdle (s t : State) : State :=
  if s.status.busy then { s with status := s.status.overrun } else t

/-- A write of `v` to a register (R34 to R41, R49). A read-only register ignores it. -/
def writeReg (r : Reg) (v : Word) (s : State) : State :=
  match r with
  | .ctrl => if v.getLsbD 0 then resetBlock s else s
  | .cmd => whenIdle s (s.accept v)
  | .status => s.acknowledge v
  | .irqEn => whenIdle s { s with irqEn := IrqEnable.ofWord v }
  | .srcAddr => whenIdle s { s with ops := { s.ops with srcAddr := v } }
  | .srcLen => whenIdle s { s with ops := { s.ops with srcLen := v } }
  | .dstAddr => whenIdle s { s with ops := { s.ops with dstAddr := v } }
  | .dstCap => whenIdle s { s with ops := { s.ops with dstCap := v } }
  | .arg0 => whenIdle s { s with ops := { s.ops with arg0 := v } }
  | .arg1 => whenIdle s { s with ops := { s.ops with arg1 := v } }
  | .id | .cap | .state | .outLen | .result0 | .result1 | .errInfo => s

/-- A write at an offset of the window; a reserved offset ignores it (R47). -/
def writeAt (off : Nat) (v : Word) (s : State) : State :=
  match regAt off with
  | some r => writeReg r v s
  | none => s

/-- A read at an offset of the window; a reserved offset reads 0 (R47). -/
def readAt (off : Nat) (s : State) : State :=
  match regAt off with
  | some r => readReg r s
  | none => { s with hostData := 0 }

/-! ## The host's cache (R118)

Present only when `COHERENT = false`. The spec names write-back and discard of "any cached copy" and nothing more of the
host's cache: a byte-wide copy for each address is a DESIGN CHOICE (assumption log 5). -/

/-- The cached copy of the byte at `a`. -/
def cacheFind : List CacheByte → Nat → Option CacheByte
  | [], _ => none
  | c :: cs, a => if c.addr = a then some c else cacheFind cs a

/-- The cache with the copy `n` in place of any copy of the same byte, addresses rising. -/
def cacheInsert : List CacheByte → CacheByte → List CacheByte
  | [], n => [n]
  | c :: cs, n =>
    if n.addr < c.addr then n :: c :: cs
    else if n.addr = c.addr then n :: cs
    else c :: cacheInsert cs n

/-- The cache without a copy of the byte at `a`. -/
def cacheDrop (cs : List CacheByte) (a : Nat) : List CacheByte := cs.filter fun c => c.addr != a

/-- The cache's addresses strictly rise from at least `lo`. -/
def cacheWfFrom : Nat → List CacheByte → Bool
  | _, [] => true
  | lo, c :: cs => decide (lo ≤ c.addr) && cacheWfFrom (c.addr + 1) cs

/-! ## Host accesses to memory -/

/-- `a` is a byte of the buffer of `len` bytes at `addr` (R39, R40). -/
def inBuffer (addr len : Word) (a : Nat) : Bool :=
  decide (addr.toNat ≤ a) && decide (a < addr.toNat + len.toNat)

/-- `a` is a byte of the source or destination buffer of a running command, where the host has no write (R189, R561). -/
def busyBuffer (s : State) (a : Nat) : Bool :=
  s.status.busy && (inBuffer s.ops.srcAddr s.ops.srcLen a || inBuffer s.ops.dstAddr s.ops.dstCap a)

/-- A host store: seen by the block's reads at once when the platform is coherent, else held in the cache until it is
written back (R114, R118). -/
def hostStore (a : Nat) (v : Byte) (s : State) : State :=
  if s.cfg.coherent then { s with mem := s.mem.write a v }
  else { s with cache := cacheInsert s.cache { addr := a, val := v, dirty := true } }

/-- A host load: a free value for a byte of the destination buffer while busy (R116, R189); else the cached copy if there
is one, else the byte of memory, of which a platform that is not coherent keeps a copy (R118). DESIGN CHOICE (assumption
log 24): the load of a destination byte while busy leaves the cache as it is, neither using a copy nor keeping one; R118,
R189 and R568 are silent on that. -/
def hostLoad (a : Nat) (s : State) : State :=
  if s.status.busy && inBuffer s.ops.dstAddr s.ops.dstCap a then
    State.drew { s with hostData := (Config.freeByte s.draws a).setWidth 64 } 1
  else if s.cfg.coherent then { s with hostData := (s.mem.read a).setWidth 64 }
  else
    match cacheFind s.cache a with
    | some c => { s with hostData := c.val.setWidth 64 }
    | none =>
      { s with
        hostData := (s.mem.read a).setWidth 64
        cache := cacheInsert s.cache { addr := a, val := s.mem.read a, dirty := false } }

/-- A write-back: a dirty copy goes to memory and stays as a clean one (R118). -/
def hostWriteBack (a : Nat) (s : State) : State :=
  match cacheFind s.cache a with
  | some c =>
    if c.dirty then { s with mem := s.mem.write a c.val, cache := cacheInsert s.cache { c with dirty := false } } else s
  | none => s

/-- A discard of the cached copy (R118). -/
def hostDiscard (a : Nat) (s : State) : State := { s with cache := cacheDrop s.cache a }

/-! ## One action of the host -/

/-- A memory action at `a`, which must be an address of DMA space (R101) and, for a write, no byte of a busy buffer
(R189). -/
def memAction (a : Nat) (writes : Bool) (s t : State) : Host.Outcome State Fault Refusal :=
  if Config.space s.cfg ≤ a then .fault (.noSuchAddress a)
  else if writes && busyBuffer s a then .refused (.bufferWriteWhileBusy a)
  else .next t

/-- A register access, which must be an aligned 64-bit access within the window (R46). -/
def regAction (off size : Nat) (t : State) : Host.Outcome State Fault Refusal :=
  if accessWellFormed off size then .next t else .refused (.registerAccess off size)

/-- One action of the host (R150, R189). -/
def hostAct (a : HostAction) (s : State) : Host.Outcome State Fault Refusal :=
  match a with
  | .regWrite off size v => regAction off size (writeAt off v s)
  | .regRead off size => regAction off size (readAt off s)
  | .store a v => memAction a true s (hostStore a v s)
  | .load a => memAction a false s (hostLoad a s)
  | .writeBack a => memAction a true s (hostWriteBack a s)
  | .discard a => memAction a false s (hostDiscard a s)
  | .platformReset => .next (resetBlock s)

end Sys2Proof.Machine
end

