-- ==== Sys2Proof/Machine/Block.lean ====
section
/-! DEFINITION. The block's own step, from an accepted command to its completion (40_command.md R182, R188), and the choice
of the agent that moves next. -/

namespace Sys2Proof.Machine

/-- The block's step while busy (R182): the command that `CMD` holds is decoded and executed to its completion; a word that
is no command ends with `ILLEGAL_CMD(word)` and touches no structure and no memory (R141, R509 item 4). -/
def blockStep (s : State) : Host.Outcome State Fault Refusal :=
  match decode s.cmd with
  | .ok i => exec i s
  | .error _ => .next (s.raise [] false ⟨.illegalCmd, s.cmd⟩)

/-- The state with the turn at the head of the schedule taken. -/
def State.takeTurn (s : State) : State := { s with turns := s.turns.tail }

/-- The agent that moves next. While idle the block does nothing, so the host moves (R180). While busy the schedule says
which moves (R188); past its end, and when the host has nothing to do, the block moves, so that it always moves in the end
(R581). -/
def nextAgent (s : State) : Agent :=
  if s.status.busy then
    if s.turns.head? = some .host ∧ s.host ≠ [] then .host else .block
  else .host

/-- The host's move: its next action. A host with nothing to do leaves the state as it is: the idle block "waits for a
write to `CMD`" (R551). -/
def hostMove (s : State) : Host.Outcome State Fault Refusal :=
  match s.host with
  | a :: rest => hostAct a { s with host := rest }
  | [] => .next s

/-- One step of the machine. A step taken while the block is busy uses up one turn of the schedule. -/
def oneStep (s : State) : Host.Outcome State Fault Refusal :=
  match nextAgent s with
  | .block => blockStep s.takeTurn
  | .host => hostMove (if s.status.busy then s.takeTurn else s)

/-- The state in which the host has just written the command word `w` and the block's step comes next: the load of a
program of one command. -/
def State.loadCommand (s : State) (w : Word) : State := { s.accept w with turns := .block :: s.turns }

end Sys2Proof.Machine
end

