-- ==== Sys2Proof/Machine/Step.lean ====
section
/-! DEFINITION. The step of the machine, and where the host of this pipeline puts a command for the next step to run. -/

namespace Sys2Proof.Machine

/-- One step: an action of the host, or the execution of the accepted command by the block (R10, R188). -/
def step : State → Host.Outcome State Fault Refusal := oneStep

/-- The machine fetches no command: it executes the word that was written to `CMD` (R119). The word's bits above `nbits`
are 0. -/
def State.withFetchWord (s : State) (nbits w : Nat) : State := s.loadCommand (BitVec.ofNat 64 (w % 2 ^ nbits))

end Sys2Proof.Machine
end

