-- ==== Sys2Proof/Safety.lean ====
section
/-! DEFINITION. The terms in which claims about the machine are made: what the buffers of a command hold and whether the
platform answers for them, what a command wrote, what the code maps and the decoder say of bit sequences, and the legal
states, as invariants that every step keeps. -/

namespace Sys2Proof.Machine

/-! ## Buffers -/

/-- The `n` bytes of memory from address `a` on. -/
def bytesAt (m : Memory) (a n : Nat) : List Byte := (List.range n).map fun i => m.read (a + i)

/-- The bytes of the source buffer (R39). -/
def sourceBytes (s : State) : List Byte := bytesAt s.mem s.ops.srcAddr.toNat s.ops.srcLen.toNat

/-- The `n` first bytes of the destination buffer (R40). -/
def destBytes (s : State) (n : Nat) : List Byte := bytesAt s.mem s.ops.dstAddr.toNat n

/-- The source region is in DMA space and the platform answers every read of it (R102, R103). -/
abbrev sourceReadable (s : State) : Prop :=
  regionOk s.cfg s.ops.srcAddr s.ops.srcLen = true ∧
    ∀ i < s.ops.srcLen.toNat, Config.memOK s.cfg (s.ops.srcAddr.toNat + i) = true

/-- The platform answers for the first `k` bytes of the source buffer (R103). -/
abbrev sourceReadableTo (s : State) (k : Nat) : Prop :=
  ∀ j < k, Config.memOK s.cfg (s.ops.srcAddr.toNat + j) = true

/-- The platform answers for the first `k` bytes of the destination buffer (R103). -/
abbrev destAnswersTo (s : State) (k : Nat) : Prop :=
  ∀ j < k, Config.memOK s.cfg (s.ops.dstAddr.toNat + j) = true

/-- Byte `j` of the source buffer (R39). -/
def sourceByte (s : State) (j : Nat) : Byte := s.mem.read (s.ops.srcAddr.toNat + j)

/-- The source and destination buffers share no byte (R109). -/
abbrev disjointBuffers (s : State) : Prop :=
  s.ops.srcLen.toNat = 0 ∨ s.ops.dstCap.toNat = 0 ∨
    s.ops.srcAddr.toNat + s.ops.srcLen.toNat ≤ s.ops.dstAddr.toNat ∨
    s.ops.dstAddr.toNat + s.ops.dstCap.toNat ≤ s.ops.srcAddr.toNat

/-- The destination region is in DMA space, holds `n` bytes, and the platform answers for each of them (R102, R103,
R108). -/
abbrev destWritable (s : State) (n : Nat) : Prop :=
  regionOk s.cfg s.ops.dstAddr s.ops.dstCap = true ∧ n ≤ s.ops.dstCap.toNat ∧
    ∀ i < n, Config.memOK s.cfg (s.ops.dstAddr.toNat + i) = true

/-- The memory of `t` is that of `s` with the bytes `bs` at the start of the destination buffer of `s`, and every byte
outside them as before (R108). -/
def WroteDest (s t : State) (bs : List Byte) : Prop :=
  destBytes { t with ops := s.ops } bs.length = bs ∧
    ∀ a, a < s.ops.dstAddr.toNat ∨ s.ops.dstAddr.toNat + bs.length ≤ a → t.mem.read a = s.mem.read a

/-- `a` is a byte of the destination buffer (R40). -/
abbrev inDest (s : State) (a : Nat) : Prop :=
  s.ops.dstAddr.toNat ≤ a ∧ a < s.ops.dstAddr.toNat + s.ops.dstCap.toNat

/-! ## Commands -/

/-- The state of the block while a command runs: accepted and not completed (R181). -/
abbrev running (s : State) : Prop := s.status.busy = true ∧ s.status.done = false ∧ s.status.err = false

/-- `STATUS` of a command that completes without error, from its value while the command ran (R185). -/
abbrev doneStatus (s : State) : Status := { s.status with busy := false, done := true }

/-- The structures whose valid flags a command checks, in the order of its `require` lines: the "needs" column of R146. -/
def needs : Instr → List Struct
  | .freqWrite | .freqRemove | .freqRead | .treeBuild => [.ft]
  | .nodeRead | .encmapGen | .decmapGen => [.tree]
  | .lutRead | .encode => [.lut]
  | .fsmRead => [.fsm]
  | .bbAppendBit | .bbAppendMany | .bbGetBit | .bbLength | .bbStore => [.bb]
  | .ctSerialize => [.ft, .bb]
  | .decode => [.fsm, .bb]
  | .nop | .compress | .decompress | .freqClear | .freqCount | .bbClear | .viMinWidth | .viPack | .viUnpack
  | .ctDeserialize => []

/-- The commands that write `FT` (R509 item 4). -/
def ftWriters : List Instr :=
  [.freqClear, .freqCount, .freqWrite, .freqRemove, .ctDeserialize, .compress, .decompress]

/-- The commands that write the bit buffer (R509 item 4). -/
def bbWriters : List Instr := [.bbClear, .bbAppendBit, .bbAppendMany, .encode, .ctDeserialize, .compress, .decompress]

/-- The commands that write the destination buffer, as R146 lists them. -/
def dstWriters : List Instr := [.compress, .decompress, .bbStore, .viPack, .ctSerialize, .decode]

/-- The commands that read the source buffer, as R146 lists them. -/
def srcReaders : List Instr :=
  [.compress, .decompress, .freqCount, .bbAppendMany, .viUnpack, .ctDeserialize, .encode]

/-- The end of the command `i`, accepted in `s`, with an error (R505, R509). -/
def endsWith (i : Instr) (s : State) (code : ErrCode) (info : Word) : Prop :=
  exec i s = .next (s.raise (writesStructs i) (writesDst i) ⟨code, info⟩)

/-! ## Trees, codes and the decoder -/

/-- The sum of the counts of a table's present entries, exact. -/
def totalCount (t : FreqTable) : Nat := ((FreqTable.entries t).map fun e => e.2.toNat).sum

/-- The working set of `Build()` when it makes slot `k`: the slots below `k` that are no node's child yet (R283). -/
def Tree.inSet (t : Tree) (k j : Nat) : Prop :=
  j < k ∧ ∀ i, t.nleaf ≤ i → i < k → (t.node i).left.toNat ≠ j ∧ (t.node i).right.toNat ≠ j

/-- The node reached from slot `i` by the branches of a bit sequence, 0 to the left and 1 to the right; none past a leaf
(R320). -/
def Tree.follow (t : Tree) : Nat → List Bool → Option Node
  | i, [] => some (t.node i)
  | i, d :: p =>
    match t.node i with
    | .leaf _ _ => none
    | .internal l r _ _ => Tree.follow t (if d then r.toNat else l.toNat) p

/-- The code of a byte in a tree, if it has one (R320, R321). -/
def codeOf (t : Tree) (b : Byte) : Option (List Bool) := (codes t).lookup b

/-- The concatenation of the codes of a byte string (R450). -/
def payloadBits (t : Tree) (bs : List Byte) : List Bool := bs.flatMap fun b => (codeOf t b).getD []

/-- The decoder of R342 run on a bit sequence from state `q` (`none`: `DEAD`): the state it ends in and the bytes it puts
out, first byte first. -/
def Fsm.run (f : Fsm) : Option Nat → List Bool → Option Nat × List Byte
  | q, [] => (q, [])
  | none, _ :: _ => (none, [])
  | some q, t :: ts =>
    match f.entry q t with
    | .emit v => ((Fsm.run f (some f.start) ts).1, v :: (Fsm.run f (some f.start) ts).2)
    | .goto k => Fsm.run f (some k.toNat) ts
    | .dead => Fsm.run f none ts

/-! ## The fields of a container (R401, R402) -/

/-- The container R410 writes for a table and a bit buffer, field by field: table length, entry width, entries in ascending
order, bit-count width, bit count, storage. -/
def containerOf (t : FreqTable) (b : BitBuffer) : List Byte :=
  let es := FreqTable.entries t
  let w := (es.map fun e => minWidth e.2).foldr max 1
  let sw := minWidth (word b.n)
  packBytes (word (1 + es.length * (1 + w))) 2 ++ [BitVec.ofNat 8 w] ++
    es.flatMap (fun e => e.1 :: packBytes e.2 w) ++ [BitVec.ofNat 8 sw] ++ packBytes (word b.n) sw ++ b.st

/-- `L`: the table length of a byte string read as a container. -/
def tableLength (c : List Byte) : Nat := leNat (c.take 2)

/-- `w`: the entry width, the first byte of the table section. -/
def countWidth (c : List Byte) : Nat := (c.getD 2 0).toNat

/-- `E`: the number of entries of the table section. -/
def entryCount (c : List Byte) : Nat := (tableLength c - 1) / (1 + countWidth c)

/-- The offset in the container of the byte value of entry `j`. -/
def entryOffset (c : List Byte) (j : Nat) : Nat := 2 + (1 + j * (1 + countWidth c))

/-- The byte value of entry `j`. -/
def entryByte (c : List Byte) (j : Nat) : Byte := c.getD (entryOffset c j) 0

/-- The count of entry `j`. -/
def entryValue (c : List Byte) (j : Nat) : Nat := leNat ((c.drop (entryOffset c j + 1)).take (countWidth c))

/-- The table section lies in the string, is not empty, has a legal width, and is a whole number of entries (R422, R423). -/
abbrev tableShaped (c : List Byte) : Prop :=
  2 + tableLength c ≤ c.length ∧ 0 < tableLength c ∧ countWidth c ≤ 8 ∧
    (tableLength c - 1) % (1 + countWidth c) = 0

/-- The first `k` entries give different byte values. -/
abbrev entriesDistinct (c : List Byte) (k : Nat) : Prop :=
  ∀ j < k, ∀ i < j, entryByte c i ≠ entryByte c j

/-- A table section the deserializer accepts (R422, R423). -/
abbrev tableReadable (c : List Byte) : Prop := 2 ≤ c.length ∧ tableShaped c ∧ entriesDistinct c (entryCount c)

/-- `s`: the width of the bit count. -/
def bitCountWidth (c : List Byte) : Nat := (c.getD (2 + tableLength c) 0).toNat

/-- The offset of the payload. -/
def payloadOffset (c : List Byte) : Nat := 3 + tableLength c + bitCountWidth c

/-- `nb`: the bit count of the payload. -/
def bitCount (c : List Byte) : Nat := leNat ((c.drop (3 + tableLength c)).take (bitCountWidth c))

/-- The two width-delimited parts before the payload lie in the string (R421, R423). -/
abbrev headerReadable (c : List Byte) : Prop :=
  tableReadable c ∧ 3 + tableLength c ≤ c.length ∧ bitCountWidth c ≤ 8 ∧ payloadOffset c ≤ c.length

/-- The byte string is a well-formed container of the table `ft` and the bit buffer `b`, whatever its widths, the order of
its entries and its pad bits (R400, R402, R423, R426, R427). -/
def holdsContainer (c : List Byte) (ft : FreqTable) (b : BitBuffer) : Prop :=
  headerReadable c ∧ payloadOffset c + (bitCount c + 7) / 8 = c.length ∧
    (∀ v n, FreqTable.entry ft v = some n ↔ ∃ j < entryCount c, entryByte c j = v ∧ word (entryValue c j) = n) ∧
    b.n = bitCount c ∧ ∀ i < bitCount c, b.getBit i = some ((c.getD (payloadOffset c + i / 8) 0).getLsbD (i % 8))

/-! ## Runs -/

/-- The state after `k` steps, none if a step on the way stops. -/
def State.afterSteps : Nat → State → Option State
  | 0, s => some s
  | k + 1, s =>
    match step s with
    | .next t => State.afterSteps k t
    | .fault _ => none
    | .refused _ => none

/-! ## Legal states -/

/-- `STATUS` as R36 says it can be: `DONE` and `ERR` never both, neither while busy, `ERRCODE` 0 unless `ERR`, and then a
code of R501. -/
def Status.legal (f : Status) : Prop :=
  (f.done && f.err) = false ∧ (f.busy = true → f.done = false ∧ f.err = false) ∧
    (f.err = false → f.errcode = 0) ∧ (f.err = true → 0x01 ≤ f.errcode.toNat ∧ f.errcode.toNat ≤ 0x11)

/-- A bit buffer as R70 and R71 say it is: within the capacity, `ceil8(BB.n)` storage bytes, pad bits 0. -/
def BitBuffer.legal (c : Config) (b : BitBuffer) : Prop :=
  b.n ≤ 8 * c.capBytes ∧ b.st.length = ceil8 b.n ∧ (b.n % 8 ≠ 0 → b.st.getD (b.n / 8) 0 >>> (b.n % 8) = 0)

/-- Host memory in canonical form, within DMA space (R101). -/
def Memory.legal (c : Config) (m : Memory) : Prop := m.wf = true ∧ ∀ p ∈ m, p.1 < Config.space c

/-- What the valid flags promise (R37, R78, R79): a valid tree is the tree of the valid frequency table, a valid `LUT` or
`FSM` is that of the valid tree. -/
def State.coherentMaps (s : State) : Prop :=
  (∀ t, s.tree = some t → ∃ ft, s.ft = some ft ∧ build ft = .ok (some t)) ∧
    (∀ l, s.lut = some l → ∃ t, s.tree = some t ∧ l = genLut t) ∧
    (∀ f, s.fsm = some f → ∃ t, s.tree = some t ∧ f = buildFsm t)

/-- A legal state: the register, buffer, memory and map invariants above, a cache in address order, and parameters in the
ranges of R13. -/
def State.legal (s : State) : Prop :=
  s.status.legal ∧ (∀ b, s.bb = some b → b.legal s.cfg) ∧ Memory.legal s.cfg s.mem ∧ s.coherentMaps ∧
    cacheWfFrom 0 s.cache = true ∧ s.cfg.wellFormed = true

end Sys2Proof.Machine
end

