-- ==== Sys2Proof/Certificates/Slice0/Obligations.lean ====
section
/-! DEFINITION. The statements for the provers, each from the numbered rules its docstring cites. A statement about a
command says for which states it completes and with which next state, so that what the state does not name is unchanged;
`doneStatus` is the status of a completion (R185), `endsWith` the end with an error, whose effect `ErrorLeavesOnlyDefinedState` spells
out (R505, R509). -/

open Sys2Proof Sys2Proof.Machine

/-! ## Command words -/

/-- R142: `Decode(w)` is the row of the opcode table whose number `w[7:0]` is when `w[63:8] = 0`, and illegal otherwise. -/
def Obligations.DecodeIsTheOpcodeTable : Prop :=
  ∀ w : Word,
    (∀ i, w >>> 8 = 0 → opcodeField w = opcode i → decode w = .ok i) ∧
    ((w >>> 8 ≠ 0 ∨ ∀ i, opcodeField w ≠ opcode i) → ∃ r, decode w = .error r)

/-- R140, R142, R146: a word is decoded to a command exactly when it is that command's encoding, the byte form decodes back
with what follows it, and no two commands share a word. -/
def Obligations.DecodeInvertsEncode : Prop :=
  ∀ (i j : Instr) (w : Word) (rest : List Byte),
    (decode w = .ok i ↔ w = encode i) ∧
    decodeBytes (encodeBytes i ++ rest) = .ok (i, rest) ∧
    (encode i = encode j → i = j)

/-- R146: the word of each row of the opcode table, as written there, decodes to its command. -/
def Obligations.TableWordsDecode : Prop :=
  ∀ p ∈ ([(0x00, .nop), (0x01, .compress), (0x02, .decompress), (0x10, .freqClear), (0x11, .freqCount),
      (0x12, .freqWrite), (0x13, .freqRemove), (0x14, .freqRead), (0x20, .treeBuild), (0x21, .nodeRead),
      (0x28, .encmapGen), (0x29, .lutRead), (0x2C, .decmapGen), (0x2D, .fsmRead), (0x30, .bbClear),
      (0x31, .bbAppendBit), (0x32, .bbAppendMany), (0x33, .bbGetBit), (0x34, .bbLength), (0x35, .bbStore),
      (0x40, .viMinWidth), (0x41, .viPack), (0x42, .viUnpack), (0x50, .ctSerialize), (0x51, .ctDeserialize),
      (0x58, .encode), (0x59, .decode)] : List (Word × Instr)),
    decode p.1 = .ok p.2 ∧ encode p.2 = p.1

/-- R141, R147: a word with a reserved bit set or a reserved opcode is accepted like any other and ends at once with
`ILLEGAL_CMD(word)`, touching no structure and no memory. -/
def Obligations.IllegalWordsEndInIllegalCmd : Prop :=
  ∀ (s : State) (w : Word), s.status.busy = false →
    (let b := (opcodeField w).toNat
     w >>> 8 ≠ 0 ∨ (0x03 ≤ b ∧ b ≤ 0x0F) ∨ (0x15 ≤ b ∧ b ≤ 0x1F) ∨ (0x22 ≤ b ∧ b ≤ 0x27) ∨ b = 0x2A ∨ b = 0x2B ∨
       b = 0x2E ∨ b = 0x2F ∨ (0x36 ≤ b ∧ b ≤ 0x3F) ∨ (0x43 ≤ b ∧ b ≤ 0x4F) ∨ (0x52 ≤ b ∧ b ≤ 0x57) ∨ 0x5A ≤ b) →
    hostAct (.regWrite 0x018 8 w) s = .next (s.accept w) ∧
    ∃ t, blockStep (s.accept w) = .next t ∧
      t.status = { busy := false, done := false, err := true, ovr := s.status.ovr, errcode := 0x01 } ∧
      t.res.errInfo = w ∧ t.res.outLen = 0 ∧ t.cmd = w ∧ t.ops = s.ops ∧
      t.ft = s.ft ∧ t.tree = s.tree ∧ t.lut = s.lut ∧ t.fsm = s.fsm ∧ t.bb = s.bb ∧ t.mem = s.mem

/-! ## Steps and the life of a command -/

/-- R182, R188: when the block moves, the step is the execution of the command that `CMD` holds, after the turn is taken
from the schedule; an illegal word ends there; and the word placed by `withFetchWord` is what the next step runs. -/
def Obligations.StepRunsTheDecodedCommand : Prop :=
  ∀ (s : State) (i : Instr),
    (nextAgent s = .block → decode s.cmd = .ok i → step s = exec i { s with turns := s.turns.tail }) ∧
    (nextAgent s = .block → (∃ r, decode s.cmd = .error r) →
      step s = .next (State.raise { s with turns := s.turns.tail } [] false ⟨.illegalCmd, s.cmd⟩)) ∧
    (nextAgent s = .block ↔ s.status.busy = true ∧ (s.turns.head? ≠ some .host ∨ s.host = [])) ∧
    step (s.withFetchWord 64 (encode i).toNat) = exec i (s.accept (encode i))

/-- R181: the acceptance of a word, whatever it is, while idle; a write to `CMD` while busy is dropped and sets `OVR`. -/
def Obligations.CommandWriteIsAccepted : Prop :=
  ∀ (s : State) (w : Word),
    (s.status.busy = false →
      hostAct (.regWrite 0x018 8 w) s = .next { s with
        cmd := w
        status := { busy := true, done := false, err := false, ovr := s.status.ovr, errcode := 0 }
        res := { s.res with errInfo := 0 } }) ∧
    (s.status.busy = true →
      hostAct (.regWrite 0x018 8 w) s = .next { s with status := { s.status with ovr := true } })

/-- R180: the machine leaves idle only by accepting a command, and leaves busy only by the block's completing it or by a
reset. -/
def Obligations.IdleIsLeftOnlyByAcceptance : Prop :=
  ∀ s t : State, step s = .next t →
    (s.status.busy = false → t.status.busy = true →
      ∃ w rest, s.host = .regWrite 0x018 8 w :: rest ∧ t = State.accept { s with host := rest } w) ∧
    (s.status.busy = true → t.status.busy = false →
      nextAgent s = .block ∨
        ∃ a rest, s.host = a :: rest ∧ (a = .platformReset ∨ ∃ v, a = .regWrite 0x010 8 v ∧ v.getLsbD 0 = true))

/-- R183, R185, R186, R511: every command ends, whatever the operands and memory, with either `DONE` or `ERR` and never
both, and with an error it shows a code of R501. -/
def Obligations.EveryCommandCompletes : Prop :=
  ∀ (i : Instr) (s : State), running s →
    ∃ t, exec i s = .next t ∧ t.status.busy = false ∧ t.status.ovr = s.status.ovr ∧
      ((t.status.done = true ∧ t.status.err = false ∧ t.status.errcode = s.status.errcode ∧
          t.res.errInfo = s.res.errInfo) ∨
        (t.status.done = false ∧ t.status.err = true ∧ 0x01 ≤ t.status.errcode.toNat ∧ t.status.errcode.toNat ≤ 0x11))

/-- R183, R581: a busy machine is idle after finitely many steps, unless an action of the host stops it: the block's own step
always ends the command. The schedule of turns, and so the bound and the block's move once the host has nothing left, is the
model's choice (assumption log 2); the stops are those of assumption logs 11 to 13. -/
def Obligations.BusyBlockReachesIdle : Prop :=
  ∀ s : State, s.status.busy = true →
    (nextAgent s = .block → ∃ t, step s = .next t ∧ t.status.busy = false) ∧
    ∃ k ≤ s.host.length + 1, s.afterSteps k = none ∨ ∃ t, s.afterSteps k = some t ∧ t.status.busy = false

/-- R500, R505, R509: the state after an error, for every command and every error: the code and the detail, `OUT_LEN` 0, free
results, free destination bytes for a command that writes the destination, the flags of what the command writes and of its
dependents cleared, and all else as it was. Every end of a command with `ERR` is such an end. The numbers are those of
R501. -/
def Obligations.ErrorLeavesOnlyDefinedState : Prop :=
  (∀ (i : Instr) (s : State) (e : CmdError),
    let t := s.raise (writesStructs i) (writesDst i) e
    t.status = { busy := false, done := s.status.done, err := true, ovr := s.status.ovr, errcode := e.code.number } ∧
    t.res.errInfo = e.info ∧ t.res.outLen = 0 ∧
    (∃ k, s.draws ≤ k ∧ t.res.result0 = Config.freeWord k ∧ t.res.result1 = Config.freeWord (k + 1) ∧ k + 1 < t.draws) ∧
    t.ft = (if i ∈ ftWriters then none else s.ft) ∧
    t.tree = (if i ∈ ftWriters ∨ i = .treeBuild then none else s.tree) ∧
    t.lut = (if i ∈ ftWriters ∨ i = .treeBuild ∨ i = .encmapGen then none else s.lut) ∧
    t.fsm = (if i ∈ ftWriters ∨ i = .treeBuild ∨ i = .decmapGen then none else s.fsm) ∧
    t.bb = (if i ∈ bbWriters then none else s.bb) ∧
    (∀ a, i ∉ dstWriters ∨ ¬ inDest s a → t.mem.read a = s.mem.read a) ∧
    (i ∈ dstWriters → s.mem.wf = true → ∀ a, inDest s a → a < 2 ^ s.cfg.addrW →
      t.mem.read a = Config.freeByte s.draws a) ∧
    t.cfg = s.cfg ∧ t.cmd = s.cmd ∧ t.irqEn = s.irqEn ∧ t.ops = s.ops ∧ t.host = s.host ∧ t.turns = s.turns ∧
    t.cache = s.cache ∧ t.hostData = s.hostData) ∧
  (∀ (s : State) (w : Word),
    let t := s.raise [] false ⟨.illegalCmd, w⟩
    t.ft = s.ft ∧ t.tree = s.tree ∧ t.lut = s.lut ∧ t.fsm = s.fsm ∧ t.bb = s.bb ∧ t.mem = s.mem ∧
    t.res = { outLen := 0, result0 := Config.freeWord s.draws, result1 := Config.freeWord (s.draws + 1), errInfo := w } ∧
    t.ops = s.ops ∧ t.cmd = s.cmd ∧ t.irqEn = s.irqEn ∧ t.cfg = s.cfg) ∧
  (∀ (i : Instr) (s t : State), running s → exec i s = .next t → t.status.err = true →
    ∃ e, t = s.raise (writesStructs i) (writesDst i) e) ∧
  [ErrCode.illegalCmd, .argRange, .notReady, .memFault, .overlap, .dstOverflow, .bbOverflow, .invalidBit, .packWidth,
    .unpackWidth, .ctTruncated, .ctTrailing, .ctBadWidth, .ctBadTable, .countOverflow, .noCode,
    .decodeIncomplete].map ErrCode.number = (List.range' 1 17).map (BitVec.ofNat 8)

/-! ## Frames -/

/-- R42, R43, R44, R45, R187: no command, however it ends, writes an operand register, `CMD`, `IRQ_EN`, a parameter, `OVR` or
anything of the host's; one that completes without error keeps `ERR_INFO` and every result register its rule does not
name. -/
def Obligations.RegistersNotNamedAreKept : Prop :=
  ∀ (i : Instr) (s t : State), exec i s = .next t →
    t.ops = s.ops ∧ t.cmd = s.cmd ∧ t.irqEn = s.irqEn ∧ t.cfg = s.cfg ∧ t.status.ovr = s.status.ovr ∧
    t.host = s.host ∧ t.turns = s.turns ∧ t.cache = s.cache ∧ t.hostData = s.hostData ∧
    (running s → t.status.err = false →
      t.res.errInfo = s.res.errInfo ∧
      (i ∉ dstWriters → t.res.outLen = s.res.outLen) ∧
      (i ∈ [.nop, .freqClear, .freqWrite, .freqRemove, .bbClear, .bbStore, .viPack, .ctSerialize, .decode] →
        t.res.result0 = s.res.result0) ∧
      (i ∈ [.nop, .freqClear, .freqCount, .freqWrite, .freqRemove, .bbClear, .bbAppendBit, .bbAppendMany, .bbStore,
          .viMinWidth, .viPack, .viUnpack, .ctSerialize, .encode, .decode] →
        t.res.result1 = s.res.result1))

/-- R17, R79: a structure changes only under the commands that write it or what it is derived from, and those that write `FT`
or the tree leave no map of the old one. -/
def Obligations.StructuresChangeOnlyWhereWritten : Prop :=
  ∀ (i : Instr) (s t : State), exec i s = .next t →
    (i ∉ ftWriters → t.ft = s.ft) ∧
    (i ∉ ftWriters → i ≠ .treeBuild → t.tree = s.tree) ∧
    (i ∉ ftWriters → i ≠ .treeBuild → i ≠ .encmapGen → t.lut = s.lut) ∧
    (i ∉ ftWriters → i ≠ .treeBuild → i ≠ .decmapGen → t.fsm = s.fsm) ∧
    (i ∉ bbWriters → t.bb = s.bb) ∧
    (i ∈ [.freqClear, .freqCount, .freqWrite, .freqRemove, .ctDeserialize] → t.tree = none ∧ t.nleaf = 0) ∧
    (i ∈ [.freqClear, .freqCount, .freqWrite, .freqRemove, .ctDeserialize, .treeBuild] → t.lut = none ∧ t.fsm = none) ∧
    (i = .compress → t.fsm = none) ∧
    (i = .decompress → s.ops.srcLen ≠ 0 → t.lut = none)

/-- R40, R108: a command writes memory only within the destination buffer, and only if it is one that writes the
destination; without error the bytes from `OUT_LEN` on are unchanged. -/
def Obligations.OnlyTheDestinationIsWritten : Prop :=
  ∀ (i : Instr) (s t : State), exec i s = .next t →
    (i ∉ dstWriters → t.mem = s.mem) ∧
    (∀ a, ¬ inDest s a → t.mem.read a = s.mem.read a) ∧
    (running s → t.status.err = false → i ∈ dstWriters →
      t.res.outLen.toNat ≤ s.ops.dstCap.toNat ∧
      ∀ a, s.ops.dstAddr.toNat + t.res.outLen.toNat ≤ a → t.mem.read a = s.mem.read a)

/-! ## Checks before the body -/

/-- R78: a command that reads a structure whose valid flag is 0 ends with `NOT_READY` and the number of the first such
structure, once the checks before it have passed. -/
def Obligations.MissingStructureIsNotReady : Prop :=
  (∀ (i : Instr) (s : State) (p : Struct), (needs i).find? (fun q => !s.valid q) = some p →
    (i ∈ [.freqWrite, .freqRemove, .freqRead, .lutRead] → s.ops.arg0.toNat ≤ 255) →
    (i = .lutRead → s.ops.arg1.toNat ≤ 3) →
    (i ∈ srcReaders → regionOk s.cfg s.ops.srcAddr s.ops.srcLen = true) →
    (i ∈ dstWriters → regionOk s.cfg s.ops.dstAddr s.ops.dstCap = true) →
    endsWith i s .notReady p.number) ∧
  [Struct.ft, .tree, .lut, .fsm, .bb].map Struct.number = [0, 1, 2, 3, 4]

/-- R102, R109: the region of the source, then that of the destination, must end within DMA space, the sums exact; then the
two buffers of `COMPRESS` and `DECOMPRESS` must share no byte. -/
def Obligations.BuffersAreCheckedFirst : Prop :=
  ∀ (i : Instr) (s : State),
    (i ∈ srcReaders → s.ops.srcLen ≠ 0 → 2 ^ s.cfg.addrW < s.ops.srcAddr.toNat + s.ops.srcLen.toNat →
      endsWith i s .memFault s.ops.srcAddr) ∧
    (i ∈ dstWriters →
      (i ∈ srcReaders → s.ops.srcLen = 0 ∨ s.ops.srcAddr.toNat + s.ops.srcLen.toNat ≤ 2 ^ s.cfg.addrW) →
      s.ops.dstCap ≠ 0 → 2 ^ s.cfg.addrW < s.ops.dstAddr.toNat + s.ops.dstCap.toNat →
      endsWith i s .memFault s.ops.dstAddr) ∧
    (i = .compress ∨ i = .decompress →
      s.ops.srcAddr.toNat + s.ops.srcLen.toNat ≤ 2 ^ s.cfg.addrW →
      s.ops.dstAddr.toNat + s.ops.dstCap.toNat ≤ 2 ^ s.cfg.addrW →
      (∃ a, s.ops.srcAddr.toNat ≤ a ∧ a < s.ops.srcAddr.toNat + s.ops.srcLen.toNat ∧
        s.ops.dstAddr.toNat ≤ a ∧ a < s.ops.dstAddr.toNat + s.ops.dstCap.toNat) →
      endsWith i s .overlap s.ops.dstAddr)

/-! ## Commands that need nothing -/

/-- R190, R215, R250: `NOP`, `BB_CLEAR` and `FREQ_CLEAR` complete in every state and write what their rules name and nothing
else. -/
def Obligations.UnconditionalCommandsComplete : Prop :=
  ∀ s : State,
    exec .nop s = .next { s with status := doneStatus s } ∧
    exec .bbClear s = .next { s with bb := some { n := 0, st := [] }, status := doneStatus s } ∧
    exec .freqClear s = .next { s with
      ft := some (Vector.replicate 256 none), tree := none, lut := none, fsm := none, status := doneStatus s }

/-! ## Bit buffer -/

/-- R211, R218: `BB_APPEND_BIT` appends the bit, changing none that is there and keeping the pad bits 0, or ends with
`NOT_READY(4)`, `INVALID_BIT(ARG0)` or `BB_OVERFLOW`. -/
def Obligations.AppendBitExtendsTheBits : Prop :=
  ∀ s : State,
    (s.bb = none → endsWith .bbAppendBit s .notReady 4) ∧
    ∀ b, s.bb = some b → b.legal s.cfg →
      (s.ops.arg0.toNat ≤ 1 → b.n < 8 * s.cfg.capBytes →
        ∃ b', exec .bbAppendBit s = .next { s with
            bb := some b', res := { s.res with result0 := word b'.n }, status := doneStatus s } ∧
          b'.bits = b.bits ++ [decide (s.ops.arg0 = 1)] ∧ b'.n = b.n + 1 ∧ b'.legal s.cfg) ∧
      (1 < s.ops.arg0.toNat → endsWith .bbAppendBit s .invalidBit s.ops.arg0) ∧
      (s.ops.arg0.toNat ≤ 1 → 8 * s.cfg.capBytes ≤ b.n →
        endsWith .bbAppendBit s .bbOverflow (word (8 * s.cfg.capBytes)))

/-- R221: `BB_APPEND_MANY` appends the source bytes as bits, or ends at the first byte that cannot be read, is not a bit, or
does not fit. -/
def Obligations.AppendManyExtendsTheBits : Prop :=
  ∀ s : State,
    (regionOk s.cfg s.ops.srcAddr s.ops.srcLen = false → endsWith .bbAppendMany s .memFault s.ops.srcAddr) ∧
    (regionOk s.cfg s.ops.srcAddr s.ops.srcLen = true → s.bb = none → endsWith .bbAppendMany s .notReady 4) ∧
    ∀ b, s.bb = some b → b.legal s.cfg → regionOk s.cfg s.ops.srcAddr s.ops.srcLen = true →
    (sourceReadable s → (∀ v ∈ sourceBytes s, v.toNat ≤ 1) → b.n + s.ops.srcLen.toNat ≤ 8 * s.cfg.capBytes →
      ∃ b', exec .bbAppendMany s = .next { s with
          bb := some b', res := { s.res with result0 := word b'.n }, status := doneStatus s } ∧
        b'.bits = b.bits ++ (sourceBytes s).map (fun v => decide (v = 1)) ∧
        b'.n = b.n + s.ops.srcLen.toNat ∧ b'.legal s.cfg) ∧
    (∀ k < s.ops.srcLen.toNat, sourceReadableTo s k → (∀ j < k, (sourceByte s j).toNat ≤ 1) →
      b.n + k ≤ 8 * s.cfg.capBytes →
      (Config.memOK s.cfg (s.ops.srcAddr.toNat + k) = false →
        endsWith .bbAppendMany s .memFault (word (s.ops.srcAddr.toNat + k))) ∧
      (Config.memOK s.cfg (s.ops.srcAddr.toNat + k) = true → 1 < (sourceByte s k).toNat →
        endsWith .bbAppendMany s .invalidBit (word k)) ∧
      (Config.memOK s.cfg (s.ops.srcAddr.toNat + k) = true → (sourceByte s k).toNat ≤ 1 →
        b.n + k = 8 * s.cfg.capBytes → endsWith .bbAppendMany s .bbOverflow (word (8 * s.cfg.capBytes))))

/-- R212, R223, R224: `BB_GET_BIT` reads the bit at its index, or 0 and 0 past the bit count; `BB_LENGTH` gives the bit count
and the storage length; both end with `NOT_READY(4)` without a buffer. -/
def Obligations.BitBufferReads : Prop :=
  ∀ s : State,
    (s.bb = none → endsWith .bbGetBit s .notReady 4 ∧ endsWith .bbLength s .notReady 4) ∧
    ∀ b, s.bb = some b →
      (s.ops.arg0.toNat < b.n → exec .bbGetBit s = .next { s with
        res := { s.res with
          result0 := if (b.st.getD (s.ops.arg0.toNat / 8) 0).getLsbD (s.ops.arg0.toNat % 8) then 1 else 0
          result1 := 1 }
        status := doneStatus s }) ∧
      (b.n ≤ s.ops.arg0.toNat → exec .bbGetBit s = .next { s with
        res := { s.res with result0 := 0, result1 := 0 }, status := doneStatus s }) ∧
      exec .bbLength s = .next { s with
        res := { s.res with result0 := word b.n, result1 := word ((b.n + 7) / 8) }, status := doneStatus s }

/-- R225: `BB_STORE` writes the storage bytes, and `OUT_LEN`, or ends with `NOT_READY(4)`, `MEM_FAULT` or
`DST_OVERFLOW(DST_CAP)`. -/
def Obligations.BitBufferIsStored : Prop :=
  ∀ s : State,
    (regionOk s.cfg s.ops.dstAddr s.ops.dstCap = false → endsWith .bbStore s .memFault s.ops.dstAddr) ∧
    (regionOk s.cfg s.ops.dstAddr s.ops.dstCap = true → s.bb = none → endsWith .bbStore s .notReady 4) ∧
    ∀ b, s.bb = some b → b.legal s.cfg → s.mem.wf = true → regionOk s.cfg s.ops.dstAddr s.ops.dstCap = true →
      (destWritable s ((b.n + 7) / 8) → ∃ t, exec .bbStore s = .next t ∧ WroteDest s t b.st ∧
        t = { s with
          mem := t.mem, res := { s.res with outLen := word ((b.n + 7) / 8) }, status := doneStatus s }) ∧
      (s.ops.dstCap.toNat < (b.n + 7) / 8 → destAnswersTo s s.ops.dstCap.toNat →
        endsWith .bbStore s .dstOverflow s.ops.dstCap) ∧
      (∀ k < (b.n + 7) / 8, k < s.ops.dstCap.toNat → destAnswersTo s k →
        Config.memOK s.cfg (s.ops.dstAddr.toNat + k) = false →
        endsWith .bbStore s .memFault (word (s.ops.dstAddr.toNat + k)))

/-! ## Frequency counter -/

/-- R252: `FREQ_COUNT` leaves the table whose entry for each byte value is the number of its occurrences in the source, absent
where there is none, and the number of distinct values; or it ends at the first byte that cannot be read. -/
def Obligations.FreqCountCountsTheSource : Prop :=
  ∀ s : State,
    (regionOk s.cfg s.ops.srcAddr s.ops.srcLen = false → endsWith .freqCount s .memFault s.ops.srcAddr) ∧
    (sourceReadable s → ∃ ft, exec .freqCount s = .next { s with
        ft := some ft, tree := none, lut := none, fsm := none
        res := { s.res with result0 := word (sourceBytes s).dedup.length }, status := doneStatus s } ∧
      ∀ b, FreqTable.entry ft b =
        if b ∈ sourceBytes s then some (word ((sourceBytes s).count b)) else none) ∧
    (regionOk s.cfg s.ops.srcAddr s.ops.srcLen = true → ∀ k < s.ops.srcLen.toNat, sourceReadableTo s k →
      Config.memOK s.cfg (s.ops.srcAddr.toNat + k) = false →
      endsWith .freqCount s .memFault (word (s.ops.srcAddr.toNat + k)))

/-- R256, R258, R260: `FREQ_WRITE` and `FREQ_REMOVE` change the one entry and clear the dependent flags; `FREQ_READ` reads it,
an absent one as 0 and 0. Each ends with `ARG_RANGE(ARG0)` above 255, then with `NOT_READY(0)` without a table. -/
def Obligations.FrequencyEntriesAreSetAndRead : Prop :=
  ∀ s : State,
    (255 < s.ops.arg0.toNat → endsWith .freqWrite s .argRange s.ops.arg0 ∧
      endsWith .freqRemove s .argRange s.ops.arg0 ∧ endsWith .freqRead s .argRange s.ops.arg0) ∧
    (s.ops.arg0.toNat ≤ 255 →
      (s.ft = none → endsWith .freqWrite s .notReady 0 ∧ endsWith .freqRemove s .notReady 0 ∧
        endsWith .freqRead s .notReady 0) ∧
      ∀ ft, s.ft = some ft →
        (∃ u, exec .freqWrite s = .next { s with
            ft := some u, tree := none, lut := none, fsm := none, status := doneStatus s } ∧
          ∀ b : Byte, FreqTable.entry u b =
            if b.toNat = s.ops.arg0.toNat then some s.ops.arg1 else FreqTable.entry ft b) ∧
        (∃ u, exec .freqRemove s = .next { s with
            ft := some u, tree := none, lut := none, fsm := none, status := doneStatus s } ∧
          ∀ b : Byte, FreqTable.entry u b =
            if b.toNat = s.ops.arg0.toNat then none else FreqTable.entry ft b) ∧
        (∀ (b : Byte) (c : Word), b.toNat = s.ops.arg0.toNat → FreqTable.entry ft b = some c →
          exec .freqRead s = .next { s with
            res := { s.res with result0 := c, result1 := 1 }, status := doneStatus s }) ∧
        (∀ b : Byte, b.toNat = s.ops.arg0.toNat → FreqTable.entry ft b = none →
          exec .freqRead s = .next { s with
            res := { s.res with result0 := 0, result1 := 0 }, status := doneStatus s }))

/-! ## Tree builder -/

/-- R288, R290: `TREE_BUILD` leaves no tree for the empty table, the tree of `Build()` with its leaf count and root slot when
the counts sum below 2^64, and otherwise ends with `COUNT_OVERFLOW` and a slot of an internal node. -/
def Obligations.TreeBuildAnswersTheTree : Prop :=
  ∀ s : State,
    (s.ft = none → endsWith .treeBuild s .notReady 0) ∧
    ∀ ft, s.ft = some ft →
      ((∀ b, FreqTable.entry ft b = none) → exec .treeBuild s = .next { s with
        tree := none, lut := none, fsm := none
        res := { s.res with result0 := 0, result1 := 0 }, status := doneStatus s }) ∧
      ((∃ b, FreqTable.entry ft b ≠ none) → totalCount ft < 2 ^ 64 → ∃ t, build ft = .ok (some t) ∧
        exec .treeBuild s = .next { s with
          tree := some t, lut := none, fsm := none
          res := { s.res with
            result0 := word (FreqTable.size ft), result1 := word (2 * FreqTable.size ft - 2) }
          status := doneStatus s }) ∧
      (2 ^ 64 ≤ totalCount ft → ∃ slot, FreqTable.size ft ≤ slot ∧ slot ≤ 2 * FreqTable.size ft - 2 ∧
        endsWith .treeBuild s .countOverflow (word slot))

/-- R55, R56, R281, R285: the arena of a built tree: one leaf for each present entry, in ascending order of byte value, then
the internal nodes, each over two lower slots with the sum of their counts and the smaller of their bytes; the last slot is
the root, and every other slot is the child of exactly one node. -/
def Obligations.ArenaOfABuiltTree : Prop :=
  ∀ (ft : FreqTable) (t : Tree), build ft = .ok (some t) →
    t.nleaf = FreqTable.size ft ∧ 1 ≤ t.nleaf ∧ t.nleaf ≤ 256 ∧
    t.nodes.length = 2 * t.nleaf - 1 ∧ t.root = 2 * t.nleaf - 2 ∧
    (∀ j < t.nleaf, ∃ b c, t.node j = .leaf b c) ∧
    (∀ b c, (∃ j < t.nleaf, t.node j = .leaf b c) ↔ FreqTable.entry ft b = some c) ∧
    (∀ j k, j < k → k < t.nleaf → (t.node j).minByte.toNat < (t.node k).minByte.toNat) ∧
    (∀ k, t.nleaf ≤ k → k < 2 * t.nleaf - 1 → ∃ l r c m, t.node k = .internal l r c m ∧
      l.toNat < k ∧ r.toNat < k ∧ l ≠ r ∧
      c.toNat = (t.node l.toNat).count.toNat + (t.node r.toNat).count.toNat ∧
      m.toNat = min (t.node l.toNat).minByte.toNat (t.node r.toNat).minByte.toNat) ∧
    (∀ j < 2 * t.nleaf - 2, ∃ k, (t.nleaf ≤ k ∧ k < 2 * t.nleaf - 1 ∧
        ((t.node k).left.toNat = j ∨ (t.node k).right.toNat = j)) ∧
      ∀ k', t.nleaf ≤ k' → k' < 2 * t.nleaf - 1 →
        ((t.node k').left.toNat = j ∨ (t.node k').right.toNat = j) → k' = k)

/-- R282, R283, R284, R286: each internal node is made over the two least nodes of the working set, the least on the left; the
order is by count and then by minimum byte, and the minimum bytes in the working set are pairwise distinct. -/
def Obligations.LeastTwoAreMerged : Prop :=
  (∀ p q : Node, Node.before p q = true ↔
    p.count.toNat < q.count.toNat ∨ (p.count = q.count ∧ p.minByte.toNat < q.minByte.toNat)) ∧
  ∀ (ft : FreqTable) (t : Tree), build ft = .ok (some t) →
    ∀ k, t.nleaf ≤ k → k < 2 * t.nleaf - 1 →
      (∀ i j, t.inSet k i → t.inSet k j → i ≠ j → (t.node i).minByte ≠ (t.node j).minByte) ∧
      t.inSet k (t.node k).left.toNat ∧ t.inSet k (t.node k).right.toNat ∧
      Node.before (t.node (t.node k).left.toNat) (t.node (t.node k).right.toNat) = true ∧
      ∀ j, t.inSet k j → j ≠ (t.node k).left.toNat → j ≠ (t.node k).right.toNat →
        Node.before (t.node (t.node k).right.toNat) (t.node j) = true

/-- R300: `NODE_READ` reads a slot in use: its count, and kind, minimum byte and children in their fields, the children of a
leaf as 0; else it ends with `NOT_READY(1)` or `ARG_RANGE(ARG0)`. -/
def Obligations.NodesAreReadBack : Prop :=
  ∀ s : State,
    (s.tree = none → endsWith .nodeRead s .notReady 1) ∧
    ∀ t, s.tree = some t →
      (2 * t.nleaf - 2 < s.ops.arg0.toNat → endsWith .nodeRead s .argRange s.ops.arg0) ∧
      (s.ops.arg0.toNat ≤ 2 * t.nleaf - 2 →
        (∀ b c, t.node s.ops.arg0.toNat = .leaf b c → exec .nodeRead s = .next { s with
          res := { s.res with result0 := c, result1 := BitVec.ofNat 64 (b.toNat * 2 ^ 8) }
          status := doneStatus s }) ∧
        (∀ l r c m, t.node s.ops.arg0.toNat = .internal l r c m → exec .nodeRead s = .next { s with
          res := { s.res with
            result0 := c
            result1 := BitVec.ofNat 64 (1 + m.toNat * 2 ^ 8 + l.toNat * 2 ^ 16 + r.toNat * 2 ^ 32) }
          status := doneStatus s }))

/-! ## Codes and maps -/

/-- R320, R321: the code of a byte is the branch sequence from the root to its leaf, 0 left and 1 right, and `[0]` for the one
byte of a single leaf. -/
def Obligations.CodesAreRootToLeafPaths : Prop :=
  ∀ (ft : FreqTable) (t : Tree), build ft = .ok (some t) → ∀ (b : Byte) (p : List Bool),
    (t.nleaf = 1 → (codeOf t b = some p ↔ b = (t.node 0).minByte ∧ p = [false])) ∧
    (2 ≤ t.nleaf → (codeOf t b = some p ↔ ∃ c, t.follow (2 * t.nleaf - 2) p = some (.leaf b c)))

/-- R322: exactly the present bytes have a code, one each, of 1 to `max(1, n - 1)` bits; for two or more leaves no code is a
prefix of another, and every bit sequence is a prefix of a code or has a code as a prefix. -/
def Obligations.CodesAreACompletePrefixCode : Prop :=
  ∀ (ft : FreqTable) (t : Tree), build ft = .ok (some t) →
    ((codes t).map Prod.fst).Nodup ∧
    (∀ b, (codeOf t b).isSome = (FreqTable.entry ft b).isSome) ∧
    (∀ b p, codeOf t b = some p → 1 ≤ p.length ∧ p.length ≤ max 1 (t.nleaf - 1) ∧ p.length ≤ 255) ∧
    (∀ b b' p p', codeOf t b = some p → codeOf t b' = some p' → b ≠ b' → ¬ p <+: p') ∧
    (2 ≤ t.nleaf → ∀ ts : List Bool, ∃ b p, codeOf t b = some p ∧ (ts <+: p ∨ p <+: ts))

/-- R60, R325: `ENCMAP_GEN` leaves the table that holds, for each byte of the built tree, its code and zeros after it, and no
code for every other byte, with the number of codes and the length of the longest. -/
def Obligations.EncodeMapHoldsTheCodes : Prop :=
  ∀ s : State,
    (s.tree = none → endsWith .encmapGen s .notReady 1) ∧
    ∀ t, s.tree = some t → ∃ l m, exec .encmapGen s = .next { s with
        lut := some l, res := { s.res with result0 := word t.nleaf, result1 := word m }, status := doneStatus s } ∧
      (∀ b, (Lut.entry l b).len.toNat ≤ m) ∧ (∃ b, (Lut.entry l b).len.toNat = m) ∧
      ∀ ft, build ft = .ok (some t) → ∀ b,
        (Lut.entry l b).len.toNat = ((codeOf t b).getD []).length ∧
        (Lut.entry l b).bits = (codeOf t b).getD [] ∧
        ∀ j, (Lut.entry l b).len.toNat ≤ j → (Lut.entry l b).code.getLsbD j = false

/-- R330: `LUT_READ` reads a code's length and 64 of its bits, the first at bit 0 and bit 255 as 0; else it ends with
`ARG_RANGE(ARG0)`, `ARG_RANGE(ARG1)` or `NOT_READY(2)`, in this order. -/
def Obligations.CodesAreReadBack : Prop :=
  ∀ s : State,
    (255 < s.ops.arg0.toNat → endsWith .lutRead s .argRange s.ops.arg0) ∧
    (s.ops.arg0.toNat ≤ 255 → 3 < s.ops.arg1.toNat → endsWith .lutRead s .argRange s.ops.arg1) ∧
    (s.ops.arg0.toNat ≤ 255 → s.ops.arg1.toNat ≤ 3 →
      (s.lut = none → endsWith .lutRead s .notReady 2) ∧
      ∀ l, s.lut = some l → ∃ r : Word, exec .lutRead s = .next { s with
          res := { s.res with
            result0 := word (Lut.entry l (BitVec.ofNat 8 s.ops.arg0.toNat)).len.toNat, result1 := r }
          status := doneStatus s } ∧
        ∀ j < 64, r.getLsbD j = (decide (64 * s.ops.arg1.toNat + j < 255) &&
          (Lut.entry l (BitVec.ofNat 8 s.ops.arg0.toNat)).code.getLsbD (64 * s.ops.arg1.toNat + j)))

/-- R341, R345: `DECMAP_GEN` leaves the machine of the built tree, one state for each internal node, whose branch to a leaf
outputs its byte and to an internal node goes to its state; the machine of a single leaf has one state that outputs the byte
on 0 and is dead on 1. -/
def Obligations.DecodeMapIsTheTree : Prop :=
  ∀ s : State,
    (s.tree = none → endsWith .decmapGen s .notReady 1) ∧
    ∀ t, s.tree = some t → ∃ f, exec .decmapGen s = .next { s with
        fsm := some f
        res := { s.res with result0 := word f.states.length, result1 := word f.start }, status := doneStatus s } ∧
      (t.nleaf = 1 → f = { states := [(.emit (t.node 0).minByte, .dead)], start := 0 }) ∧
      ∀ ft, build ft = .ok (some t) → 2 ≤ t.nleaf →
        f.states.length = t.nleaf - 1 ∧ f.start = t.nleaf - 2 ∧
        ∀ k < t.nleaf - 1, ∀ d : Bool,
          let c := if d then (t.node (t.nleaf + k)).right.toNat else (t.node (t.nleaf + k)).left.toNat
          (∀ b n, t.node c = .leaf b n → f.entry k d = .emit b) ∧
          (∀ l r n m, t.node c = .internal l r n m →
            ∃ g : Byte, f.entry k d = .goto g ∧ g.toNat + t.nleaf = c ∧ g.toNat + 3 ≤ t.nleaf)

/-- R342: run from its start on the codes of a byte string followed by bits that complete no code, the machine outputs exactly
that string; it is in its start state exactly when no bits follow, is never dead for two or more leaves, and is dead exactly
when bits follow for one. -/
def Obligations.DecoderComputesTheDecodeMap : Prop :=
  ∀ (ft : FreqTable) (t : Tree), build ft = .ok (some t) → ∀ (out : List Byte) (rest : List Bool),
    (∀ v ∈ out, (codeOf t v).isSome) → (∀ b p, codeOf t b = some p → ¬ p <+: rest) →
    let f := buildFsm t
    let r := Fsm.run f (some f.start) (payloadBits t out ++ rest)
    r.2 = out ∧ (r.1 = some f.start ↔ rest = []) ∧ (2 ≤ t.nleaf → r.1 ≠ none) ∧
    (t.nleaf = 1 → (r.1 = none ↔ rest ≠ []))

/-- R66, R350: `FSM_READ` reads the two entries of a state as `kind | (value << 8)`, or ends with `NOT_READY(3)` or
`ARG_RANGE(ARG0)`. -/
def Obligations.DecoderStatesAreReadBack : Prop :=
  ∀ s : State,
    (s.fsm = none → endsWith .fsmRead s .notReady 3) ∧
    ∀ f, s.fsm = some f →
      (f.states.length - 1 < s.ops.arg0.toNat → endsWith .fsmRead s .argRange s.ops.arg0) ∧
      ∀ e0 e1, f.states[s.ops.arg0.toNat]? = some (e0, e1) →
        let entryWord : FsmEntry → Nat := fun e =>
          match e with
          | .goto k => 0 + k.toNat * 2 ^ 8
          | .emit v => 1 + v.toNat * 2 ^ 8
          | .dead => 2
        exec .fsmRead s = .next { s with
          res := { s.res with
            result0 := BitVec.ofNat 64 (entryWord e0), result1 := BitVec.ofNat 64 (entryWord e1) }
          status := doneStatus s }

/-! ## Integer codec -/

/-- R371, R380: `VI_MIN_WIDTH` gives the fewest bytes, 1 to 8, that hold the value, and 1 for the value 0. -/
def Obligations.MinWidthIsLeast : Prop :=
  ∀ s : State, ∃ k, exec .viMinWidth s = .next { s with
      res := { s.res with result0 := word k }, status := doneStatus s } ∧
    1 ≤ k ∧ k ≤ 8 ∧ s.ops.arg0.toNat < 2 ^ (8 * k) ∧
    (s.ops.arg0.toNat ≤ 255 → k = 1) ∧ (2 ≤ k → 2 ^ (8 * (k - 1)) ≤ s.ops.arg0.toNat)

/-- R372, R383: `VI_PACK` writes the value little-endian in exactly the given width, or ends with `PACK_WIDTH(ARG1)` before
any write, `MEM_FAULT` or `DST_OVERFLOW`. -/
def Obligations.PackWritesTheValue : Prop :=
  ∀ s : State, s.mem.wf = true →
    (regionOk s.cfg s.ops.dstAddr s.ops.dstCap = false → endsWith .viPack s .memFault s.ops.dstAddr) ∧
    (regionOk s.cfg s.ops.dstAddr s.ops.dstCap = true →
    (s.ops.arg1.toNat = 0 ∨ 8 < s.ops.arg1.toNat ∨ 2 ^ (8 * s.ops.arg1.toNat) ≤ s.ops.arg0.toNat →
      endsWith .viPack s .packWidth s.ops.arg1) ∧
    (1 ≤ s.ops.arg1.toNat → s.ops.arg1.toNat ≤ 8 → s.ops.arg0.toNat < 2 ^ (8 * s.ops.arg1.toNat) →
      (destWritable s s.ops.arg1.toNat → ∃ t bs, exec .viPack s = .next t ∧ WroteDest s t bs ∧
        bs.length = s.ops.arg1.toNat ∧ leNat bs = s.ops.arg0.toNat ∧
        t = { s with mem := t.mem, res := { s.res with outLen := s.ops.arg1 }, status := doneStatus s }) ∧
      (s.ops.dstCap.toNat < s.ops.arg1.toNat → destAnswersTo s s.ops.dstCap.toNat →
        endsWith .viPack s .dstOverflow s.ops.dstCap) ∧
      (∀ k < s.ops.arg1.toNat, k < s.ops.dstCap.toNat → destAnswersTo s k →
        Config.memOK s.cfg (s.ops.dstAddr.toNat + k) = false →
        endsWith .viPack s .memFault (word (s.ops.dstAddr.toNat + k)))))

/-- R373, R386: `VI_UNPACK` reads the source, 0 to 8 bytes, as a little-endian number, or ends with `UNPACK_WIDTH(SRC_LEN)`
before any read, or at the first byte that cannot be read. -/
def Obligations.UnpackReadsTheValue : Prop :=
  ∀ s : State,
    (regionOk s.cfg s.ops.srcAddr s.ops.srcLen = false → endsWith .viUnpack s .memFault s.ops.srcAddr) ∧
    (regionOk s.cfg s.ops.srcAddr s.ops.srcLen = true →
    (8 < s.ops.srcLen.toNat → endsWith .viUnpack s .unpackWidth s.ops.srcLen) ∧
    (s.ops.srcLen.toNat ≤ 8 →
      (sourceReadableTo s s.ops.srcLen.toNat →
        leNat (sourceBytes s) < 2 ^ 64 ∧
        exec .viUnpack s = .next { s with
          res := { s.res with result0 := word (leNat (sourceBytes s)) }, status := doneStatus s }) ∧
      (∀ k < s.ops.srcLen.toNat, sourceReadableTo s k → Config.memOK s.cfg (s.ops.srcAddr.toNat + k) = false →
        endsWith .viUnpack s .memFault (word (s.ops.srcAddr.toNat + k)))))

/-- R372, R373: a value packed in a legal width unpacks to itself, whatever zero bytes follow at the high end. -/
def Obligations.UnpackInvertsPack : Prop :=
  ∀ (v : Word) (w z : Nat), 1 ≤ w → w + z ≤ 8 → v.toNat < 2 ^ (8 * w) →
    ∃ bs, pack v w = .ok bs ∧ bs.length = w ∧ unpack (bs ++ List.replicate z 0) = .ok v

/-! ## Container -/

/-- R401 to R405, R410, R415: `CT_SERIALIZE` writes the container of the table and the bit buffer, field by field, or ends with
`NOT_READY(0)`, then `NOT_READY(4)`, then `MEM_FAULT` or `DST_OVERFLOW`. -/
def Obligations.ContainerIsWritten : Prop :=
  ∀ s : State, s.mem.wf = true →
    (regionOk s.cfg s.ops.dstAddr s.ops.dstCap = false → endsWith .ctSerialize s .memFault s.ops.dstAddr) ∧
    (regionOk s.cfg s.ops.dstAddr s.ops.dstCap = true → s.ft = none → endsWith .ctSerialize s .notReady 0) ∧
    ∀ ft, s.ft = some ft → regionOk s.cfg s.ops.dstAddr s.ops.dstCap = true →
      (s.bb = none → endsWith .ctSerialize s .notReady 4) ∧
      ∀ b, s.bb = some b → b.legal s.cfg →
        let c := containerOf ft b
        (destWritable s c.length → ∃ t, exec .ctSerialize s = .next t ∧ WroteDest s t c ∧
          t = { s with mem := t.mem, res := { s.res with outLen := word c.length }, status := doneStatus s }) ∧
        (s.ops.dstCap.toNat < c.length → destAnswersTo s s.ops.dstCap.toNat →
          endsWith .ctSerialize s .dstOverflow s.ops.dstCap) ∧
        (∀ k < c.length, k < s.ops.dstCap.toNat → destAnswersTo s k →
          Config.memOK s.cfg (s.ops.dstAddr.toNat + k) = false →
          endsWith .ctSerialize s .memFault (word (s.ops.dstAddr.toNat + k)))

/-- R420 to R425, R103: the checks of `CT_DESERIALIZE`, in the order of `Deserialize()`, each with its error and detail, on a
source whose bytes up to the check are answered for; and the first byte read that is not, with `MEM_FAULT` at its address. -/
def Obligations.MalformedContainersAreRefused : Prop :=
  ∀ s : State, regionOk s.cfg s.ops.srcAddr s.ops.srcLen = true →
    let c := sourceBytes s
    (c.length < 2 → endsWith .ctDeserialize s .ctTruncated 0) ∧
    (sourceReadableTo s 2 → 2 ≤ c.length →
      (c.length < 2 + tableLength c → endsWith .ctDeserialize s .ctTruncated 2) ∧
      (tableLength c = 0 → endsWith .ctDeserialize s .ctBadTable 2)) ∧
    (sourceReadableTo s (2 + tableLength c) → 2 + tableLength c ≤ c.length → 0 < tableLength c →
      (8 < countWidth c → endsWith .ctDeserialize s .ctBadWidth 2) ∧
      (countWidth c ≤ 8 → (tableLength c - 1) % (1 + countWidth c) ≠ 0 → endsWith .ctDeserialize s .ctBadTable 2) ∧
      (tableShaped c → ∀ j < entryCount c, entriesDistinct c j → (∃ i < j, entryByte c i = entryByte c j) →
        endsWith .ctDeserialize s .ctBadTable (word (entryOffset c j))) ∧
      (tableReadable c → c.length = 2 + tableLength c →
        endsWith .ctDeserialize s .ctTruncated (word (2 + tableLength c)))) ∧
    (sourceReadableTo s (3 + tableLength c) → tableReadable c → 3 + tableLength c ≤ c.length →
      (8 < bitCountWidth c → endsWith .ctDeserialize s .ctBadWidth (word (2 + tableLength c))) ∧
      (bitCountWidth c ≤ 8 → c.length < payloadOffset c →
        endsWith .ctDeserialize s .ctTruncated (word (3 + tableLength c)))) ∧
    (sourceReadableTo s (payloadOffset c) → headerReadable c →
      (c.length < payloadOffset c + (bitCount c + 7) / 8 →
        endsWith .ctDeserialize s .ctTruncated (word (payloadOffset c))) ∧
      (payloadOffset c + (bitCount c + 7) / 8 < c.length →
        endsWith .ctDeserialize s .ctTrailing (word (payloadOffset c + (bitCount c + 7) / 8))) ∧
      (payloadOffset c + (bitCount c + 7) / 8 = c.length → s.cfg.capBytes < (bitCount c + 7) / 8 →
        endsWith .ctDeserialize s .bbOverflow (word (8 * s.cfg.capBytes)))) ∧
    (∀ k, sourceReadableTo s k → Config.memOK s.cfg (s.ops.srcAddr.toNat + k) = false →
      (k < 2 ∧ 2 ≤ c.length) ∨
        (2 ≤ k ∧ k < 2 + tableLength c ∧ 2 + tableLength c ≤ c.length) ∨
        (k = 2 + tableLength c ∧ tableReadable c ∧ 3 + tableLength c ≤ c.length) ∨
        (3 + tableLength c ≤ k ∧ k < payloadOffset c ∧ headerReadable c) ∨
        (payloadOffset c ≤ k ∧ k < c.length ∧ headerReadable c ∧ payloadOffset c + (bitCount c + 7) / 8 = c.length ∧
          (bitCount c + 7) / 8 ≤ s.cfg.capBytes) →
      endsWith .ctDeserialize s .memFault (word (s.ops.srcAddr.toNat + k)))

/-- R420, R423, R426, R427, R435: a well-formed container of the layout of R400, whatever its widths and the order of its
entries, is loaded: the table of its entries, the payload's bits with clear pad bits, and the two counts. -/
def Obligations.WellFormedContainersAreLoaded : Prop :=
  ∀ s : State, sourceReadable s →
    let c := sourceBytes s
    headerReadable c → payloadOffset c + (bitCount c + 7) / 8 = c.length → (bitCount c + 7) / 8 ≤ s.cfg.capBytes →
    ∃ ft b, exec .ctDeserialize s = .next { s with
        ft := some ft, tree := none, lut := none, fsm := none, bb := some b
        res := { s.res with result0 := word (entryCount c), result1 := word (bitCount c) }
        status := doneStatus s } ∧
      (∀ v n, FreqTable.entry ft v = some n ↔
        ∃ j < entryCount c, entryByte c j = v ∧ word (entryValue c j) = n) ∧
      b.n = bitCount c ∧ b.legal s.cfg ∧
      ∀ i < bitCount c, b.getBit i = some ((c.getD (payloadOffset c + i / 8) 0).getLsbD (i % 8))

/-- R428 item 1: deserializing the bytes the serializer writes for a table and a bit buffer that fits gives back that table
and that buffer. -/
def Obligations.DeserializeInvertsSerialize : Prop :=
  ∀ (s : State) (ft : FreqTable) (b : BitBuffer), s.cfg.wellFormed = true → b.legal s.cfg → sourceReadable s →
    sourceBytes s = containerOf ft b →
    exec .ctDeserialize s = .next { s with
      ft := some ft, tree := none, lut := none, fsm := none, bb := some b
      res := { s.res with result0 := word (FreqTable.size ft), result1 := word b.n }
      status := doneStatus s }

/-- R428 items 2 and 3, R487: a non-empty strict prefix of a written container ends `CT_DESERIALIZE` and `DECOMPRESS` with
`CT_TRUNCATED`, and a written container with more bytes after it with `CT_TRAILING`. -/
def Obligations.CutOrExtendedContainersAreRefused : Prop :=
  ∀ (s : State) (ft : FreqTable) (b : BitBuffer), b.legal s.cfg → b.n < 2 ^ 64 → sourceReadable s →
    regionOk s.cfg s.ops.dstAddr s.ops.dstCap = true → disjointBuffers s → ∀ i ∈ [Instr.ctDeserialize, .decompress],
    (sourceBytes s ≠ [] → sourceBytes s <+: containerOf ft b → sourceBytes s ≠ containerOf ft b →
      ∃ info, endsWith i s .ctTruncated info) ∧
    (containerOf ft b <+: sourceBytes s → sourceBytes s ≠ containerOf ft b →
      endsWith i s .ctTrailing (word (containerOf ft b).length))

/-! ## Payload and entry points -/

/-- R450, R452: `ENCODE` replaces the bit buffer by the codes of the source bytes in order, or ends with `NOT_READY(2)`, or at
the first byte that cannot be read, has no code, or whose code does not fit. -/
def Obligations.EncodeConcatenatesTheCodes : Prop :=
  ∀ s : State,
    (regionOk s.cfg s.ops.srcAddr s.ops.srcLen = false → endsWith .encode s .memFault s.ops.srcAddr) ∧
    (regionOk s.cfg s.ops.srcAddr s.ops.srcLen = true → s.lut = none → endsWith .encode s .notReady 2) ∧
    ∀ l, s.lut = some l → regionOk s.cfg s.ops.srcAddr s.ops.srcLen = true →
      let bitsOf (k : Nat) : List Bool := (bytesAt s.mem s.ops.srcAddr.toNat k).flatMap fun v => (Lut.entry l v).bits
      (sourceReadableTo s s.ops.srcLen.toNat → (∀ v ∈ sourceBytes s, (Lut.entry l v).len ≠ 0) →
        (bitsOf s.ops.srcLen.toNat).length ≤ 8 * s.cfg.capBytes →
        ∃ b, exec .encode s = .next { s with
            bb := some b, res := { s.res with result0 := word b.n }, status := doneStatus s } ∧
          b.bits = bitsOf s.ops.srcLen.toNat ∧ b.legal s.cfg) ∧
      (∀ k < s.ops.srcLen.toNat, sourceReadableTo s k → (∀ j < k, (Lut.entry l (sourceByte s j)).len ≠ 0) →
        (bitsOf k).length ≤ 8 * s.cfg.capBytes →
        (Config.memOK s.cfg (s.ops.srcAddr.toNat + k) = false →
          endsWith .encode s .memFault (word (s.ops.srcAddr.toNat + k))) ∧
        (Config.memOK s.cfg (s.ops.srcAddr.toNat + k) = true → (Lut.entry l (sourceByte s k)).len = 0 →
          endsWith .encode s .noCode (word k)) ∧
        (Config.memOK s.cfg (s.ops.srcAddr.toNat + k) = true → 8 * s.cfg.capBytes < (bitsOf (k + 1)).length →
          endsWith .encode s .bbOverflow (word (8 * s.cfg.capBytes))))

/-- R460, R462: `DECODE` writes the bytes the machine outputs on the bits of the buffer when it ends in its start state;
else it ends with `NOT_READY(3)`, then `NOT_READY(4)`, with `DST_OVERFLOW` or `MEM_FAULT` at the byte that cannot be written,
or with `DECODE_INCOMPLETE` and the index after the last bit that completed a code. -/
def Obligations.DecodeWalksTheBits : Prop :=
  ∀ s : State, s.mem.wf = true →
    (regionOk s.cfg s.ops.dstAddr s.ops.dstCap = false → endsWith .decode s .memFault s.ops.dstAddr) ∧
    (regionOk s.cfg s.ops.dstAddr s.ops.dstCap = true → s.fsm = none → endsWith .decode s .notReady 3) ∧
    ∀ f, s.fsm = some f → regionOk s.cfg s.ops.dstAddr s.ops.dstCap = true →
      (s.bb = none → endsWith .decode s .notReady 4) ∧
      ∀ b, s.bb = some b →
        let run (k : Nat) : Option Nat × List Byte := Fsm.run f (some f.start) (b.bits.take k)
        let out := (run b.n).2
        (destWritable s out.length →
          ((run b.n).1 = some f.start → ∃ t, exec .decode s = .next t ∧ WroteDest s t out ∧
            t = { s with mem := t.mem, res := { s.res with outLen := word out.length }, status := doneStatus s }) ∧
          ((run b.n).1 ≠ some f.start → ∀ first ≤ b.n, (run first).2 = out →
            (∀ k < first, (run k).2.length < out.length) → endsWith .decode s .decodeIncomplete (word first))) ∧
        (s.ops.dstCap.toNat < out.length → destAnswersTo s s.ops.dstCap.toNat →
          endsWith .decode s .dstOverflow s.ops.dstCap) ∧
        (∀ k < out.length, k < s.ops.dstCap.toNat → destAnswersTo s k →
          Config.memOK s.cfg (s.ops.dstAddr.toNat + k) = false →
          endsWith .decode s .memFault (word (s.ops.dstAddr.toNat + k)))

/-- R470, R483, R103: `COMPRESS` of an empty source leaves the empty table and no output; of any other readable source it
leaves the table of counts, its tree and maps and the payload, and writes their container, or ends with `BB_OVERFLOW` when
the payload does not fit, with `DST_OVERFLOW` when the container does not and with `MEM_FAULT` at the first byte of it that
the platform does not answer for; and it ends with `MEM_FAULT` at the first source byte that cannot be read. -/
def Obligations.CompressWritesTheContainer : Prop :=
  ∀ s : State, regionOk s.cfg s.ops.srcAddr s.ops.srcLen = true → regionOk s.cfg s.ops.dstAddr s.ops.dstCap = true →
    disjointBuffers s → s.mem.wf = true →
    (s.ops.srcLen = 0 → exec .compress s = .next { s with
      ft := some (Vector.replicate 256 none), tree := none, lut := none, fsm := none
      res := { s.res with outLen := 0, result0 := 0, result1 := 0 }, status := doneStatus s }) ∧
    (∀ k < s.ops.srcLen.toNat, sourceReadableTo s k → Config.memOK s.cfg (s.ops.srcAddr.toNat + k) = false →
      endsWith .compress s .memFault (word (s.ops.srcAddr.toNat + k))) ∧
    (s.ops.srcLen ≠ 0 → sourceReadable s → ∃ ft t, build ft = .ok (some t) ∧
      (∀ b, FreqTable.entry ft b =
        if b ∈ sourceBytes s then some (word ((sourceBytes s).count b)) else none) ∧
      (8 * s.cfg.capBytes < (payloadBits t (sourceBytes s)).length →
        endsWith .compress s .bbOverflow (word (8 * s.cfg.capBytes))) ∧
      ((payloadBits t (sourceBytes s)).length ≤ 8 * s.cfg.capBytes →
        ∃ b, b.bits = payloadBits t (sourceBytes s) ∧ b.legal s.cfg ∧
          let c := containerOf ft b
          (destWritable s c.length → ∃ u l m, exec .compress s = .next u ∧ WroteDest s u c ∧
            (∀ v, (Lut.entry l v).bits = (codeOf t v).getD [] ∧ ((codeOf t v).getD []).length ≤ m) ∧
            (∃ v, ((codeOf t v).getD []).length = m) ∧
            u = { s with
              ft := some ft, tree := some t, lut := some l, fsm := none, bb := some b, mem := u.mem
              res := { s.res with outLen := word c.length, result0 := word b.n, result1 := word m }
              status := doneStatus s }) ∧
          (s.ops.dstCap.toNat < c.length → destAnswersTo s s.ops.dstCap.toNat →
            endsWith .compress s .dstOverflow s.ops.dstCap) ∧
          (∀ k < c.length, k < s.ops.dstCap.toNat → destAnswersTo s k →
            Config.memOK s.cfg (s.ops.dstAddr.toNat + k) = false →
            endsWith .compress s .memFault (word (s.ops.dstAddr.toNat + k)))))

/-- R480, R483, R103: `DECOMPRESS` of an empty source changes no structure and gives no output. What `CT_DESERIALIZE` refuses,
or cannot read, it refuses the same way. Of any container, written by the serializer or well-formed with other widths, entry
order or pad bits, it gives no output when the table is empty, ends with `COUNT_OVERFLOW` when the counts sum past 2^64 - 1,
and else runs the machine of the built tree over the payload as `DECODE` does: it writes the bytes put out, which are the
byte string whose codes the payload is, or ends with `DECODE_INCOMPLETE`, `DST_OVERFLOW` or `MEM_FAULT`. -/
def Obligations.DecompressWritesTheData : Prop :=
  ∀ s : State, regionOk s.cfg s.ops.srcAddr s.ops.srcLen = true → regionOk s.cfg s.ops.dstAddr s.ops.dstCap = true →
    disjointBuffers s → s.mem.wf = true → s.cfg.wellFormed = true →
    (s.ops.srcLen = 0 → exec .decompress s = .next { s with
      res := { s.res with outLen := 0, result0 := 0, result1 := 0 }, status := doneStatus s }) ∧
    (s.ops.srcLen ≠ 0 → ∀ code info, endsWith .ctDeserialize s code info → endsWith .decompress s code info) ∧
    (sourceReadable s → ∀ ft b, b.legal s.cfg →
      sourceBytes s = containerOf ft b ∨ holdsContainer (sourceBytes s) ft b →
      ((∀ v, FreqTable.entry ft v = none) → exec .decompress s = .next { s with
        ft := some ft, tree := none, lut := none, fsm := none, bb := some b
        res := { s.res with outLen := 0, result0 := 0, result1 := word b.n }, status := doneStatus s }) ∧
      (2 ^ 64 ≤ totalCount ft → ∃ slot, FreqTable.size ft ≤ slot ∧ slot ≤ 2 * FreqTable.size ft - 2 ∧
        endsWith .decompress s .countOverflow (word slot)) ∧
      (∀ t, build ft = .ok (some t) →
        let f := buildFsm t
        let run (k : Nat) : Option Nat × List Byte := Fsm.run f (some f.start) (b.bits.take k)
        let out := (run b.n).2
        (∀ data, (∀ v ∈ data, (codeOf t v).isSome) → b.bits = payloadBits t data →
          run b.n = (some f.start, data)) ∧
        (destWritable s out.length →
          ((run b.n).1 = some f.start → ∃ u, exec .decompress s = .next u ∧ WroteDest s u out ∧
            u = { s with
              ft := some ft, tree := some t, lut := none, fsm := some f, bb := some b, mem := u.mem
              res := { s.res with
                outLen := word out.length, result0 := word (FreqTable.size ft), result1 := word b.n }
              status := doneStatus s }) ∧
          ((run b.n).1 ≠ some f.start → ∀ first ≤ b.n, (run first).2 = out →
            (∀ k < first, (run k).2.length < out.length) →
            endsWith .decompress s .decodeIncomplete (word first))) ∧
        (s.ops.dstCap.toNat < out.length → destAnswersTo s s.ops.dstCap.toNat →
          endsWith .decompress s .dstOverflow s.ops.dstCap) ∧
        (∀ k < out.length, k < s.ops.dstCap.toNat → destAnswersTo s k →
          Config.memOK s.cfg (s.ops.dstAddr.toNat + k) = false →
          endsWith .decompress s .memFault (word (s.ops.dstAddr.toNat + k)))))

/-- R482: what `COMPRESS` writes for a non-empty source, `DECOMPRESS` turns back into that source, on any machine of at least
the same capacity, whatever either machine did before. -/
def Obligations.DecompressInvertsCompress : Prop :=
  ∀ s u s' : State, s.cfg.wellFormed = true → s.mem.wf = true → running s → s.ops.srcLen ≠ 0 →
    exec .compress s = .next u → u.status.err = false →
    s'.cfg.wellFormed = true → s'.mem.wf = true → running s' → s.cfg.capBytes ≤ s'.cfg.capBytes →
    sourceReadable s' → sourceBytes s' = destBytes u u.res.outLen.toNat →
    destWritable s' s.ops.srcLen.toNat → disjointBuffers s' →
    ∃ t, exec .decompress s' = .next t ∧ t.status.done = true ∧ t.status.err = false ∧
      t.res.outLen = s.ops.srcLen ∧ destBytes t s.ops.srcLen.toNat = sourceBytes s

/-- R484: two runs of `COMPRESS` on the same source bytes that complete without error write the same container and the same
`OUT_LEN`, `RESULT0` and `RESULT1`, whatever the block did before. -/
def Obligations.CompressDependsOnTheSourceAlone : Prop :=
  ∀ s s' u u' : State, s.mem.wf = true → s'.mem.wf = true → running s → running s' →
    sourceBytes s = sourceBytes s' → exec .compress s = .next u → exec .compress s' = .next u' →
    u.status.err = false → u'.status.err = false →
    u.res.outLen = u'.res.outLen ∧ u.res.result0 = u'.res.result0 ∧ u.res.result1 = u'.res.result1 ∧
      destBytes u u.res.outLen.toNat = destBytes u' u'.res.outLen.toNat

/-- R488: the entry points start from no state left by earlier commands: on a non-empty source the end of `COMPRESS` and of
`DECOMPRESS`, without error or with one, is the same whatever the structures held before. -/
def Obligations.EntryPointsIgnoreEarlierStructures : Prop :=
  ∀ (s s' : State), s.ops.srcLen ≠ 0 →
    s' = { s with ft := s'.ft, tree := s'.tree, lut := s'.lut, fsm := s'.fsm, bb := s'.bb } →
    exec .compress s' = exec .compress s ∧ exec .decompress s' = exec .decompress s

/-! ## Registers -/

/-- R31 to R38, R48: what a read of each register returns while idle, field by field, reserved bits 0, and that a read
changes nothing else. -/
def Obligations.RegistersReadTheirFields : Prop :=
  ∀ s : State, s.status.busy = false → s.cfg.wellFormed = true → s.coherentMaps →
    let flag (b : Bool) : Nat := if b then 1 else 0
    ∀ p ∈ ([(0x000, 0x50495A57 + 2 ^ 32 + s.cfg.addrW * 2 ^ 48),
        (0x008, s.cfg.capBytes),
        (0x010, 0),
        (0x018, s.cmd.toNat),
        (0x020, flag s.status.done * 2 + flag s.status.err * 4 + flag s.status.ovr * 8 + s.status.errcode.toNat * 2 ^ 8),
        (0x028, flag s.ft.isSome + flag s.tree.isSome * 2 + flag s.lut.isSome * 4 + flag s.fsm.isSome * 8 +
          flag s.bb.isSome * 16 + s.nleaf * 2 ^ 32),
        (0x030, flag s.irqEn.doneIe + flag s.irqEn.errIe * 2),
        (0x038, s.ops.srcAddr.toNat), (0x040, s.ops.srcLen.toNat), (0x048, s.ops.dstAddr.toNat),
        (0x050, s.ops.dstCap.toNat), (0x058, s.ops.arg0.toNat), (0x060, s.ops.arg1.toNat),
        (0x068, s.res.outLen.toNat), (0x070, s.res.result0.toNat), (0x078, s.res.result1.toNat),
        (0x080, s.res.errInfo.toNat)] : List (Nat × Nat)),
      ∃ v : Word, v.toNat = p.2 ∧ hostAct (.regRead p.1 8) s = .next { s with hostData := v }

/-- R47: an aligned read of a reserved offset returns 0 and a write there is ignored. R46: an access of
another size or alignment is refused. That an offset outside the window is refused too is the model's deduction (assumption
log 12): R46 and U10 name only size and alignment. -/
def Obligations.AccessesOutsideTheMap : Prop :=
  ∀ (s : State) (off size : Nat) (v : Word),
    (0x088 ≤ off → off ≤ 0xFF8 → off % 8 = 0 →
      hostAct (.regRead off 8) s = .next { s with hostData := 0 } ∧ hostAct (.regWrite off 8 v) s = .next s) ∧
    (size ≠ 8 ∨ off % 8 ≠ 0 ∨ 4096 ≤ off →
      hostAct (.regRead off size) s = .refused (.registerAccess off size) ∧
      hostAct (.regWrite off size v) s = .refused (.registerAccess off size))

/-- R38 to R41, R49: a write of an operand register or `IRQ_EN` is stored while idle; while busy it is dropped and sets `OVR`,
as a write to `CMD` is; writes to read-only registers and reserved offsets change nothing and set no `OVR`; `CTRL` and `STATUS`
are honoured. -/
def Obligations.BusyWritesAreDropped : Prop :=
  ∀ (s : State) (v : Word),
    (s.status.busy = true → ∀ off ∈ [0x018, 0x030, 0x038, 0x040, 0x048, 0x050, 0x058, 0x060],
      hostAct (.regWrite off 8 v) s = .next { s with status := { s.status with ovr := true } }) ∧
    (∀ off ∈ [0x000, 0x008, 0x028, 0x068, 0x070, 0x078, 0x080], hostAct (.regWrite off 8 v) s = .next s) ∧
    (∀ off, 0x088 ≤ off → off ≤ 0xFF8 → off % 8 = 0 → hostAct (.regWrite off 8 v) s = .next s) ∧
    (v.getLsbD 0 = false → hostAct (.regWrite 0x010 8 v) s = .next s) ∧
    (v.getLsbD 0 = true → ∃ t, hostAct (.regWrite 0x010 8 v) s = .next t ∧ t.status.busy = false ∧ t.status.ovr = false) ∧
    hostAct (.regWrite 0x020 8 v) s = .next { s with status := {
      busy := s.status.busy
      done := s.status.done && !v.getLsbD 1
      err := s.status.err && !v.getLsbD 2
      ovr := s.status.ovr && !v.getLsbD 3
      errcode := if v.getLsbD 2 then 0 else s.status.errcode } } ∧
    (s.status.busy = false →
      hostAct (.regWrite 0x030 8 v) s = .next { s with irqEn := { doneIe := v.getLsbD 0, errIe := v.getLsbD 1 } } ∧
      hostAct (.regWrite 0x038 8 v) s = .next { s with ops := { s.ops with srcAddr := v } } ∧
      hostAct (.regWrite 0x040 8 v) s = .next { s with ops := { s.ops with srcLen := v } } ∧
      hostAct (.regWrite 0x048 8 v) s = .next { s with ops := { s.ops with dstAddr := v } } ∧
      hostAct (.regWrite 0x050 8 v) s = .next { s with ops := { s.ops with dstCap := v } } ∧
      hostAct (.regWrite 0x058 8 v) s = .next { s with ops := { s.ops with arg0 := v } } ∧
      hostAct (.regWrite 0x060 8 v) s = .next { s with ops := { s.ops with arg1 := v } })

/-- R82: while busy a read of `STATE` or a result register returns a free value, a new one each time; `ID`, `CAP`, `CMD`,
`STATUS` and `IRQ_EN` return their values. -/
def Obligations.BusyReadsAreDraws : Prop :=
  ∀ s : State, s.status.busy = true →
    (∀ off ∈ [0x028, 0x068, 0x070, 0x078, 0x080],
      hostAct (.regRead off 8) s = .next { s with hostData := Config.freeWord s.draws, draws := s.draws + 1 }) ∧
    (s.cfg.wellFormed = true →
      let flag (b : Bool) : Nat := if b then 1 else 0
      ∀ p ∈ ([(0x000, 0x50495A57 + 2 ^ 32 + s.cfg.addrW * 2 ^ 48),
          (0x008, s.cfg.capBytes),
          (0x018, s.cmd.toNat),
          (0x020, 1 + flag s.status.done * 2 + flag s.status.err * 4 + flag s.status.ovr * 8 +
            s.status.errcode.toNat * 2 ^ 8),
          (0x030, flag s.irqEn.doneIe + flag s.irqEn.errIe * 2)] : List (Nat × Nat)),
        ∃ v : Word, v.toNat = p.2 ∧ hostAct (.regRead p.1 8) s = .next { s with hostData := v })

/-! ## Reset and interrupt -/

/-- R551: the value of every register and structure after a reset, of a machine with any legal parameters; the reset state of
this machine is one. -/
def Obligations.ResetValues : Prop :=
  (∀ c : Config, c.wellFormed = true →
    let s := State.resetOf c
    (∀ p ∈ ([(0x000, 0x50495A57 + 2 ^ 32 + c.addrW * 2 ^ 48), (0x008, c.capBytes), (0x010, 0), (0x018, 0), (0x020, 0),
        (0x028, 0x11), (0x030, 0), (0x038, 0), (0x040, 0), (0x048, 0), (0x050, 0), (0x058, 0), (0x060, 0), (0x068, 0),
        (0x070, 0), (0x078, 0), (0x080, 0)] : List (Nat × Nat)),
      hostAct (.regRead p.1 8) s = .next { s with hostData := BitVec.ofNat 64 p.2 }) ∧
    (∀ b, s.ft.map (fun t => FreqTable.entry t b) = some none) ∧ s.bb.map BitBuffer.n = some 0 ∧
    s.tree = none ∧ s.lut = none ∧ s.fsm = none ∧ s.status.busy = false ∧ s.irq = false) ∧
  State.reset = State.resetOf State.reset.cfg

/-- R550, R552, R553, R554, R555: a soft reset, busy or idle, and a platform reset give the reset values of R551; memory keeps
every byte, but for the destination bytes of an aborted command that writes them, which are free; nothing else survives. -/
def Obligations.ResetAbortsAndKeepsMemory : Prop :=
  ∀ (s : State) (v : Word), v.getLsbD 0 = true →
    ∃ t, hostAct (.regWrite 0x010 8 v) s = .next t ∧ hostAct .platformReset s = .next t ∧
      (let r := State.resetOf s.cfg
       t.cfg = r.cfg ∧ t.cmd = r.cmd ∧ t.status = r.status ∧ t.irqEn = r.irqEn ∧ t.ops = r.ops ∧ t.res = r.res ∧
       t.ft = r.ft ∧ t.tree = r.tree ∧ t.lut = r.lut ∧ t.fsm = r.fsm ∧ t.bb = r.bb) ∧
      t.irq = false ∧ t.status.done = false ∧ t.status.err = false ∧
      (s.status.busy = false → t.mem = s.mem) ∧
      (∀ a, ¬ (s.status.busy = true ∧ (∃ i ∈ dstWriters, decode s.cmd = .ok i) ∧ inDest s a) →
        t.mem.read a = s.mem.read a) ∧
      (s.status.busy = true → (∃ i ∈ dstWriters, decode s.cmd = .ok i) → s.mem.wf = true →
        ∀ a, inDest s a → a < 2 ^ s.cfg.addrW → t.mem.read a = Config.freeByte s.draws a)

/-- R530, R531: `irq` is the level of its two terms, and rises only when the block completes a command or the host sets an
enable bit while `DONE` or `ERR` is 1. -/
def Obligations.InterruptRisesOnlyAtCompletion : Prop :=
  State.reset.irq = false ∧
  ∀ s : State,
    (s.irq = true ↔ (s.status.done = true ∧ s.irqEn.doneIe = true) ∨ (s.status.err = true ∧ s.irqEn.errIe = true)) ∧
    ∀ t, step s = .next t → s.irq = false → t.irq = true →
      (s.status.busy = true ∧ t.status.busy = false ∧ nextAgent s = .block) ∨
      (∃ v rest, s.host = .regWrite 0x030 8 v :: rest ∧ (s.status.done = true ∨ s.status.err = true))

/-! ## Host memory -/

/-- R101, R114, R116, R118, R189: a host store is seen by the block at once on a coherent platform and after its write-back on
another, and changes no other byte; a load reads the byte, after a discard where there is a cache; an address outside DMA
space faults; and while busy a write to a buffer is refused and a load of the destination is a free value. The model's own
choices here: the byte-wide cache (assumption log 5), that the load while busy leaves the cache as it is (24)
and is a free value whichever command runs (14), the fault (13) and the refusal (11). -/
def Obligations.HostStoresReachMemory : Prop :=
  ∀ (s : State) (a : Nat) (v : Byte), s.mem.wf = true →
    (2 ^ s.cfg.addrW ≤ a → ∀ act ∈ [HostAction.store a v, .load a, .writeBack a, .discard a],
      hostAct act s = .fault (.noSuchAddress a)) ∧
    (a < 2 ^ s.cfg.addrW →
      (s.status.busy = false →
        (s.cfg.coherent = true →
          (∃ t, hostAct (.store a v) s = .next t ∧ t = { s with mem := t.mem } ∧ t.mem.read a = v ∧
            ∀ b, b ≠ a → t.mem.read b = s.mem.read b) ∧
          hostAct (.load a) s = .next { s with hostData := (s.mem.read a).setWidth 64 }) ∧
        (s.cfg.coherent = false → cacheWfFrom 0 s.cache = true →
          (∃ t u, hostAct (.store a v) s = .next t ∧ t = { s with cache := t.cache } ∧
            hostAct (.writeBack a) t = .next u ∧ u = { s with mem := u.mem, cache := u.cache } ∧ u.mem.read a = v ∧
            ∀ b, b ≠ a → u.mem.read b = s.mem.read b) ∧
          ∃ t u, hostAct (.discard a) s = .next t ∧ t.mem = s.mem ∧ hostAct (.load a) t = .next u ∧
            u.hostData = (s.mem.read a).setWidth 64)) ∧
      (s.status.busy = true →
        (inDest s a → hostAct (.load a) s = .next { s with
          hostData := (Config.freeByte s.draws a).setWidth 64, draws := s.draws + 1 }) ∧
        (inDest s a ∨ (s.ops.srcAddr.toNat ≤ a ∧ a < s.ops.srcAddr.toNat + s.ops.srcLen.toNat) →
          hostAct (.store a v) s = .refused (.bufferWriteWhileBusy a))))

/-! ## Invariants -/

/-- R36, R70, R71, R37, R79: the reset state is legal, and so is every state that differs from it in its parameters, within
their ranges. -/
def Obligations.ResetIsLegal : Prop :=
  State.reset.legal ∧ ∀ c : Config, c.wellFormed = true → (State.resetOf c).legal

/-- R36, R37, R70, R71, R79: every step keeps a state legal: the status fields exclude each other, the bit buffer is within its
capacity with its pad bits 0, memory is in canonical form within DMA space, and a valid tree or map is that of the valid
structure it is derived from. -/
def Obligations.StepKeepsLegal : Prop :=
  ∀ s t : State, s.legal → step s = .next t → t.legal
end

