-- ==== Sys2Proof/Laws/Memory.lean ====
section
/-! SUPPORT. Host memory: a read after a write, the canonical form, and regions filled with free bytes (20_memory.md R104,
R105). -/

namespace Sys2Proof.Machine

/-! ## Canonical form -/

theorem Memory.wfFrom_mono {lo lo' : Nat} {m : Memory} (h : Memory.wfFrom lo m = true) (hl : lo' ≤ lo) :
    Memory.wfFrom lo' m = true := by
  cases m with
  | nil => rfl
  | cons p m =>
    obtain ⟨a, v⟩ := p
    simp only [Memory.wfFrom, Bool.and_eq_true, decide_eq_true_eq] at h ⊢
    exact ⟨⟨by omega, h.1.2⟩, h.2⟩

/-- An address below all listed ones reads as unlisted. -/
theorem Memory.read_below {lo a : Nat} {m : Memory} (h : Memory.wfFrom lo m = true) (ha : a < lo) :
    m.read a = Memory.unlisted := by
  induction m generalizing lo with
  | nil => rfl
  | cons p m ih =>
    obtain ⟨b, v⟩ := p
    simp only [Memory.wfFrom, Bool.and_eq_true, decide_eq_true_eq] at h
    have hne : a ≠ b := by omega
    simpa [Memory.read, hne] using ih h.2 (by omega)

/-- A write keeps the canonical form. -/
theorem Memory.write_wfFrom {lo : Nat} {m : Memory} (a : Nat) (v : Byte) (h : Memory.wfFrom lo m = true)
    (ha : lo ≤ a) : Memory.wfFrom lo (m.write a v) = true := by
  induction m generalizing lo with
  | nil => by_cases hv : v = Memory.unlisted <;> simp [Memory.write, Memory.wfFrom, hv, ha]
  | cons p m ih =>
    obtain ⟨b, w⟩ := p
    simp only [Memory.wfFrom, Bool.and_eq_true, decide_eq_true_eq] at h
    obtain ⟨⟨hb, hw⟩, hm⟩ := h
    simp only [Memory.write]
    split
    · split
      · simp [Memory.wfFrom, hb, hw, hm]
      · simp_all [Memory.wfFrom]
    · split
      · rename_i hab
        split
        · exact Memory.wfFrom_mono hm (by omega)
        · simp_all [Memory.wfFrom]
      · have := ih hm (by omega)
        simp_all [Memory.wfFrom]

theorem Memory.write_wf {m : Memory} (a : Nat) (v : Byte) (h : m.wf = true) : (m.write a v).wf = true :=
  Memory.write_wfFrom a v h (Nat.zero_le a)

/-- A filled region keeps the canonical form. -/
theorem Memory.fill_wf {m : Memory} (f : Nat → Byte) (n a : Nat) (h : m.wf = true) : (m.fill f n a).wf = true := by
  induction n generalizing a m with
  | zero => exact h
  | succ n ih => exact ih (a + 1) (Memory.write_wf a (f a) h)

/-! ## Read after write -/

theorem Memory.read_write_same_from {lo : Nat} {m : Memory} (a : Nat) (v : Byte) (h : Memory.wfFrom lo m = true) :
    (m.write a v).read a = v := by
  induction m generalizing lo with
  | nil => by_cases hv : v = Memory.unlisted <;> simp [Memory.write, Memory.read, hv]
  | cons p m ih =>
    obtain ⟨b, w⟩ := p
    simp only [Memory.wfFrom, Bool.and_eq_true, decide_eq_true_eq] at h
    simp only [Memory.write]
    split
    · rename_i hab
      split
      · rename_i hv
        have hne : a ≠ b := by omega
        simpa [Memory.read, hne, hv] using Memory.read_below h.2 (show a < b + 1 by omega)
      · simp [Memory.read]
    · split
      · rename_i hab
        split
        · rename_i hv
          rw [hv]; exact Memory.read_below h.2 (by omega)
        · simp [Memory.read]
      · rename_i hne
        simpa [Memory.read, hne] using ih h.2

/-- A read after a write to the same address gives the byte written (R105). -/
theorem Memory.read_write_same {m : Memory} (a : Nat) (v : Byte) (h : m.wf = true) : (m.write a v).read a = v :=
  Memory.read_write_same_from a v h

/-- A write leaves every other address alone (R105). -/
theorem Memory.read_write_other {m : Memory} {a b : Nat} (v : Byte) (hab : b ≠ a) : (m.write a v).read b = m.read b := by
  induction m with
  | nil => by_cases hv : v = Memory.unlisted <;> simp [Memory.write, Memory.read, hv, hab]
  | cons p m ih =>
    obtain ⟨c, w⟩ := p
    simp only [Memory.write]
    split
    · split <;> simp [Memory.read, hab]
    · split
      · rename_i hac
        subst hac
        split <;> simp [Memory.read, hab]
      · simp only [Memory.read, ih]

/-- A filled region leaves every address outside it alone. -/
theorem Memory.read_fill_outside {m : Memory} (f : Nat → Byte) {n a b : Nat} (h : b < a ∨ a + n ≤ b) :
    (m.fill f n a).read b = m.read b := by
  induction n generalizing a m with
  | zero => rfl
  | succ n ih =>
    rw [Memory.fill, ih (by omega), Memory.read_write_other _ (by omega)]

/-- A filled region holds `f` of each of its addresses. -/
theorem Memory.read_fill_inside {m : Memory} (f : Nat → Byte) {n a b : Nat} (hw : m.wf = true) (h : a ≤ b)
    (h' : b < a + n) : (m.fill f n a).read b = f b := by
  induction n generalizing a m with
  | zero => omega
  | succ n ih =>
    rw [Memory.fill]
    by_cases hab : b = a
    · subst hab
      rw [Memory.read_fill_outside f (by omega), Memory.read_write_same _ _ hw]
    · exact ih (Memory.write_wf a (f a) hw) (by omega) (by omega)

/-! ## Addresses in DMA space -/

/-- A write adds no address but its own. -/
theorem Memory.mem_write {m : Memory} {a : Nat} {v : Byte} {p : Host.Cell} (h : p ∈ m.write a v) : p ∈ m ∨ p.1 = a := by
  induction m with
  | nil => by_cases hv : v = Memory.unlisted <;> simp_all [Memory.write]
  | cons q m ih =>
    obtain ⟨b, w⟩ := q
    simp only [Memory.write] at h
    repeat' split at h
    all_goals simp only [List.mem_cons] at h ⊢
    all_goals grind

/-- A write within DMA space keeps memory legal. -/
theorem Memory.write_legal {c : Config} {m : Memory} {a : Nat} (v : Byte) (h : m.legal c) (ha : a < Config.space c) :
    (m.write a v).legal c :=
  ⟨Memory.write_wf a v h.1, fun p hp => by
    rcases Memory.mem_write hp with hp | hp
    · exact h.2 p hp
    · omega⟩

/-- A region filled within DMA space keeps memory legal. -/
theorem Memory.fill_legal {c : Config} {m : Memory} (f : Nat → Byte) {n a : Nat} (h : m.legal c)
    (ha : n = 0 ∨ a + n ≤ Config.space c) : (m.fill f n a).legal c := by
  induction n generalizing a m with
  | zero => exact h
  | succ n ih => exact ih (Memory.write_legal _ h (by omega)) (by omega)

/-- The free bytes of a destination buffer keep memory legal (R509 item 3). -/
theorem scrambleDst_legal {s : State} (h : s.mem.legal s.cfg) : s.scrambleDst.mem.legal s.cfg :=
  Memory.fill_legal _ h (by unfold State.dstExtent; omega)

/-! ## Byte strings in memory -/

@[simp] theorem bytesAt_length (m : Memory) (a n : Nat) : (bytesAt m a n).length = n := by simp [bytesAt]

theorem bytesAt_zero (m : Memory) (a : Nat) : bytesAt m a 0 = [] := rfl

theorem bytesAt_succ (m : Memory) (a n : Nat) : bytesAt m a (n + 1) = m.read a :: bytesAt m (a + 1) n := by
  simp only [bytesAt, List.range_succ_eq_map, List.map_cons, List.map_map, Nat.add_zero]
  congr 1
  exact List.map_congr_left fun i _ => by simp only [Function.comp]; congr 1; omega

/-- Two memories that agree on a region hold the same bytes there. -/
theorem bytesAt_congr {m m' : Memory} {a n : Nat} (h : ∀ b, a ≤ b → b < a + n → m.read b = m'.read b) :
    bytesAt m a n = bytesAt m' a n :=
  List.map_congr_left fun i hi => h _ (by omega) (by have := List.mem_range.1 hi; omega)

end Sys2Proof.Machine
end

