-- ==== Sys2Proof/Laws/State.lean ====
section
/-! SUPPORT. What each update of the state leaves in each field: one lemma a field and update, true by `rfl`. -/

namespace Sys2Proof.Machine

/-! ## `setTree` -/

@[simp] theorem State.setTree_cfg (s : State) (t : Option Tree) : (s.setTree t).cfg = s.cfg := rfl
@[simp] theorem State.setTree_cmd (s : State) (t : Option Tree) : (s.setTree t).cmd = s.cmd := rfl
@[simp] theorem State.setTree_status (s : State) (t : Option Tree) : (s.setTree t).status = s.status := rfl
@[simp] theorem State.setTree_irqEn (s : State) (t : Option Tree) : (s.setTree t).irqEn = s.irqEn := rfl
@[simp] theorem State.setTree_ops (s : State) (t : Option Tree) : (s.setTree t).ops = s.ops := rfl
@[simp] theorem State.setTree_res (s : State) (t : Option Tree) : (s.setTree t).res = s.res := rfl
@[simp] theorem State.setTree_ft (s : State) (t : Option Tree) : (s.setTree t).ft = s.ft := rfl
@[simp] theorem State.setTree_tree (s : State) (t : Option Tree) : (s.setTree t).tree = t := rfl
@[simp] theorem State.setTree_lut (s : State) (t : Option Tree) : (s.setTree t).lut = none := rfl
@[simp] theorem State.setTree_fsm (s : State) (t : Option Tree) : (s.setTree t).fsm = none := rfl
@[simp] theorem State.setTree_bb (s : State) (t : Option Tree) : (s.setTree t).bb = s.bb := rfl
@[simp] theorem State.setTree_mem (s : State) (t : Option Tree) : (s.setTree t).mem = s.mem := rfl
@[simp] theorem State.setTree_host (s : State) (t : Option Tree) : (s.setTree t).host = s.host := rfl
@[simp] theorem State.setTree_turns (s : State) (t : Option Tree) : (s.setTree t).turns = s.turns := rfl
@[simp] theorem State.setTree_cache (s : State) (t : Option Tree) : (s.setTree t).cache = s.cache := rfl
@[simp] theorem State.setTree_hostData (s : State) (t : Option Tree) : (s.setTree t).hostData = s.hostData := rfl
@[simp] theorem State.setTree_draws (s : State) (t : Option Tree) : (s.setTree t).draws = s.draws := rfl

/-! ## `setFt` -/

@[simp] theorem State.setFt_cfg (s : State) (t : Option FreqTable) : (s.setFt t).cfg = s.cfg := rfl
@[simp] theorem State.setFt_cmd (s : State) (t : Option FreqTable) : (s.setFt t).cmd = s.cmd := rfl
@[simp] theorem State.setFt_status (s : State) (t : Option FreqTable) : (s.setFt t).status = s.status := rfl
@[simp] theorem State.setFt_irqEn (s : State) (t : Option FreqTable) : (s.setFt t).irqEn = s.irqEn := rfl
@[simp] theorem State.setFt_ops (s : State) (t : Option FreqTable) : (s.setFt t).ops = s.ops := rfl
@[simp] theorem State.setFt_res (s : State) (t : Option FreqTable) : (s.setFt t).res = s.res := rfl
@[simp] theorem State.setFt_ft (s : State) (t : Option FreqTable) : (s.setFt t).ft = t := rfl
@[simp] theorem State.setFt_tree (s : State) (t : Option FreqTable) : (s.setFt t).tree = none := rfl
@[simp] theorem State.setFt_lut (s : State) (t : Option FreqTable) : (s.setFt t).lut = none := rfl
@[simp] theorem State.setFt_fsm (s : State) (t : Option FreqTable) : (s.setFt t).fsm = none := rfl
@[simp] theorem State.setFt_bb (s : State) (t : Option FreqTable) : (s.setFt t).bb = s.bb := rfl
@[simp] theorem State.setFt_mem (s : State) (t : Option FreqTable) : (s.setFt t).mem = s.mem := rfl
@[simp] theorem State.setFt_host (s : State) (t : Option FreqTable) : (s.setFt t).host = s.host := rfl
@[simp] theorem State.setFt_turns (s : State) (t : Option FreqTable) : (s.setFt t).turns = s.turns := rfl
@[simp] theorem State.setFt_cache (s : State) (t : Option FreqTable) : (s.setFt t).cache = s.cache := rfl
@[simp] theorem State.setFt_hostData (s : State) (t : Option FreqTable) : (s.setFt t).hostData = s.hostData := rfl
@[simp] theorem State.setFt_draws (s : State) (t : Option FreqTable) : (s.setFt t).draws = s.draws := rfl

/-! ## `setLut` -/

@[simp] theorem State.setLut_cfg (s : State) (l : Option Lut) : (s.setLut l).cfg = s.cfg := rfl
@[simp] theorem State.setLut_cmd (s : State) (l : Option Lut) : (s.setLut l).cmd = s.cmd := rfl
@[simp] theorem State.setLut_status (s : State) (l : Option Lut) : (s.setLut l).status = s.status := rfl
@[simp] theorem State.setLut_irqEn (s : State) (l : Option Lut) : (s.setLut l).irqEn = s.irqEn := rfl
@[simp] theorem State.setLut_ops (s : State) (l : Option Lut) : (s.setLut l).ops = s.ops := rfl
@[simp] theorem State.setLut_res (s : State) (l : Option Lut) : (s.setLut l).res = s.res := rfl
@[simp] theorem State.setLut_ft (s : State) (l : Option Lut) : (s.setLut l).ft = s.ft := rfl
@[simp] theorem State.setLut_tree (s : State) (l : Option Lut) : (s.setLut l).tree = s.tree := rfl
@[simp] theorem State.setLut_lut (s : State) (l : Option Lut) : (s.setLut l).lut = l := rfl
@[simp] theorem State.setLut_fsm (s : State) (l : Option Lut) : (s.setLut l).fsm = s.fsm := rfl
@[simp] theorem State.setLut_bb (s : State) (l : Option Lut) : (s.setLut l).bb = s.bb := rfl
@[simp] theorem State.setLut_mem (s : State) (l : Option Lut) : (s.setLut l).mem = s.mem := rfl
@[simp] theorem State.setLut_host (s : State) (l : Option Lut) : (s.setLut l).host = s.host := rfl
@[simp] theorem State.setLut_turns (s : State) (l : Option Lut) : (s.setLut l).turns = s.turns := rfl
@[simp] theorem State.setLut_cache (s : State) (l : Option Lut) : (s.setLut l).cache = s.cache := rfl
@[simp] theorem State.setLut_hostData (s : State) (l : Option Lut) : (s.setLut l).hostData = s.hostData := rfl
@[simp] theorem State.setLut_draws (s : State) (l : Option Lut) : (s.setLut l).draws = s.draws := rfl

/-! ## `setFsm` -/

@[simp] theorem State.setFsm_cfg (s : State) (f : Option Fsm) : (s.setFsm f).cfg = s.cfg := rfl
@[simp] theorem State.setFsm_cmd (s : State) (f : Option Fsm) : (s.setFsm f).cmd = s.cmd := rfl
@[simp] theorem State.setFsm_status (s : State) (f : Option Fsm) : (s.setFsm f).status = s.status := rfl
@[simp] theorem State.setFsm_irqEn (s : State) (f : Option Fsm) : (s.setFsm f).irqEn = s.irqEn := rfl
@[simp] theorem State.setFsm_ops (s : State) (f : Option Fsm) : (s.setFsm f).ops = s.ops := rfl
@[simp] theorem State.setFsm_res (s : State) (f : Option Fsm) : (s.setFsm f).res = s.res := rfl
@[simp] theorem State.setFsm_ft (s : State) (f : Option Fsm) : (s.setFsm f).ft = s.ft := rfl
@[simp] theorem State.setFsm_tree (s : State) (f : Option Fsm) : (s.setFsm f).tree = s.tree := rfl
@[simp] theorem State.setFsm_lut (s : State) (f : Option Fsm) : (s.setFsm f).lut = s.lut := rfl
@[simp] theorem State.setFsm_fsm (s : State) (f : Option Fsm) : (s.setFsm f).fsm = f := rfl
@[simp] theorem State.setFsm_bb (s : State) (f : Option Fsm) : (s.setFsm f).bb = s.bb := rfl
@[simp] theorem State.setFsm_mem (s : State) (f : Option Fsm) : (s.setFsm f).mem = s.mem := rfl
@[simp] theorem State.setFsm_host (s : State) (f : Option Fsm) : (s.setFsm f).host = s.host := rfl
@[simp] theorem State.setFsm_turns (s : State) (f : Option Fsm) : (s.setFsm f).turns = s.turns := rfl
@[simp] theorem State.setFsm_cache (s : State) (f : Option Fsm) : (s.setFsm f).cache = s.cache := rfl
@[simp] theorem State.setFsm_hostData (s : State) (f : Option Fsm) : (s.setFsm f).hostData = s.hostData := rfl
@[simp] theorem State.setFsm_draws (s : State) (f : Option Fsm) : (s.setFsm f).draws = s.draws := rfl

/-! ## `setBb` -/

@[simp] theorem State.setBb_cfg (s : State) (b : Option BitBuffer) : (s.setBb b).cfg = s.cfg := rfl
@[simp] theorem State.setBb_cmd (s : State) (b : Option BitBuffer) : (s.setBb b).cmd = s.cmd := rfl
@[simp] theorem State.setBb_status (s : State) (b : Option BitBuffer) : (s.setBb b).status = s.status := rfl
@[simp] theorem State.setBb_irqEn (s : State) (b : Option BitBuffer) : (s.setBb b).irqEn = s.irqEn := rfl
@[simp] theorem State.setBb_ops (s : State) (b : Option BitBuffer) : (s.setBb b).ops = s.ops := rfl
@[simp] theorem State.setBb_res (s : State) (b : Option BitBuffer) : (s.setBb b).res = s.res := rfl
@[simp] theorem State.setBb_ft (s : State) (b : Option BitBuffer) : (s.setBb b).ft = s.ft := rfl
@[simp] theorem State.setBb_tree (s : State) (b : Option BitBuffer) : (s.setBb b).tree = s.tree := rfl
@[simp] theorem State.setBb_lut (s : State) (b : Option BitBuffer) : (s.setBb b).lut = s.lut := rfl
@[simp] theorem State.setBb_fsm (s : State) (b : Option BitBuffer) : (s.setBb b).fsm = s.fsm := rfl
@[simp] theorem State.setBb_bb (s : State) (b : Option BitBuffer) : (s.setBb b).bb = b := rfl
@[simp] theorem State.setBb_mem (s : State) (b : Option BitBuffer) : (s.setBb b).mem = s.mem := rfl
@[simp] theorem State.setBb_host (s : State) (b : Option BitBuffer) : (s.setBb b).host = s.host := rfl
@[simp] theorem State.setBb_turns (s : State) (b : Option BitBuffer) : (s.setBb b).turns = s.turns := rfl
@[simp] theorem State.setBb_cache (s : State) (b : Option BitBuffer) : (s.setBb b).cache = s.cache := rfl
@[simp] theorem State.setBb_hostData (s : State) (b : Option BitBuffer) : (s.setBb b).hostData = s.hostData := rfl
@[simp] theorem State.setBb_draws (s : State) (b : Option BitBuffer) : (s.setBb b).draws = s.draws := rfl

/-! ## `setResult0` -/

@[simp] theorem State.setResult0_cfg (s : State) (v : Word) : (s.setResult0 v).cfg = s.cfg := rfl
@[simp] theorem State.setResult0_cmd (s : State) (v : Word) : (s.setResult0 v).cmd = s.cmd := rfl
@[simp] theorem State.setResult0_status (s : State) (v : Word) : (s.setResult0 v).status = s.status := rfl
@[simp] theorem State.setResult0_irqEn (s : State) (v : Word) : (s.setResult0 v).irqEn = s.irqEn := rfl
@[simp] theorem State.setResult0_ops (s : State) (v : Word) : (s.setResult0 v).ops = s.ops := rfl
@[simp] theorem State.setResult0_res (s : State) (v : Word) : (s.setResult0 v).res = { s.res with result0 := v } := rfl
@[simp] theorem State.setResult0_ft (s : State) (v : Word) : (s.setResult0 v).ft = s.ft := rfl
@[simp] theorem State.setResult0_tree (s : State) (v : Word) : (s.setResult0 v).tree = s.tree := rfl
@[simp] theorem State.setResult0_lut (s : State) (v : Word) : (s.setResult0 v).lut = s.lut := rfl
@[simp] theorem State.setResult0_fsm (s : State) (v : Word) : (s.setResult0 v).fsm = s.fsm := rfl
@[simp] theorem State.setResult0_bb (s : State) (v : Word) : (s.setResult0 v).bb = s.bb := rfl
@[simp] theorem State.setResult0_mem (s : State) (v : Word) : (s.setResult0 v).mem = s.mem := rfl
@[simp] theorem State.setResult0_host (s : State) (v : Word) : (s.setResult0 v).host = s.host := rfl
@[simp] theorem State.setResult0_turns (s : State) (v : Word) : (s.setResult0 v).turns = s.turns := rfl
@[simp] theorem State.setResult0_cache (s : State) (v : Word) : (s.setResult0 v).cache = s.cache := rfl
@[simp] theorem State.setResult0_hostData (s : State) (v : Word) : (s.setResult0 v).hostData = s.hostData := rfl
@[simp] theorem State.setResult0_draws (s : State) (v : Word) : (s.setResult0 v).draws = s.draws := rfl

/-! ## `setResults` -/

@[simp] theorem State.setResults_cfg (s : State) (v w : Word) : (s.setResults v w).cfg = s.cfg := rfl
@[simp] theorem State.setResults_cmd (s : State) (v w : Word) : (s.setResults v w).cmd = s.cmd := rfl
@[simp] theorem State.setResults_status (s : State) (v w : Word) : (s.setResults v w).status = s.status := rfl
@[simp] theorem State.setResults_irqEn (s : State) (v w : Word) : (s.setResults v w).irqEn = s.irqEn := rfl
@[simp] theorem State.setResults_ops (s : State) (v w : Word) : (s.setResults v w).ops = s.ops := rfl
@[simp] theorem State.setResults_res (s : State) (v w : Word) : (s.setResults v w).res = { s.res with result0 := v, result1 := w } := rfl
@[simp] theorem State.setResults_ft (s : State) (v w : Word) : (s.setResults v w).ft = s.ft := rfl
@[simp] theorem State.setResults_tree (s : State) (v w : Word) : (s.setResults v w).tree = s.tree := rfl
@[simp] theorem State.setResults_lut (s : State) (v w : Word) : (s.setResults v w).lut = s.lut := rfl
@[simp] theorem State.setResults_fsm (s : State) (v w : Word) : (s.setResults v w).fsm = s.fsm := rfl
@[simp] theorem State.setResults_bb (s : State) (v w : Word) : (s.setResults v w).bb = s.bb := rfl
@[simp] theorem State.setResults_mem (s : State) (v w : Word) : (s.setResults v w).mem = s.mem := rfl
@[simp] theorem State.setResults_host (s : State) (v w : Word) : (s.setResults v w).host = s.host := rfl
@[simp] theorem State.setResults_turns (s : State) (v w : Word) : (s.setResults v w).turns = s.turns := rfl
@[simp] theorem State.setResults_cache (s : State) (v w : Word) : (s.setResults v w).cache = s.cache := rfl
@[simp] theorem State.setResults_hostData (s : State) (v w : Word) : (s.setResults v w).hostData = s.hostData := rfl
@[simp] theorem State.setResults_draws (s : State) (v w : Word) : (s.setResults v w).draws = s.draws := rfl

/-! ## `setOutLen` -/

@[simp] theorem State.setOutLen_cfg (s : State) (v : Word) : (s.setOutLen v).cfg = s.cfg := rfl
@[simp] theorem State.setOutLen_cmd (s : State) (v : Word) : (s.setOutLen v).cmd = s.cmd := rfl
@[simp] theorem State.setOutLen_status (s : State) (v : Word) : (s.setOutLen v).status = s.status := rfl
@[simp] theorem State.setOutLen_irqEn (s : State) (v : Word) : (s.setOutLen v).irqEn = s.irqEn := rfl
@[simp] theorem State.setOutLen_ops (s : State) (v : Word) : (s.setOutLen v).ops = s.ops := rfl
@[simp] theorem State.setOutLen_res (s : State) (v : Word) : (s.setOutLen v).res = { s.res with outLen := v } := rfl
@[simp] theorem State.setOutLen_ft (s : State) (v : Word) : (s.setOutLen v).ft = s.ft := rfl
@[simp] theorem State.setOutLen_tree (s : State) (v : Word) : (s.setOutLen v).tree = s.tree := rfl
@[simp] theorem State.setOutLen_lut (s : State) (v : Word) : (s.setOutLen v).lut = s.lut := rfl
@[simp] theorem State.setOutLen_fsm (s : State) (v : Word) : (s.setOutLen v).fsm = s.fsm := rfl
@[simp] theorem State.setOutLen_bb (s : State) (v : Word) : (s.setOutLen v).bb = s.bb := rfl
@[simp] theorem State.setOutLen_mem (s : State) (v : Word) : (s.setOutLen v).mem = s.mem := rfl
@[simp] theorem State.setOutLen_host (s : State) (v : Word) : (s.setOutLen v).host = s.host := rfl
@[simp] theorem State.setOutLen_turns (s : State) (v : Word) : (s.setOutLen v).turns = s.turns := rfl
@[simp] theorem State.setOutLen_cache (s : State) (v : Word) : (s.setOutLen v).cache = s.cache := rfl
@[simp] theorem State.setOutLen_hostData (s : State) (v : Word) : (s.setOutLen v).hostData = s.hostData := rfl
@[simp] theorem State.setOutLen_draws (s : State) (v : Word) : (s.setOutLen v).draws = s.draws := rfl

/-! ## `withOutput` -/

@[simp] theorem State.withOutput_cfg (s : State) (o : Output) : (s.withOutput o).cfg = s.cfg := rfl
@[simp] theorem State.withOutput_cmd (s : State) (o : Output) : (s.withOutput o).cmd = s.cmd := rfl
@[simp] theorem State.withOutput_status (s : State) (o : Output) : (s.withOutput o).status = s.status := rfl
@[simp] theorem State.withOutput_irqEn (s : State) (o : Output) : (s.withOutput o).irqEn = s.irqEn := rfl
@[simp] theorem State.withOutput_ops (s : State) (o : Output) : (s.withOutput o).ops = s.ops := rfl
@[simp] theorem State.withOutput_res (s : State) (o : Output) : (s.withOutput o).res = { s.res with outLen := word o.count } := rfl
@[simp] theorem State.withOutput_ft (s : State) (o : Output) : (s.withOutput o).ft = s.ft := rfl
@[simp] theorem State.withOutput_tree (s : State) (o : Output) : (s.withOutput o).tree = s.tree := rfl
@[simp] theorem State.withOutput_lut (s : State) (o : Output) : (s.withOutput o).lut = s.lut := rfl
@[simp] theorem State.withOutput_fsm (s : State) (o : Output) : (s.withOutput o).fsm = s.fsm := rfl
@[simp] theorem State.withOutput_bb (s : State) (o : Output) : (s.withOutput o).bb = s.bb := rfl
@[simp] theorem State.withOutput_mem (s : State) (o : Output) : (s.withOutput o).mem = o.mem := rfl
@[simp] theorem State.withOutput_host (s : State) (o : Output) : (s.withOutput o).host = s.host := rfl
@[simp] theorem State.withOutput_turns (s : State) (o : Output) : (s.withOutput o).turns = s.turns := rfl
@[simp] theorem State.withOutput_cache (s : State) (o : Output) : (s.withOutput o).cache = s.cache := rfl
@[simp] theorem State.withOutput_hostData (s : State) (o : Output) : (s.withOutput o).hostData = s.hostData := rfl
@[simp] theorem State.withOutput_draws (s : State) (o : Output) : (s.withOutput o).draws = s.draws := rfl

/-! ## `drew` -/

@[simp] theorem State.drew_cfg (s : State) (n : Nat) : (s.drew n).cfg = s.cfg := rfl
@[simp] theorem State.drew_cmd (s : State) (n : Nat) : (s.drew n).cmd = s.cmd := rfl
@[simp] theorem State.drew_status (s : State) (n : Nat) : (s.drew n).status = s.status := rfl
@[simp] theorem State.drew_irqEn (s : State) (n : Nat) : (s.drew n).irqEn = s.irqEn := rfl
@[simp] theorem State.drew_ops (s : State) (n : Nat) : (s.drew n).ops = s.ops := rfl
@[simp] theorem State.drew_res (s : State) (n : Nat) : (s.drew n).res = s.res := rfl
@[simp] theorem State.drew_ft (s : State) (n : Nat) : (s.drew n).ft = s.ft := rfl
@[simp] theorem State.drew_tree (s : State) (n : Nat) : (s.drew n).tree = s.tree := rfl
@[simp] theorem State.drew_lut (s : State) (n : Nat) : (s.drew n).lut = s.lut := rfl
@[simp] theorem State.drew_fsm (s : State) (n : Nat) : (s.drew n).fsm = s.fsm := rfl
@[simp] theorem State.drew_bb (s : State) (n : Nat) : (s.drew n).bb = s.bb := rfl
@[simp] theorem State.drew_mem (s : State) (n : Nat) : (s.drew n).mem = s.mem := rfl
@[simp] theorem State.drew_host (s : State) (n : Nat) : (s.drew n).host = s.host := rfl
@[simp] theorem State.drew_turns (s : State) (n : Nat) : (s.drew n).turns = s.turns := rfl
@[simp] theorem State.drew_cache (s : State) (n : Nat) : (s.drew n).cache = s.cache := rfl
@[simp] theorem State.drew_hostData (s : State) (n : Nat) : (s.drew n).hostData = s.hostData := rfl
@[simp] theorem State.drew_draws (s : State) (n : Nat) : (s.drew n).draws = s.draws + n := rfl

/-! ## `accept` -/

@[simp] theorem State.accept_cfg (s : State) (w : Word) : (s.accept w).cfg = s.cfg := rfl
@[simp] theorem State.accept_cmd (s : State) (w : Word) : (s.accept w).cmd = w := rfl
@[simp] theorem State.accept_status (s : State) (w : Word) : (s.accept w).status = s.status.accepted := rfl
@[simp] theorem State.accept_irqEn (s : State) (w : Word) : (s.accept w).irqEn = s.irqEn := rfl
@[simp] theorem State.accept_ops (s : State) (w : Word) : (s.accept w).ops = s.ops := rfl
@[simp] theorem State.accept_res (s : State) (w : Word) : (s.accept w).res = { s.res with errInfo := 0 } := rfl
@[simp] theorem State.accept_ft (s : State) (w : Word) : (s.accept w).ft = s.ft := rfl
@[simp] theorem State.accept_tree (s : State) (w : Word) : (s.accept w).tree = s.tree := rfl
@[simp] theorem State.accept_lut (s : State) (w : Word) : (s.accept w).lut = s.lut := rfl
@[simp] theorem State.accept_fsm (s : State) (w : Word) : (s.accept w).fsm = s.fsm := rfl
@[simp] theorem State.accept_bb (s : State) (w : Word) : (s.accept w).bb = s.bb := rfl
@[simp] theorem State.accept_mem (s : State) (w : Word) : (s.accept w).mem = s.mem := rfl
@[simp] theorem State.accept_host (s : State) (w : Word) : (s.accept w).host = s.host := rfl
@[simp] theorem State.accept_turns (s : State) (w : Word) : (s.accept w).turns = s.turns := rfl
@[simp] theorem State.accept_cache (s : State) (w : Word) : (s.accept w).cache = s.cache := rfl
@[simp] theorem State.accept_hostData (s : State) (w : Word) : (s.accept w).hostData = s.hostData := rfl
@[simp] theorem State.accept_draws (s : State) (w : Word) : (s.accept w).draws = s.draws := rfl

/-! ## `complete` -/

@[simp] theorem State.complete_cfg (s : State) : s.complete.cfg = s.cfg := rfl
@[simp] theorem State.complete_cmd (s : State) : s.complete.cmd = s.cmd := rfl
@[simp] theorem State.complete_status (s : State) : s.complete.status = s.status.completed := rfl
@[simp] theorem State.complete_irqEn (s : State) : s.complete.irqEn = s.irqEn := rfl
@[simp] theorem State.complete_ops (s : State) : s.complete.ops = s.ops := rfl
@[simp] theorem State.complete_res (s : State) : s.complete.res = s.res := rfl
@[simp] theorem State.complete_ft (s : State) : s.complete.ft = s.ft := rfl
@[simp] theorem State.complete_tree (s : State) : s.complete.tree = s.tree := rfl
@[simp] theorem State.complete_lut (s : State) : s.complete.lut = s.lut := rfl
@[simp] theorem State.complete_fsm (s : State) : s.complete.fsm = s.fsm := rfl
@[simp] theorem State.complete_bb (s : State) : s.complete.bb = s.bb := rfl
@[simp] theorem State.complete_mem (s : State) : s.complete.mem = s.mem := rfl
@[simp] theorem State.complete_host (s : State) : s.complete.host = s.host := rfl
@[simp] theorem State.complete_turns (s : State) : s.complete.turns = s.turns := rfl
@[simp] theorem State.complete_cache (s : State) : s.complete.cache = s.cache := rfl
@[simp] theorem State.complete_hostData (s : State) : s.complete.hostData = s.hostData := rfl
@[simp] theorem State.complete_draws (s : State) : s.complete.draws = s.draws := rfl

/-! ## `acknowledge` -/

@[simp] theorem State.acknowledge_cfg (s : State) (v : Word) : (s.acknowledge v).cfg = s.cfg := rfl
@[simp] theorem State.acknowledge_cmd (s : State) (v : Word) : (s.acknowledge v).cmd = s.cmd := rfl
@[simp] theorem State.acknowledge_status (s : State) (v : Word) : (s.acknowledge v).status = s.status.writeOneClears v := rfl
@[simp] theorem State.acknowledge_irqEn (s : State) (v : Word) : (s.acknowledge v).irqEn = s.irqEn := rfl
@[simp] theorem State.acknowledge_ops (s : State) (v : Word) : (s.acknowledge v).ops = s.ops := rfl
@[simp] theorem State.acknowledge_res (s : State) (v : Word) : (s.acknowledge v).res = s.res := rfl
@[simp] theorem State.acknowledge_ft (s : State) (v : Word) : (s.acknowledge v).ft = s.ft := rfl
@[simp] theorem State.acknowledge_tree (s : State) (v : Word) : (s.acknowledge v).tree = s.tree := rfl
@[simp] theorem State.acknowledge_lut (s : State) (v : Word) : (s.acknowledge v).lut = s.lut := rfl
@[simp] theorem State.acknowledge_fsm (s : State) (v : Word) : (s.acknowledge v).fsm = s.fsm := rfl
@[simp] theorem State.acknowledge_bb (s : State) (v : Word) : (s.acknowledge v).bb = s.bb := rfl
@[simp] theorem State.acknowledge_mem (s : State) (v : Word) : (s.acknowledge v).mem = s.mem := rfl
@[simp] theorem State.acknowledge_host (s : State) (v : Word) : (s.acknowledge v).host = s.host := rfl
@[simp] theorem State.acknowledge_turns (s : State) (v : Word) : (s.acknowledge v).turns = s.turns := rfl
@[simp] theorem State.acknowledge_cache (s : State) (v : Word) : (s.acknowledge v).cache = s.cache := rfl
@[simp] theorem State.acknowledge_hostData (s : State) (v : Word) : (s.acknowledge v).hostData = s.hostData := rfl
@[simp] theorem State.acknowledge_draws (s : State) (v : Word) : (s.acknowledge v).draws = s.draws := rfl

/-! ## `scrambleDst` -/

@[simp] theorem State.scrambleDst_cfg (s : State) : s.scrambleDst.cfg = s.cfg := rfl
@[simp] theorem State.scrambleDst_cmd (s : State) : s.scrambleDst.cmd = s.cmd := rfl
@[simp] theorem State.scrambleDst_status (s : State) : s.scrambleDst.status = s.status := rfl
@[simp] theorem State.scrambleDst_irqEn (s : State) : s.scrambleDst.irqEn = s.irqEn := rfl
@[simp] theorem State.scrambleDst_ops (s : State) : s.scrambleDst.ops = s.ops := rfl
@[simp] theorem State.scrambleDst_res (s : State) : s.scrambleDst.res = s.res := rfl
@[simp] theorem State.scrambleDst_ft (s : State) : s.scrambleDst.ft = s.ft := rfl
@[simp] theorem State.scrambleDst_tree (s : State) : s.scrambleDst.tree = s.tree := rfl
@[simp] theorem State.scrambleDst_lut (s : State) : s.scrambleDst.lut = s.lut := rfl
@[simp] theorem State.scrambleDst_fsm (s : State) : s.scrambleDst.fsm = s.fsm := rfl
@[simp] theorem State.scrambleDst_bb (s : State) : s.scrambleDst.bb = s.bb := rfl
@[simp] theorem State.scrambleDst_mem (s : State) : s.scrambleDst.mem = s.mem.fill (Config.freeByte s.draws) s.dstExtent s.ops.dstAddr.toNat := rfl
@[simp] theorem State.scrambleDst_host (s : State) : s.scrambleDst.host = s.host := rfl
@[simp] theorem State.scrambleDst_turns (s : State) : s.scrambleDst.turns = s.turns := rfl
@[simp] theorem State.scrambleDst_cache (s : State) : s.scrambleDst.cache = s.cache := rfl
@[simp] theorem State.scrambleDst_hostData (s : State) : s.scrambleDst.hostData = s.hostData := rfl
@[simp] theorem State.scrambleDst_draws (s : State) : s.scrambleDst.draws = s.draws + 1 := rfl

/-! ## `takeTurn` -/

@[simp] theorem State.takeTurn_cfg (s : State) : s.takeTurn.cfg = s.cfg := rfl
@[simp] theorem State.takeTurn_cmd (s : State) : s.takeTurn.cmd = s.cmd := rfl
@[simp] theorem State.takeTurn_status (s : State) : s.takeTurn.status = s.status := rfl
@[simp] theorem State.takeTurn_irqEn (s : State) : s.takeTurn.irqEn = s.irqEn := rfl
@[simp] theorem State.takeTurn_ops (s : State) : s.takeTurn.ops = s.ops := rfl
@[simp] theorem State.takeTurn_res (s : State) : s.takeTurn.res = s.res := rfl
@[simp] theorem State.takeTurn_ft (s : State) : s.takeTurn.ft = s.ft := rfl
@[simp] theorem State.takeTurn_tree (s : State) : s.takeTurn.tree = s.tree := rfl
@[simp] theorem State.takeTurn_lut (s : State) : s.takeTurn.lut = s.lut := rfl
@[simp] theorem State.takeTurn_fsm (s : State) : s.takeTurn.fsm = s.fsm := rfl
@[simp] theorem State.takeTurn_bb (s : State) : s.takeTurn.bb = s.bb := rfl
@[simp] theorem State.takeTurn_mem (s : State) : s.takeTurn.mem = s.mem := rfl
@[simp] theorem State.takeTurn_host (s : State) : s.takeTurn.host = s.host := rfl
@[simp] theorem State.takeTurn_turns (s : State) : s.takeTurn.turns = s.turns.tail := rfl
@[simp] theorem State.takeTurn_cache (s : State) : s.takeTurn.cache = s.cache := rfl
@[simp] theorem State.takeTurn_hostData (s : State) : s.takeTurn.hostData = s.hostData := rfl
@[simp] theorem State.takeTurn_draws (s : State) : s.takeTurn.draws = s.draws := rfl

end Sys2Proof.Machine
end

