-- ==== Sys2Proof/Laws/Transfers.lean ====
section
/-! SUPPORT. The DMA primitives: what reading the source buffer answers and what writing the destination buffer leaves
(20_memory.md R103 to R108). -/

namespace Sys2Proof.Machine

/-! ## Reading the source buffer -/

theorem srcByte_readable {s : State} (h : sourceReadable s) {i : Nat} (hi : i < s.ops.srcLen.toNat) :
    srcByte s i = .ok (s.mem.read (s.ops.srcAddr.toNat + i)) := by
  simp [srcByte, memRead, h.2 i hi]

/-- A read that succeeds answers the byte of memory. -/
theorem srcByte_ok {s : State} {i : Nat} {b : Byte} (h : srcByte s i = .ok b) :
    b = s.mem.read (s.ops.srcAddr.toNat + i) := by
  unfold srcByte memRead at h
  split at h
  · injection h with h; exact h.symm
  · cases h

/-- On a source readable up to byte `n`, a read that ends there answers the bytes of memory. -/
theorem srcBytes_readableTo {s : State} {n : Nat} (h : sourceReadableTo s n) {c k : Nat} (hk : c + k ≤ n) :
    srcBytes s c k = .ok (bytesAt s.mem (s.ops.srcAddr.toNat + c) k) := by
  induction k generalizing c with
  | zero => rfl
  | succ k ih =>
    have hb : srcByte s c = .ok (s.mem.read (s.ops.srcAddr.toNat + c)) := by
      simp [srcByte, memRead, h c (by omega)]
    simp only [srcBytes, hb, ih (show c + 1 + k ≤ _ by omega)]
    rw [bytesAt_succ]
    rfl

theorem srcBytes_readable {s : State} (h : sourceReadable s) {c k : Nat} (hk : c + k ≤ s.ops.srcLen.toNat) :
    srcBytes s c k = .ok (bytesAt s.mem (s.ops.srcAddr.toNat + c) k) :=
  srcBytes_readableTo h.2 hk

/-- Bytes read are the bytes of memory. -/
theorem srcBytes_ok {s : State} {c k : Nat} {bs : List Byte} (h : srcBytes s c k = .ok bs) :
    bs = bytesAt s.mem (s.ops.srcAddr.toNat + c) k := by
  induction k generalizing c bs with
  | zero => simpa [srcBytes, bytesAt_zero] using h.symm
  | succ k ih =>
    simp only [srcBytes] at h
    cases hb : srcByte s c with
    | error e => rw [hb] at h; cases h
    | ok b =>
      cases hbs : srcBytes s (c + 1) k with
      | error e => rw [hb, hbs] at h; cases h
      | ok rest =>
        rw [hb, hbs] at h
        injection h with h
        rw [bytesAt_succ, ← h, srcByte_ok hb, ih hbs, Nat.add_assoc]

/-- The loop `f i b_0; f (i+1) b_1; …` over a byte string. -/
def overBytes {α : Type} (f : Nat → Byte → α → Except CmdError α) : Nat → List Byte → α → Except CmdError α
  | _, [], x => .ok x
  | i, b :: bs, x => do
    let y ← f i b x
    overBytes f (i + 1) bs y

/-- On a readable source the loop over the source is the loop over its bytes. -/
theorem forSrc_readable {α : Type} {s : State} (h : sourceReadable s) (f : Nat → Byte → α → Except CmdError α) {i k : Nat}
    (x : α) (hk : i + k ≤ s.ops.srcLen.toNat) :
    forSrc s f i k x = overBytes f i (bytesAt s.mem (s.ops.srcAddr.toNat + i) k) x := by
  induction k generalizing i x with
  | zero => rfl
  | succ k ih =>
    rw [bytesAt_succ]
    simp only [forSrc, overBytes, srcByte_readable h (show i < _ by omega)]
    cases hf : f i (s.mem.read (s.ops.srcAddr.toNat + i)) x with
    | error e => simp [bind, Except.bind, hf]
    | ok y =>
      simp only [bind, Except.bind, hf]
      rw [ih y (by omega), Nat.add_assoc]

/-- A loop over the source that ends without error is the loop over its bytes. -/
theorem forSrc_ok {α : Type} {s : State} {f : Nat → Byte → α → Except CmdError α} {i k : Nat} {x y : α}
    (h : forSrc s f i k x = .ok y) : overBytes f i (bytesAt s.mem (s.ops.srcAddr.toNat + i) k) x = .ok y := by
  induction k generalizing i x with
  | zero => exact h
  | succ k ih =>
    simp only [forSrc] at h
    cases hb : srcByte s i with
    | error e => rw [hb] at h; cases h
    | ok b =>
      rw [hb] at h
      cases hf : f i b x with
      | error e => simp only [bind, Except.bind, hf] at h; cases h
      | ok z =>
        simp only [bind, Except.bind, hf] at h
        rw [bytesAt_succ, ← srcByte_ok hb]
        simp only [overBytes, bind, Except.bind, hf]
        rw [Nat.add_assoc]
        exact ih h

/-- The loop over `k + m` source bytes is the loop over the first `k` and then over the rest. -/
theorem forSrc_append {α : Type} (s : State) (f : Nat → Byte → α → Except CmdError α) (i k m : Nat) (x : α) :
    forSrc s f i (k + m) x = (do let y ← forSrc s f i k x; forSrc s f (i + k) m y) := by
  induction k generalizing i x with
  | zero => simp [forSrc, bind, Except.bind]
  | succ k ih =>
    rw [show k + 1 + m = (k + m) + 1 by omega]
    simp only [forSrc]
    cases srcByte s i with
    | error e => rfl
    | ok b =>
      simp only [bind, Except.bind]
      cases f i b x with
      | error e => rfl
      | ok y => simp only []; rw [ih, show i + 1 + k = i + (k + 1) by omega]; rfl

/-- On a source readable up to byte `k` the loop over those bytes is the loop over their values. -/
theorem forSrc_readableTo {α : Type} {s : State} {k : Nat} (h : sourceReadableTo s k)
    (f : Nat → Byte → α → Except CmdError α) (x : α) :
    forSrc s f 0 k x = overBytes f 0 (bytesAt s.mem s.ops.srcAddr.toNat k) x := by
  suffices H : ∀ i m x, i + m ≤ k →
      forSrc s f i m x = overBytes f i (bytesAt s.mem (s.ops.srcAddr.toNat + i) m) x by
    simpa using H 0 k x (by omega)
  intro i m
  induction m generalizing i with
  | zero => intro x _; rfl
  | succ m ih =>
    intro x hm
    rw [bytesAt_succ]
    have hb : srcByte s i = .ok (s.mem.read (s.ops.srcAddr.toNat + i)) := by
      simp [srcByte, memRead, h i (by omega)]
    simp only [forSrc, overBytes, hb, bind, Except.bind]
    cases f i (s.mem.read (s.ops.srcAddr.toNat + i)) x with
    | error e => rfl
    | ok y => simp only []; rw [ih (i + 1) y (by omega), Nat.add_assoc]

/-- A loop that gets through the first `k` bytes and cannot go on at byte `k` ends with that byte's error. -/
theorem forSrc_stops {α : Type} {s : State} {f : Nat → Byte → α → Except CmdError α} {k n : Nat} {x y : α} {e : CmdError}
    (hk : k < n) (h : forSrc s f 0 k x = .ok y)
    (he : srcByte s k = .error e ∨ ∃ b, srcByte s k = .ok b ∧ f k b y = .error e) :
    forSrc s f 0 n x = .error e := by
  rw [show n = k + ((n - k - 1) + 1) by omega, forSrc_append, h]
  simp only [Nat.zero_add, bind, Except.bind, forSrc]
  rcases he with he | ⟨b, hb, he⟩
  · rw [he]
  · rw [hb]; simp only [he]

theorem srcByte_hole {s : State} {k : Nat} (h : Config.memOK s.cfg (s.ops.srcAddr.toNat + k) = false) :
    srcByte s k = .error ⟨.memFault, word (s.ops.srcAddr.toNat + k)⟩ := by
  simp [srcByte, memRead, h]

theorem srcByte_answers {s : State} {k : Nat} (h : Config.memOK s.cfg (s.ops.srcAddr.toNat + k) = true) :
    srcByte s k = .ok (sourceByte s k) := by
  simp [srcByte, memRead, h, sourceByte]

/-- Reading `n` bytes ends at the first one the platform does not answer for (R103). -/
theorem srcBytes_hole {s : State} {c k n : Nat} (hk : k < n)
    (h : ∀ j < k, Config.memOK s.cfg (s.ops.srcAddr.toNat + (c + j)) = true)
    (he : Config.memOK s.cfg (s.ops.srcAddr.toNat + (c + k)) = false) :
    srcBytes s c n = .error ⟨.memFault, word (s.ops.srcAddr.toNat + (c + k))⟩ := by
  induction k generalizing c n with
  | zero =>
    obtain ⟨n, rfl⟩ : ∃ m, n = m + 1 := ⟨n - 1, by omega⟩
    simp only [srcBytes, srcByte_hole (k := c) (by simpa using he)]
    simp [bind, Except.bind]
  | succ k ih =>
    obtain ⟨n, rfl⟩ : ∃ m, n = m + 1 := ⟨n - 1, by omega⟩
    have h0 := h 0 (by omega)
    have := ih (c := c + 1) (n := n) (by omega) (fun j hj => by simpa [Nat.add_assoc, Nat.add_comm 1] using h (j + 1) (by omega))
      (by simpa [Nat.add_assoc, Nat.add_comm 1] using he)
    simp only [srcBytes, srcByte_answers (k := c) (by simpa using h0), this]
    simp [bind, Except.bind, Nat.add_assoc, Nat.add_comm 1]

/-! ## Writing the destination buffer -/

/-- `DstPut` that succeeds: the byte lands within the buffer at the output count, which grows by one (R108). -/
theorem dstPut_ok {s : State} {v : Byte} {o o' : Output} (h : dstPut s v o = .ok o') :
    o.count < s.ops.dstCap.toNat ∧ o' = ⟨o.mem.write (s.ops.dstAddr.toNat + o.count) v, o.count + 1⟩ := by
  unfold dstPut at h
  split at h
  · cases h
  · split at h
    · injection h with h; exact ⟨by omega, h.symm⟩
    · cases h

/-- `DstPut` within the capacity at an address the platform answers for succeeds (R108). -/
theorem dstPut_writable {s : State} {v : Byte} {o : Output} (hc : o.count < s.ops.dstCap.toNat)
    (hm : Config.memOK s.cfg (s.ops.dstAddr.toNat + o.count) = true) :
    dstPut s v o = .ok ⟨o.mem.write (s.ops.dstAddr.toNat + o.count) v, o.count + 1⟩ := by
  simp [dstPut, hm, Nat.not_le.2 hc]

/-- A full buffer refuses the next byte with the output count as detail (R108). -/
theorem dstPut_full {s : State} {v : Byte} {o : Output} (hc : s.ops.dstCap.toNat ≤ o.count) :
    dstPut s v o = .error ⟨.dstOverflow, word o.count⟩ := by
  simp [dstPut, hc]

/-- What an emission that succeeds leaves: the count grown by the length and within the capacity, the bytes in place and
every other byte as before. -/
theorem dstPuts_ok {s : State} {vs : List Byte} {o o' : Output} (h : dstPuts s vs o = .ok o') (hw : o.mem.wf = true) :
    o'.count = o.count + vs.length ∧ (vs ≠ [] → o'.count ≤ s.ops.dstCap.toNat) ∧ o'.mem.wf = true ∧
      bytesAt o'.mem (s.ops.dstAddr.toNat + o.count) vs.length = vs ∧
      ∀ a, a < s.ops.dstAddr.toNat + o.count ∨ s.ops.dstAddr.toNat + o.count + vs.length ≤ a →
        o'.mem.read a = o.mem.read a := by
  induction vs generalizing o with
  | nil => injection h with h; subst h; simp [hw, bytesAt_zero]
  | cons v vs ih =>
    simp only [dstPuts] at h
    cases hp : dstPut s v o with
    | error e => rw [hp] at h; cases h
    | ok o1 =>
      rw [hp] at h
      obtain ⟨hlt, rfl⟩ := dstPut_ok hp
      obtain ⟨hc, hcap, hwf, hin, hout⟩ := ih h (Memory.write_wf _ _ hw)
      simp only [List.length_cons] at hc hcap hin hout ⊢
      refine ⟨by omega, fun _ => ?_, hwf, ?_, fun a ha => ?_⟩
      · by_cases hvs : vs = []
        · subst hvs; simp only [List.length_nil] at hc; omega
        · exact hcap hvs
      · rw [bytesAt_succ, hout _ (Or.inl (by omega)), Memory.read_write_same _ _ hw, Nat.add_assoc, hin]
      · rw [hout a (by omega), Memory.read_write_other _ (by omega)]

/-- An emission that fits, at addresses the platform answers for, succeeds (R108). -/
theorem dstPuts_writable {s : State} {vs : List Byte} {o : Output} (hc : o.count + vs.length ≤ s.ops.dstCap.toNat)
    (hm : ∀ i, o.count ≤ i → i < o.count + vs.length → Config.memOK s.cfg (s.ops.dstAddr.toNat + i) = true) :
    ∃ o', dstPuts s vs o = .ok o' := by
  induction vs generalizing o with
  | nil => exact ⟨o, rfl⟩
  | cons v vs ih =>
    simp only [List.length_cons] at hc hm
    simp only [dstPuts, dstPut_writable (v := v) (show o.count < _ by omega) (hm _ (by omega) (by omega))]
    exact ih (by simp only; omega) fun i hi hi' => hm i (by simp only at hi; omega) (by simp only at hi'; omega)

/-- An emission that gets through the first bytes and cannot write the next one ends with that byte's error. -/
theorem dstPuts_stops {s : State} {vs ws : List Byte} {w : Byte} {o o' : Output} {e : CmdError}
    (h : dstPuts s vs o = .ok o') (he : dstPut s w o' = .error e) : dstPuts s (vs ++ w :: ws) o = .error e := by
  induction vs generalizing o with
  | nil => injection h with h; subst h; simp [dstPuts, he, bind, Except.bind]
  | cons v vs ih =>
    simp only [List.cons_append, dstPuts] at h ⊢
    cases hp : dstPut s v o with
    | error e => rw [hp] at h; cases h
    | ok o1 => rw [hp] at h; exact ih h

/-- The count after an emission. -/
theorem dstPuts_count {s : State} {vs : List Byte} {o o' : Output} (h : dstPuts s vs o = .ok o') :
    o'.count = o.count + vs.length := by
  induction vs generalizing o with
  | nil => injection h with h; subst h; rfl
  | cons v vs ih =>
    simp only [dstPuts] at h
    cases hp : dstPut s v o with
    | error e => rw [hp] at h; cases h
    | ok o1 =>
      rw [hp] at h
      obtain ⟨-, rfl⟩ := dstPut_ok hp
      rw [ih h]; simp only [List.length_cons]; omega

/-- A full destination ends an emission with `DST_OVERFLOW(DST_CAP)` (R108). -/
theorem emit_overflow {s : State} {vs : List Byte} (h : s.ops.dstCap.toNat < vs.length)
    (hm : destAnswersTo s s.ops.dstCap.toNat) : emit s vs = .error ⟨.dstOverflow, s.ops.dstCap⟩ := by
  obtain ⟨o, ho⟩ := dstPuts_writable (s := s) (vs := vs.take s.ops.dstCap.toNat) (o := ⟨s.mem, 0⟩)
    (by simp) (fun i _ hi => hm i (by simp at hi; omega))
  have hc : o.count = s.ops.dstCap.toNat := by rw [dstPuts_count ho]; simp; omega
  have hd : dstPut s (vs[s.ops.dstCap.toNat]'h) o = .error ⟨.dstOverflow, s.ops.dstCap⟩ := by
    rw [dstPut_full (by omega), hc]; simp [word]
  have hs : vs = vs.take s.ops.dstCap.toNat ++ vs[s.ops.dstCap.toNat]'h :: vs.drop (s.ops.dstCap.toNat + 1) := by
    rw [← List.drop_eq_getElem_cons h, List.take_append_drop]
  have := dstPuts_stops ho hd (ws := vs.drop (s.ops.dstCap.toNat + 1))
  rw [← hs] at this
  simp only [emit, this]; rfl

/-- An emission ends at the first byte the platform does not answer for (R103). -/
theorem emit_hole {s : State} {vs : List Byte} {k : Nat} (h : k < vs.length) (hc : k < s.ops.dstCap.toNat)
    (hm : destAnswersTo s k) (he : Config.memOK s.cfg (s.ops.dstAddr.toNat + k) = false) :
    emit s vs = .error ⟨.memFault, word (s.ops.dstAddr.toNat + k)⟩ := by
  obtain ⟨o, ho⟩ := dstPuts_writable (s := s) (vs := vs.take k) (o := ⟨s.mem, 0⟩)
    (by simp; omega) (fun i _ hi => hm i (by simp at hi; omega))
  have ho' : o.count = k := by rw [dstPuts_count ho]; simp; omega
  have hd : dstPut s (vs[k]'h) o = .error ⟨.memFault, word (s.ops.dstAddr.toNat + k)⟩ := by
    simp [dstPut, ho', Nat.not_le.2 hc, he]
  have hs : vs = vs.take k ++ vs[k]'h :: vs.drop (k + 1) := by
    rw [← List.drop_eq_getElem_cons h, List.take_append_drop]
  have := dstPuts_stops ho hd (ws := vs.drop (k + 1))
  rw [← hs] at this
  simp only [emit, this]; rfl

/-- An emission keeps memory legal when the destination region is within DMA space. -/
theorem dstPuts_legal {s : State} {vs : List Byte} {o o' : Output} (h : dstPuts s vs o = .ok o')
    (hr : regionOk s.cfg s.ops.dstAddr s.ops.dstCap = true) (hl : o.mem.legal s.cfg) : o'.mem.legal s.cfg := by
  induction vs generalizing o with
  | nil => injection h with h; exact h ▸ hl
  | cons v vs ih =>
    simp only [dstPuts] at h
    cases hp : dstPut s v o with
    | error e => rw [hp] at h; cases h
    | ok o1 =>
      rw [hp] at h
      obtain ⟨hlt, rfl⟩ := dstPut_ok hp
      refine ih h (Memory.write_legal _ hl ?_)
      simp only [regionOk, Bool.or_eq_true, decide_eq_true_eq] at hr
      omega

/-- An emission that succeeds: the state it leaves, and what its memory holds. -/
theorem emit_ok {s t : State} {vs : List Byte} (h : emit s vs = .ok t) (hw : s.mem.wf = true) :
    t = { s with mem := t.mem, res := { s.res with outLen := word vs.length } } ∧
      vs.length ≤ s.ops.dstCap.toNat ∧ WroteDest s t vs := by
  simp only [emit] at h
  cases hp : dstPuts s vs ⟨s.mem, 0⟩ with
  | error e => rw [hp] at h; cases h
  | ok o =>
    rw [hp] at h
    injection h with h
    obtain ⟨hc, hcap, -, hin, hout⟩ := dstPuts_ok hp hw
    simp only [Nat.zero_add, Nat.add_zero] at hc hin hout
    subst h
    refine ⟨by simp [State.withOutput, hc], ?_, hin, hout⟩
    by_cases hvs : vs = []
    · simp [hvs]
    · have := hcap hvs; omega

/-- An emission into a writable destination succeeds. -/
theorem emit_writable {s : State} {vs : List Byte} (h : destWritable s vs.length) : ∃ t, emit s vs = .ok t := by
  obtain ⟨o, ho⟩ := dstPuts_writable (s := s) (vs := vs) (o := ⟨s.mem, 0⟩) (by simpa using h.2.1)
    (fun i _ hi => h.2.2 i (by simpa using hi))
  exact ⟨s.withOutput o, by simp only [emit, ho]; rfl⟩

end Sys2Proof.Machine
end

