-- ==== Sys2Proof/Laws/Commands.lean ====
section
/-! SUPPORT. The life of a command said once: how a command ends, what its body may not touch, and what ending with an
error leaves (40_command.md R181 to R187; 60_exceptions.md R505, R509). -/

namespace Sys2Proof.Machine

/-! ## Sequencing -/

/-- A sequence ends without error when both parts do. -/
theorem bind_eq_ok {α β : Type} {x : Except CmdError α} {f : α → Except CmdError β} {r : β} :
    (x >>= f) = .ok r ↔ ∃ a, x = .ok a ∧ f a = .ok r := by
  cases x <;> simp [bind, Except.bind]

/-- A sequence ends with the error of the first part that has one. -/
theorem bind_eq_error {α β : Type} {x : Except CmdError α} {f : α → Except CmdError β} {e : CmdError} :
    (x >>= f) = .error e ↔ x = .error e ∨ ∃ a, x = .ok a ∧ f a = .error e := by
  cases x <;> simp [bind, Except.bind]

@[simp] theorem ok_bind {α β : Type} (a : α) (f : α → Except CmdError β) : (Except.ok a >>= f) = f a := rfl

@[simp] theorem error_bind {α β : Type} (e : CmdError) (f : α → Except CmdError β) :
    ((Except.error e : Except CmdError α) >>= f) = .error e := rfl

@[simp] theorem check_ok {ok : Bool} {e : CmdError} {u : Unit} : check ok e = .ok u ↔ ok = true := by
  cases ok <;> simp [check]

@[simp] theorem check_error {ok : Bool} {e e' : CmdError} : check ok e = .error e' ↔ ok = false ∧ e = e' := by
  cases ok <;> simp [check]

@[simp] theorem require_some {α : Type} (v : α) (part : Struct) : require (some v) part = .ok v := rfl

@[simp] theorem require_none {α : Type} (part : Struct) :
    require (none : Option α) part = .error ⟨.notReady, part.number⟩ := rfl

theorem require_eq_ok {α : Type} {x : Option α} {part : Struct} {v : α} : require x part = .ok v ↔ x = some v := by
  cases x <;> simp [require]

/-! ## The checks on the buffers -/

theorem checkBuffers_eq_ok {i : Instr} {s : State} :
    checkBuffers i s = .ok () ↔
      (readsSrc i = true → regionOk s.cfg s.ops.srcAddr s.ops.srcLen = true) ∧
      (writesDst i = true → regionOk s.cfg s.ops.dstAddr s.ops.dstCap = true) ∧
      (readsSrc i = true → writesDst i = true → buffersOverlap s.ops = false) := by
  unfold checkBuffers
  simp only [bind_eq_ok, check_ok]
  cases readsSrc i <;> cases writesDst i <;> simp

/-- The region check of R102, with its sum exact. -/
theorem regionOk_iff {c : Config} {addr len : Word} :
    regionOk c addr len = true ↔ len.toNat = 0 ∨ addr.toNat + len.toNat ≤ 2 ^ c.addrW := by
  unfold regionOk Config.space
  rw [Bool.or_eq_true, decide_eq_true_iff, decide_eq_true_iff]

/-- The lists of R146 and the flags of the commands say the same. -/
theorem mem_srcReaders {i : Instr} : i ∈ srcReaders ↔ readsSrc i = true := by cases i <;> decide

theorem mem_dstWriters {i : Instr} : i ∈ dstWriters ↔ writesDst i = true := by cases i <;> decide

theorem disjoint_iff {s : State} : buffersOverlap s.ops = false ↔ disjointBuffers s := by
  rw [← Bool.not_eq_true]
  simp only [buffersOverlap, Bool.and_eq_true, decide_eq_true_eq]
  unfold disjointBuffers
  omega

/-! ## Every command through one shape -/

/-- The checks and the body of a command, in the order of R510. -/
def body : Instr → State → Except CmdError State
  | .nop, s => .ok s
  | .compress, s => do
    checkBuffers .compress s
    compressBody s
  | .decompress, s => do
    checkBuffers .decompress s
    if s.ops.srcLen.toNat = 0 then .ok s.emptyOutput else decompressBody s
  | .freqClear, s => .ok (s.setFt (some FreqTable.empty))
  | .freqCount, s => do
    checkBuffers .freqCount s
    freqCountBody s
  | .freqWrite, s => freqWriteBody s
  | .freqRemove, s => freqRemoveBody s
  | .freqRead, s => freqReadBody s
  | .treeBuild, s => treeBuildBody s
  | .nodeRead, s => nodeReadBody s
  | .encmapGen, s => encmapGenBody s
  | .lutRead, s => lutReadBody s
  | .decmapGen, s => decmapGenBody s
  | .fsmRead, s => fsmReadBody s
  | .bbClear, s => .ok (s.setBb (some .empty))
  | .bbAppendBit, s => bbAppendBitBody s
  | .bbAppendMany, s => bbAppendManyBody s
  | .bbGetBit, s => bbGetBitBody s
  | .bbLength, s => bbLengthBody s
  | .bbStore, s => bbStoreBody s
  | .viMinWidth, s => .ok (s.setResult0 (word (minWidth (valueOperand s))))
  | .viPack, s => viPackBody s
  | .viUnpack, s => viUnpackBody s
  | .ctSerialize, s => do
    checkBuffers .ctSerialize s
    ctSerializeBody s
  | .ctDeserialize, s => do
    checkBuffers .ctDeserialize s
    ctDeserializeBody s
  | .encode, s => do
    checkBuffers .encode s
    encodeBody s
  | .decode, s => do
    checkBuffers .decode s
    decodeBody s

/-- Every command is its checks and body, then its completion. -/
theorem exec_eq_finish (i : Instr) (s : State) : exec i s = finish i s (body i s) := by
  cases i <;> rfl

/-- The two ways a command ends. -/
theorem exec_cases {i : Instr} {s : State} {o : Host.Outcome State Fault Refusal} (h : exec i s = o) :
    (∃ t, body i s = .ok t ∧ o = .next t.complete) ∨
      (∃ e, body i s = .error e ∧ o = .next (s.raise (writesStructs i) (writesDst i) e)) := by
  rw [exec_eq_finish] at h
  cases hb : body i s with
  | ok t => exact .inl ⟨t, rfl, by rw [← h, hb]; rfl⟩
  | error e => exact .inr ⟨e, rfl, by rw [← h, hb]; rfl⟩

/-- A body that ends without error gives the command's next state. -/
theorem exec_of_body {i : Instr} {s t : State} (h : body i s = .ok t) : exec i s = .next t.complete := by
  rw [exec_eq_finish, h]; rfl

/-- A body that ends with an error ends the command with it. -/
theorem endsWith_of_body {i : Instr} {s : State} {code : ErrCode} {info : Word}
    (h : body i s = .error ⟨code, info⟩) : endsWith i s code info := by
  unfold endsWith; rw [exec_eq_finish, h]; rfl

/-- A command whose buffers fail their checks ends with that error. -/
theorem body_of_checkBuffers {i : Instr} {s : State} {e : CmdError} (hi : i ∈ srcReaders ∨ i ∈ dstWriters)
    (h : checkBuffers i s = .error e) : body i s = .error e := by
  cases i <;> first
    | (exfalso; revert hi; decide)
    | simp [body, bbAppendManyBody, bbStoreBody, viPackBody, viUnpackBody, h]

/-! ## What a body may not touch -/

/-- `t` differs from `s` at most in the structures, in memory, and in `OUT_LEN`, `RESULT0` and `RESULT1`. -/
structure KeepsControl (s t : State) : Prop where
  cfg : t.cfg = s.cfg
  cmd : t.cmd = s.cmd
  status : t.status = s.status
  irqEn : t.irqEn = s.irqEn
  ops : t.ops = s.ops
  errInfo : t.res.errInfo = s.res.errInfo
  host : t.host = s.host
  turns : t.turns = s.turns
  cache : t.cache = s.cache
  hostData : t.hostData = s.hostData
  draws : t.draws = s.draws

theorem KeepsControl.refl (s : State) : KeepsControl s s := by constructor <;> rfl

theorem KeepsControl.trans {s t u : State} (h : KeepsControl s t) (h' : KeepsControl t u) : KeepsControl s u where
  cfg := h'.cfg.trans h.cfg
  cmd := h'.cmd.trans h.cmd
  status := h'.status.trans h.status
  irqEn := h'.irqEn.trans h.irqEn
  ops := h'.ops.trans h.ops
  errInfo := h'.errInfo.trans h.errInfo
  host := h'.host.trans h.host
  turns := h'.turns.trans h.turns
  cache := h'.cache.trans h.cache
  hostData := h'.hostData.trans h.hostData
  draws := h'.draws.trans h.draws

theorem setTree_keeps (s : State) (t : Option Tree) : KeepsControl s (s.setTree t) := by constructor <;> rfl
theorem setFt_keeps (s : State) (t : Option FreqTable) : KeepsControl s (s.setFt t) := by constructor <;> rfl
theorem setLut_keeps (s : State) (l : Option Lut) : KeepsControl s (s.setLut l) := by constructor <;> rfl
theorem setFsm_keeps (s : State) (f : Option Fsm) : KeepsControl s (s.setFsm f) := by constructor <;> rfl
theorem setBb_keeps (s : State) (b : Option BitBuffer) : KeepsControl s (s.setBb b) := by constructor <;> rfl
theorem setResult0_keeps (s : State) (v : Word) : KeepsControl s (s.setResult0 v) := by constructor <;> rfl
theorem setResults_keeps (s : State) (v w : Word) : KeepsControl s (s.setResults v w) := by constructor <;> rfl
theorem setOutLen_keeps (s : State) (v : Word) : KeepsControl s (s.setOutLen v) := by constructor <;> rfl
theorem withOutput_keeps (s : State) (o : Output) : KeepsControl s (s.withOutput o) := by constructor <;> rfl

theorem emit_keeps {s t : State} {vs : List Byte} (h : emit s vs = .ok t) : KeepsControl s t := by
  obtain ⟨o, -, h⟩ := bind_eq_ok.1 h
  injection h with h
  exact h ▸ withOutput_keeps s o

theorem freqCountBody_keeps {s t : State} (h : freqCountBody s = .ok t) : KeepsControl s t := by
  obtain ⟨x, -, h⟩ := bind_eq_ok.1 h
  injection h with h
  exact h ▸ (setFt_keeps s _).trans (setResult0_keeps _ _)

theorem treeBuildBody_keeps {s t : State} (h : treeBuildBody s = .ok t) : KeepsControl s t := by
  obtain ⟨x, -, h⟩ := bind_eq_ok.1 h
  obtain ⟨r, -, h⟩ := bind_eq_ok.1 h
  cases r <;> injection h with h <;> exact h ▸ (setTree_keeps s _).trans (setResults_keeps _ _ _)

theorem encmapGenBody_keeps {s t : State} (h : encmapGenBody s = .ok t) : KeepsControl s t := by
  obtain ⟨x, -, h⟩ := bind_eq_ok.1 h
  injection h with h
  exact h ▸ (setLut_keeps s _).trans (setResults_keeps _ _ _)

theorem decmapGenBody_keeps {s t : State} (h : decmapGenBody s = .ok t) : KeepsControl s t := by
  obtain ⟨x, -, h⟩ := bind_eq_ok.1 h
  injection h with h
  exact h ▸ (setFsm_keeps s _).trans (setResults_keeps _ _ _)

theorem encodeBody_keeps {s t : State} (h : encodeBody s = .ok t) : KeepsControl s t := by
  obtain ⟨x, -, h⟩ := bind_eq_ok.1 h
  obtain ⟨b, -, h⟩ := bind_eq_ok.1 h
  injection h with h
  exact h ▸ (setBb_keeps s _).trans (setResult0_keeps _ _)

theorem decodeBody_keeps {s t : State} (h : decodeBody s = .ok t) : KeepsControl s t := by
  obtain ⟨f, -, h⟩ := bind_eq_ok.1 h
  obtain ⟨b, -, h⟩ := bind_eq_ok.1 h
  obtain ⟨o, -, h⟩ := bind_eq_ok.1 h
  injection h with h
  exact h ▸ withOutput_keeps s o

theorem ctSerializeBody_keeps {s t : State} (h : ctSerializeBody s = .ok t) : KeepsControl s t := by
  obtain ⟨f, -, h⟩ := bind_eq_ok.1 h
  obtain ⟨b, -, h⟩ := bind_eq_ok.1 h
  exact emit_keeps h

theorem ctDeserializeBody_keeps {s t : State} (h : ctDeserializeBody s = .ok t) : KeepsControl s t := by
  obtain ⟨r, -, h⟩ := bind_eq_ok.1 h
  injection h with h
  exact h ▸ ((setFt_keeps s _).trans (setBb_keeps _ _)).trans (setResults_keeps _ _ _)

theorem emptyOutput_keeps (s : State) : KeepsControl s s.emptyOutput :=
  (setOutLen_keeps s 0).trans (setResults_keeps _ 0 0)

theorem compressBody_keeps {s t : State} (h : compressBody s = .ok t) : KeepsControl s t := by
  obtain ⟨s1, h1, h⟩ := bind_eq_ok.1 h
  obtain ⟨s2, h2, h⟩ := bind_eq_ok.1 h
  have k2 := (freqCountBody_keeps h1).trans (treeBuildBody_keeps h2)
  cases ht : s2.tree with
  | none =>
    rw [ht] at h
    injection h with h
    exact h ▸ k2.trans (emptyOutput_keeps s2)
  | some tr =>
    rw [ht] at h
    obtain ⟨s3, h3, h⟩ := bind_eq_ok.1 h
    obtain ⟨s4, h4, h⟩ := bind_eq_ok.1 h
    obtain ⟨s5, h5, h⟩ := bind_eq_ok.1 h
    obtain ⟨b, -, h⟩ := bind_eq_ok.1 h
    obtain ⟨l, -, h⟩ := bind_eq_ok.1 h
    injection h with h
    exact h ▸ (((k2.trans (encmapGenBody_keeps h3)).trans (encodeBody_keeps h4)).trans
      (ctSerializeBody_keeps h5)).trans (setResults_keeps _ _ _)

theorem decompressOutput_keeps {s t : State} (h : decompressOutput s = .ok t) : KeepsControl s t := by
  unfold decompressOutput at h
  split at h
  · injection h with h
    exact h ▸ setOutLen_keeps s 0
  · obtain ⟨s3, h3, h⟩ := bind_eq_ok.1 h
    exact (decmapGenBody_keeps h3).trans (decodeBody_keeps h)

theorem decompressBody_keeps {s t : State} (h : decompressBody s = .ok t) : KeepsControl s t := by
  obtain ⟨s1, h1, h⟩ := bind_eq_ok.1 h
  obtain ⟨ft, -, h⟩ := bind_eq_ok.1 h
  obtain ⟨b, -, h⟩ := bind_eq_ok.1 h
  obtain ⟨s2, h2, h⟩ := bind_eq_ok.1 h
  obtain ⟨s4, h4, h⟩ := bind_eq_ok.1 h
  injection h with h
  have k2 := (ctDeserializeBody_keeps h1).trans (treeBuildBody_keeps h2)
  refine h ▸ KeepsControl.trans ?_ (setResults_keeps s4 _ _)
  exact k2.trans (decompressOutput_keeps h4)

/-- No command's body touches the parameters, `CMD`, `STATUS`, `IRQ_EN`, an operand register, `ERR_INFO` or the host's own
fields (R45, R187). -/
theorem body_keeps {i : Instr} {s t : State} (h : body i s = .ok t) : KeepsControl s t := by
  cases i <;> simp only [body] at h
  case nop => injection h with h; exact h ▸ KeepsControl.refl s
  case compress => obtain ⟨-, -, h⟩ := bind_eq_ok.1 h; exact compressBody_keeps h
  case decompress =>
    obtain ⟨-, -, h⟩ := bind_eq_ok.1 h
    split at h
    · injection h with h; exact h ▸ emptyOutput_keeps s
    · exact decompressBody_keeps h
  case freqClear => injection h with h; exact h ▸ setFt_keeps s _
  case freqCount => obtain ⟨-, -, h⟩ := bind_eq_ok.1 h; exact freqCountBody_keeps h
  case freqWrite =>
    obtain ⟨b, -, h⟩ := bind_eq_ok.1 h
    obtain ⟨x, -, h⟩ := bind_eq_ok.1 h
    injection h with h; exact h ▸ setFt_keeps s _
  case freqRemove =>
    obtain ⟨b, -, h⟩ := bind_eq_ok.1 h
    obtain ⟨x, -, h⟩ := bind_eq_ok.1 h
    injection h with h; exact h ▸ setFt_keeps s _
  case freqRead =>
    obtain ⟨b, -, h⟩ := bind_eq_ok.1 h
    obtain ⟨x, -, h⟩ := bind_eq_ok.1 h
    injection h with h; exact h ▸ setResults_keeps s _ _
  case treeBuild => exact treeBuildBody_keeps h
  case nodeRead =>
    obtain ⟨b, -, h⟩ := bind_eq_ok.1 h
    obtain ⟨x, -, h⟩ := bind_eq_ok.1 h
    injection h with h; exact h ▸ setResults_keeps s _ _
  case encmapGen => exact encmapGenBody_keeps h
  case lutRead =>
    obtain ⟨b, -, h⟩ := bind_eq_ok.1 h
    obtain ⟨x, -, h⟩ := bind_eq_ok.1 h
    obtain ⟨y, -, h⟩ := bind_eq_ok.1 h
    injection h with h; exact h ▸ setResults_keeps s _ _
  case decmapGen => exact decmapGenBody_keeps h
  case fsmRead =>
    obtain ⟨b, -, h⟩ := bind_eq_ok.1 h
    obtain ⟨x, -, h⟩ := bind_eq_ok.1 h
    injection h with h; exact h ▸ setResults_keeps s _ _
  case bbClear => injection h with h; exact h ▸ setBb_keeps s _
  case bbAppendBit =>
    obtain ⟨b, -, h⟩ := bind_eq_ok.1 h
    obtain ⟨x, -, h⟩ := bind_eq_ok.1 h
    obtain ⟨y, -, h⟩ := bind_eq_ok.1 h
    injection h with h; exact h ▸ (setBb_keeps s _).trans (setResult0_keeps _ _)
  case bbAppendMany =>
    obtain ⟨-, -, h⟩ := bind_eq_ok.1 h
    obtain ⟨b, -, h⟩ := bind_eq_ok.1 h
    obtain ⟨x, -, h⟩ := bind_eq_ok.1 h
    injection h with h; exact h ▸ (setBb_keeps s _).trans (setResult0_keeps _ _)
  case bbGetBit =>
    obtain ⟨b, -, h⟩ := bind_eq_ok.1 h
    split at h <;> injection h with h <;> exact h ▸ setResults_keeps s _ _
  case bbLength =>
    obtain ⟨b, -, h⟩ := bind_eq_ok.1 h
    injection h with h; exact h ▸ setResults_keeps s _ _
  case bbStore =>
    obtain ⟨-, -, h⟩ := bind_eq_ok.1 h
    obtain ⟨b, -, h⟩ := bind_eq_ok.1 h
    exact emit_keeps h
  case viMinWidth => injection h with h; exact h ▸ setResult0_keeps s _
  case viPack =>
    obtain ⟨-, -, h⟩ := bind_eq_ok.1 h
    obtain ⟨b, -, h⟩ := bind_eq_ok.1 h
    exact emit_keeps h
  case viUnpack =>
    obtain ⟨-, -, h⟩ := bind_eq_ok.1 h
    obtain ⟨-, -, h⟩ := bind_eq_ok.1 h
    obtain ⟨b, -, h⟩ := bind_eq_ok.1 h
    obtain ⟨v, -, h⟩ := bind_eq_ok.1 h
    injection h with h; exact h ▸ setResult0_keeps s _
  case ctSerialize => obtain ⟨-, -, h⟩ := bind_eq_ok.1 h; exact ctSerializeBody_keeps h
  case ctDeserialize => obtain ⟨-, -, h⟩ := bind_eq_ok.1 h; exact ctDeserializeBody_keeps h
  case encode => obtain ⟨-, -, h⟩ := bind_eq_ok.1 h; exact encodeBody_keeps h
  case decode => obtain ⟨-, -, h⟩ := bind_eq_ok.1 h; exact decodeBody_keeps h

/-! ## Ending with an error -/

/-- Clearing valid flags touches the structures only. -/
theorem invalidateAll_keeps (s : State) (l : List Struct) :
    KeepsControl s (s.invalidateAll l) ∧ (s.invalidateAll l).res = s.res ∧ (s.invalidateAll l).mem = s.mem := by
  induction l generalizing s with
  | nil => exact ⟨KeepsControl.refl s, rfl, rfl⟩
  | cons p l ih =>
    have h : KeepsControl s (s.invalidate p) ∧ (s.invalidate p).res = s.res ∧ (s.invalidate p).mem = s.mem := by
      cases p <;> exact ⟨by constructor <;> rfl, rfl, rfl⟩
    obtain ⟨h1, h2, h3⟩ := ih (s.invalidate p)
    exact ⟨h.1.trans h1, h2.trans h.2.1, h3.trans h.2.2⟩

/-- What ending with an error leaves outside the structures, memory and the result registers (R505, R509 item 5). -/
theorem raise_control (s : State) (l : List Struct) (d : Bool) (e : CmdError) :
    (s.raise l d e).cfg = s.cfg ∧ (s.raise l d e).cmd = s.cmd ∧ (s.raise l d e).irqEn = s.irqEn ∧
      (s.raise l d e).ops = s.ops ∧ (s.raise l d e).host = s.host ∧ (s.raise l d e).turns = s.turns ∧
      (s.raise l d e).cache = s.cache ∧ (s.raise l d e).hostData = s.hostData ∧
      (s.raise l d e).status = s.status.failed e.code := by
  obtain ⟨k, -, -⟩ := invalidateAll_keeps s l
  cases d <;> simp [State.raise, k.cfg, k.cmd, k.irqEn, k.ops, k.host, k.turns, k.cache, k.hostData, k.status]

/-- The result registers after an error: `OUT_LEN` 0 and the detail value (R505, R509 items 1 and 2). -/
theorem raise_results (s : State) (l : List Struct) (d : Bool) (e : CmdError) :
    (s.raise l d e).res.outLen = 0 ∧ (s.raise l d e).res.errInfo = e.info := by
  cases d <;> exact ⟨rfl, rfl⟩

/-- Memory after an error: as before, or with free bytes in the destination buffer (R509 item 3). -/
theorem raise_mem (s : State) (l : List Struct) (d : Bool) (e : CmdError) :
    (s.raise l d e).mem =
      if d then s.mem.fill (Config.freeByte s.draws) s.dstExtent s.ops.dstAddr.toNat else s.mem := by
  obtain ⟨k, -, hm⟩ := invalidateAll_keeps s l
  cases d <;> simp [State.raise, hm, k.ops, k.cfg, k.draws, State.dstExtent]

/-- The structures after an error are those the flags cleared (R509 item 4). -/
theorem raise_structs (s : State) (l : List Struct) (d : Bool) (e : CmdError) :
    (s.raise l d e).ft = (s.invalidateAll l).ft ∧ (s.raise l d e).tree = (s.invalidateAll l).tree ∧
      (s.raise l d e).lut = (s.invalidateAll l).lut ∧ (s.raise l d e).fsm = (s.invalidateAll l).fsm ∧
      (s.raise l d e).bb = (s.invalidateAll l).bb := by
  cases d <;> exact ⟨rfl, rfl, rfl, rfl, rfl⟩

/-! ## Every command ends -/

/-- Every command ends in a next state, with `BUSY` 0 (R183). -/
theorem exec_ends (i : Instr) (s : State) : ∃ t, exec i s = .next t ∧ t.status.busy = false := by
  rcases exec_cases (rfl : exec i s = _) with ⟨t, -, h⟩ | ⟨e, -, h⟩
  · exact ⟨_, h, rfl⟩
  · refine ⟨_, h, ?_⟩
    rw [(raise_control s _ _ e).2.2.2.2.2.2.2.2]
    rfl

end Sys2Proof.Machine
end

