-- ==== Sys2Proof/Laws/Bits.lean ====
section
/-! SUPPORT. The bit buffer: what an append leaves, bit by bit, and the legal form it keeps (10_state.md R70, R71;
41_bitbuffer.md R210 to R213). -/

namespace Sys2Proof.Machine

/-! ## Storage bytes -/

theorem setByte_length {st : List Byte} {q : Nat} (v : Byte) (h : q ≤ st.length) :
    (setByte st q v).length = max st.length (q + 1) := by
  simp [setByte]; omega

theorem setByte_getD {st : List Byte} {q : Nat} (v : Byte) (h : q ≤ st.length) (j : Nat) :
    (setByte st q v).getD j 0 = if j = q then v else st.getD j 0 := by
  simp only [setByte, List.getD_eq_getElem?_getD, List.getElem?_append, List.length_take, Nat.min_eq_left h]
  by_cases hj : j < q
  · simp [hj, Nat.ne_of_lt hj]
  · by_cases hq : j = q
    · simp [hq]
    · have : j - q = (j - q - 1) + 1 := by omega
      simp only [hj, if_false, hq]
      rw [this, List.getElem?_cons_succ, List.getElem?_drop]
      congr 3; omega

/-! ## Appending one bit -/

/-- The shape R70 and R71 ask of a buffer, whatever the capacity. -/
def BitBuffer.shaped (b : BitBuffer) : Prop :=
  b.st.length = ceil8 b.n ∧ (b.n % 8 ≠ 0 → b.st.getD (b.n / 8) 0 >>> (b.n % 8) = 0)

theorem BitBuffer.legal_iff {c : Config} {b : BitBuffer} : b.legal c ↔ b.n ≤ 8 * c.capBytes ∧ b.shaped := Iff.rfl

theorem BitBuffer.empty_shaped : BitBuffer.empty.shaped := ⟨rfl, fun h => absurd rfl h⟩

/-- A byte with no bit at `r` or above stays below `2^(r+1)` with bit `r` set or not. -/
theorem byte_or_shift (v : Byte) (t : Bool) (r : Nat) (hr : r < 8) (hv : v >>> r = 0) :
    (v ||| (if t then (1 : Byte) else 0) <<< r) >>> (r + 1) = 0 ∧
      ∀ j < 8, (v ||| (if t then (1 : Byte) else 0) <<< r).getLsbD j = if j = r then t else v.getLsbD j := by
  have hz : ∀ j, r ≤ j → v.getLsbD j = false := by
    intro j hj
    have := congrArg (fun x => x.getLsbD (j - r)) hv
    simpa [BitVec.getLsbD_ushiftRight, Nat.add_sub_cancel' hj] using this
  have hb : ∀ j, (v ||| (if t then (1 : Byte) else 0) <<< r).getLsbD j
      = (v.getLsbD j || (decide (j < 8) && decide (j = r) && t)) := by
    intro j
    cases t
    · simp
    · simp only [if_true, BitVec.getLsbD_or, BitVec.getLsbD_shiftLeft]
      by_cases h1 : j < r
      · have : j ≠ r := by omega
        simp [h1, this]
      · by_cases h2 : j = r
        · subst h2; simp
        · have : j - r ≠ 0 := by omega
          simp [h1, h2, this]
  constructor
  · apply BitVec.eq_of_getLsbD_eq
    intro j hj
    rw [BitVec.getLsbD_ushiftRight, hb, hz _ (by omega)]
    have : ¬ (r + 1 + j = r) := by omega
    simp [this]
  · intro j hj
    rw [hb]
    by_cases h2 : j = r
    · subst h2; rw [hz j (Nat.le_refl _)]; simp [hj]
    · simp [h2]

/-- `AppendBit` keeps the shape (R71). -/
theorem BitBuffer.push_shaped {b : BitBuffer} (t : Bool) (h : b.shaped) : (b.push t).shaped := by
  obtain ⟨hl, hp⟩ := h
  by_cases hr : b.n % 8 = 0
  · have hq : b.n / 8 ≤ b.st.length := by rw [hl]; unfold ceil8; omega
    have hd : (b.n + 1) / 8 = b.n / 8 := by omega
    constructor
    · simp only [BitBuffer.push, hr, if_true]
      rw [setByte_length _ hq, hl]; unfold ceil8; omega
    · intro _
      simp only [BitBuffer.push, hr, if_true]
      rw [setByte_getD _ hq, hd, if_pos rfl, show (b.n + 1) % 8 = 1 by omega]
      cases t <;> decide
  · have hq : b.n / 8 ≤ b.st.length := by rw [hl]; unfold ceil8; omega
    constructor
    · simp only [BitBuffer.push, hr, if_false]
      rw [setByte_length _ hq, hl]; unfold ceil8; omega
    · intro h8
      have hd : (b.n + 1) / 8 = b.n / 8 := by simp only [BitBuffer.push] at h8; omega
      simp only [BitBuffer.push, hr, if_false]
      rw [setByte_getD _ hq, hd, if_pos rfl, show (b.n + 1) % 8 = b.n % 8 + 1 by simp only [BitBuffer.push] at h8; omega]
      exact (byte_or_shift _ t _ (Nat.mod_lt _ (by decide)) (hp hr)).1

/-- `AppendBit` changes no bit already there and adds the new one at the old bit count (R211, R212). -/
theorem BitBuffer.getBit_push {b : BitBuffer} (t : Bool) (h : b.shaped) (i : Nat) :
    (b.push t).getBit i = if i < b.n then b.getBit i else if i = b.n then some t else none := by
  obtain ⟨hl, hp⟩ := h
  have hq : b.n / 8 ≤ b.st.length := by rw [hl]; unfold ceil8; omega
  have hi8 : i % 8 < 8 := Nat.mod_lt _ (by decide)
  by_cases hlt : i < b.n
  · simp only [BitBuffer.getBit, BitBuffer.push, hlt, if_true, Nat.not_le.2 hlt, Nat.not_le.2 (Nat.lt_succ_of_lt hlt),
      if_false]
    congr 1
    by_cases hr : b.n % 8 = 0
    · simp only [hr, if_true]
      rw [setByte_getD _ hq, if_neg (by omega)]
    · simp only [hr, if_false]
      rw [setByte_getD _ hq]
      by_cases he : i / 8 = b.n / 8
      · rw [if_pos he, (byte_or_shift _ t _ (Nat.mod_lt _ (by decide)) (hp hr)).2 _ hi8, if_neg (by omega), he]
      · rw [if_neg he]
  · by_cases he : i = b.n
    · subst he
      simp only [BitBuffer.getBit, BitBuffer.push, Nat.lt_irrefl, if_false, if_true,
        Nat.not_le.2 (Nat.lt_succ_self _)]
      congr 1
      by_cases hr : b.n % 8 = 0
      · simp only [hr, if_true]
        rw [setByte_getD _ hq, if_pos rfl]
        cases t <;> decide
      · simp only [hr, if_false]
        rw [setByte_getD _ hq, if_pos rfl, (byte_or_shift _ t _ (Nat.mod_lt _ (by decide)) (hp hr)).2 _ hi8, if_pos rfl]
    · have : b.n + 1 ≤ i := by omega
      simp [BitBuffer.getBit, BitBuffer.push, hlt, he, this]

/-- `AppendBit` appends to the bit sequence (R210). -/
theorem BitBuffer.bits_push {b : BitBuffer} (t : Bool) (h : b.shaped) : (b.push t).bits = b.bits ++ [t] := by
  have hn : (b.push t).n = b.n + 1 := rfl
  rw [BitBuffer.bits, hn, List.range_succ, List.map_append, BitBuffer.bits]
  congr 1
  · refine List.map_congr_left fun i hi => ?_
    rw [BitBuffer.getBit_push t h, if_pos (List.mem_range.1 hi)]
  · simp [BitBuffer.getBit_push t h]

@[simp] theorem BitBuffer.bits_length (b : BitBuffer) : b.bits.length = b.n := by simp [BitBuffer.bits]

@[simp] theorem BitBuffer.empty_bits : BitBuffer.empty.bits = [] := rfl

@[simp] theorem BitBuffer.push_n (b : BitBuffer) (t : Bool) : (b.push t).n = b.n + 1 := rfl

/-! ## `AppendBit` with its capacity check -/

/-- `AppendBit` that succeeds, or the buffer is full (R211). -/
theorem appendBit_ok {c : Config} {t : Bool} {b b' : BitBuffer} (h : appendBit c t b = .ok b') :
    b' = b.push t ∧ b'.n ≤ 8 * c.capBytes := by
  unfold appendBit at h
  split at h
  · cases h
  · injection h with h
    subst h
    exact ⟨rfl, by simp only [BitBuffer.push_n]; omega⟩

theorem appendBit_room {c : Config} {t : Bool} {b : BitBuffer} (h : b.n < 8 * c.capBytes) :
    appendBit c t b = .ok (b.push t) := by
  simp [appendBit, Nat.not_le.2 h]

/-- `AppendBit` keeps a legal buffer legal (R71). -/
theorem appendBit_legal {c : Config} {t : Bool} {b b' : BitBuffer} (h : appendBit c t b = .ok b') (hb : b.shaped) :
    b'.legal c := by
  obtain ⟨rfl, hn⟩ := appendBit_ok h
  exact ⟨hn, BitBuffer.push_shaped t hb⟩

/-- Appending a bit sequence that fits appends it to the bits. -/
theorem appendBits_room {c : Config} {ts : List Bool} {b : BitBuffer} (hb : b.shaped)
    (h : b.n + ts.length ≤ 8 * c.capBytes) :
    ∃ b', appendBits c ts b = .ok b' ∧ b'.bits = b.bits ++ ts ∧ b'.n = b.n + ts.length ∧ b'.shaped := by
  induction ts generalizing b with
  | nil => exact ⟨b, rfl, by simp, rfl, hb⟩
  | cons t ts ih =>
    simp only [List.length_cons] at h
    obtain ⟨b', h1, h2, h3, h4⟩ := ih (BitBuffer.push_shaped t hb) (by simp only [BitBuffer.push_n]; omega)
    refine ⟨b', ?_, ?_, ?_, h4⟩
    · simp only [appendBits, appendBit_room (c := c) (t := t) (show b.n < 8 * c.capBytes by omega), ok_bind, h1]
    · rw [h2, BitBuffer.bits_push t hb]; simp
    · rw [h3]; simp only [BitBuffer.push_n, List.length_cons]; omega

/-- A sequence appended keeps the shape and the capacity. -/
theorem appendBits_ok {c : Config} {ts : List Bool} {b b' : BitBuffer} (h : appendBits c ts b = .ok b') (hb : b.shaped) :
    b'.shaped ∧ b'.bits = b.bits ++ ts ∧ (ts ≠ [] → b'.n ≤ 8 * c.capBytes) := by
  induction ts generalizing b with
  | nil => injection h with h; subst h; exact ⟨hb, by simp, by simp⟩
  | cons t ts ih =>
    obtain ⟨b1, h1, h⟩ := bind_eq_ok.1 h
    obtain ⟨rfl, hn⟩ := appendBit_ok h1
    obtain ⟨i1, i2, i3⟩ := ih h (BitBuffer.push_shaped t hb)
    refine ⟨i1, ?_, fun _ => ?_⟩
    · rw [i2, BitBuffer.bits_push t hb]; simp
    · by_cases hts : ts = []
      · subst hts; injection h with h; subst h; exact hn
      · exact i3 hts

/-! ## Pad bits on load -/

/-- Storage loaded with its pad bits cleared has the shape of R71 (R426). -/
theorem clearPad_shaped {nb : Nat} {st : List Byte} (h : st.length = ceil8 nb) :
    BitBuffer.shaped { n := nb, st := clearPad nb st } := by
  by_cases hr : nb % 8 = 0
  · exact ⟨by simp [clearPad, hr, h], fun h' => absurd hr h'⟩
  · have hc : ceil8 nb - 1 = nb / 8 := by unfold ceil8; omega
    have hq : nb / 8 < st.length := by rw [h]; unfold ceil8; omega
    refine ⟨?_, fun _ => ?_⟩
    · simp only [clearPad, hr, if_false, hc]
      rw [setByte_length _ (Nat.le_of_lt hq)]; omega
    · simp only [clearPad, hr, if_false, hc]
      rw [setByte_getD _ (Nat.le_of_lt hq), if_pos rfl]
      have h8 : nb % 8 < 8 := Nat.mod_lt _ (by decide)
      apply BitVec.eq_of_getLsbD_eq
      intro j hj
      rw [BitVec.getLsbD_ushiftRight, BitVec.getLsbD_and, BitVec.getLsbD_ofNat]
      have : Nat.testBit (2 ^ (nb % 8) - 1) (nb % 8 + j) = false := by
        rw [Nat.testBit_two_pow_sub_one]; simp
      simp [this]

end Sys2Proof.Machine
end

