-- ==== Sys2Proof/Laws/Numbers.lean ====
section
/-! SUPPORT. The integer codec: the least width, and little-endian byte strings as numbers (45_varint.md R371 to R373). -/

namespace Sys2Proof.Machine

/-! ## The least width -/

/-- `min_width(v)` holds `v`, and no smaller width does (R371). -/
theorem minWidth_spec (v : Word) :
    1 ≤ minWidth v ∧ minWidth v ≤ 8 ∧ v.toNat < 2 ^ (8 * minWidth v) ∧
      (2 ≤ minWidth v → 2 ^ (8 * (minWidth v - 1)) ≤ v.toNat) := by
  unfold minWidth
  split
  · rename_i h; subst h; decide
  · have hv := v.isLt
    rw [show List.range' 1 8 = [1, 2, 3, 4, 5, 6, 7, 8] from rfl]
    simp only [List.find?]
    repeat' split
    all_goals simp_all

theorem minWidth_le_iff {v : Word} {w : Nat} (hw : w ≤ 8) : minWidth v ≤ w ↔ 1 ≤ w ∧ v.toNat < 2 ^ (8 * w) := by
  obtain ⟨h1, h2, h3, h4⟩ := minWidth_spec v
  constructor
  · intro h
    exact ⟨by omega, lt_of_lt_of_le h3 (Nat.pow_le_pow_right (by decide) (by omega))⟩
  · rintro ⟨h, hv⟩
    by_contra hc
    have := h4 (by omega)
    have h5 : 2 ^ (8 * w) ≤ 2 ^ (8 * (minWidth v - 1)) := Nat.pow_le_pow_right (by decide) (by omega)
    omega

/-! ## Little-endian byte strings -/

@[simp] theorem packBytes_length (v : Word) (w : Nat) : (packBytes v w).length = w := by simp [packBytes]

theorem packBytes_succ (v : Word) (w : Nat) : packBytes v (w + 1) = v.setWidth 8 :: packBytes (v >>> 8) w := by
  simp only [packBytes, List.range_succ_eq_map, List.map_cons, List.map_map]
  congr 1
  refine List.map_congr_left fun i _ => ?_
  simp only [Function.comp]
  rw [← BitVec.shiftRight_add]
  congr 2; omega

/-- The value of the low bytes of a word. -/
theorem leNat_packBytes (v : Word) (w : Nat) : leNat (packBytes v w) = v.toNat % 2 ^ (8 * w) := by
  induction w generalizing v with
  | zero => simp [packBytes, leNat, Nat.mod_one]
  | succ w ih =>
    rw [packBytes_succ, leNat, ih]
    simp only [BitVec.toNat_setWidth, BitVec.toNat_ushiftRight, Nat.shiftRight_eq_div_pow]
    rw [show 8 * (w + 1) = 8 + 8 * w by omega, Nat.pow_add, Nat.mod_mul]

theorem leNat_lt (bs : List Byte) : leNat bs < 2 ^ (8 * bs.length) := by
  induction bs with
  | nil => simp [leNat]
  | cons b bs ih =>
    simp only [leNat, List.length_cons]
    have := b.isLt
    rw [show 8 * (bs.length + 1) = 8 + 8 * bs.length by omega, Nat.pow_add]
    omega

theorem leNat_append (a b : List Byte) : leNat (a ++ b) = leNat a + 2 ^ (8 * a.length) * leNat b := by
  induction a with
  | nil => simp [leNat]
  | cons x xs ih =>
    simp only [List.cons_append, leNat, ih, List.length_cons]
    rw [show 8 * (xs.length + 1) = 8 + 8 * xs.length by omega, Nat.pow_add]; ring

theorem leNat_zeros (z : Nat) : leNat (List.replicate z 0) = 0 := by
  induction z with
  | zero => rfl
  | succ z ih => rw [List.replicate_succ, leNat, ih]; rfl

/-- `pack` in a legal width that holds the value (R372). -/
theorem pack_fits {v : Word} {w : Nat} (h1 : 1 ≤ w) (h2 : w ≤ 8) (h : v.toNat < 2 ^ (8 * w)) :
    pack v w = .ok (packBytes v w) := by
  have := (minWidth_le_iff (v := v) h2).2 ⟨h1, h⟩
  unfold pack; rw [if_neg (by omega)]

/-- `pack` in a width that is 0, above 8, or too small for the value (R372). -/
theorem pack_refuses {v : Word} {w : Nat} (h : w = 0 ∨ 8 < w ∨ 2 ^ (8 * w) ≤ v.toNat) :
    pack v w = .error ⟨.packWidth, word w⟩ := by
  unfold pack; rw [if_pos]
  by_cases h8 : 8 < w
  · omega
  by_cases h0 : w = 0
  · omega
  have := minWidth_le_iff (v := v) (w := w) (by omega)
  omega

theorem unpack_short {bs : List Byte} (h : bs.length ≤ 8) : unpack bs = .ok (word (leNat bs)) := by
  simp [unpack, Nat.not_lt.2 h]

end Sys2Proof.Machine
end

