-- ==== Sys2Proof/Laws/Tables.lean ====
section
/-! SUPPORT. The frequency table: its accessors, its entries in ascending order, and the table of a byte string
(10_state.md R50, R51; 42_frequency.md R252). -/

namespace Sys2Proof.Machine

/-! ## Accessors -/

@[simp] theorem FreqTable.entry_empty (b : Byte) : FreqTable.entry FreqTable.empty b = none := by
  simp [FreqTable.entry, FreqTable.empty]

theorem FreqTable.entry_put (t : FreqTable) (b b' : Byte) (c : Option Word) :
    FreqTable.entry (FreqTable.put t b c) b' = if b' = b then c else FreqTable.entry t b' := by
  unfold FreqTable.entry FreqTable.put
  rw [Vector.getElem_set]
  by_cases h : b' = b
  · subst h; simp
  · have : b.toNat ≠ b'.toNat := fun h' => h (BitVec.eq_of_toNat_eq h'.symm)
    simp [h, this]

/-- Tables with the same entries are equal. -/
theorem FreqTable.ext_entry {t u : FreqTable} (h : ∀ b, FreqTable.entry t b = FreqTable.entry u b) : t = u := by
  apply Vector.ext
  intro i hi
  have := h (BitVec.ofNat 8 i)
  simpa [FreqTable.entry, Nat.mod_eq_of_lt hi] using this

/-! ## Entries -/

/-- The entries listed are the present ones, each with its count (R50). -/
theorem FreqTable.mem_entries {t : FreqTable} {b : Byte} {c : Word} :
    (b, c) ∈ FreqTable.entries t ↔ FreqTable.entry t b = some c := by
  simp only [FreqTable.entries, List.mem_filterMap, Option.map_eq_some_iff, Prod.mk.injEq, Prod.exists,
    List.mem_zipIdx_iff_getElem?]
  constructor
  · rintro ⟨x, i, hi, c', rfl, rfl, rfl⟩
    obtain ⟨hlt, hi⟩ := List.getElem?_eq_some_iff.1 hi
    rw [Vector.length_toList] at hlt
    rw [Vector.getElem_toList] at hi
    simpa [FreqTable.entry, Nat.mod_eq_of_lt hlt] using hi
  · intro h
    refine ⟨some c, b.toNat, ?_, c, rfl, by simp, rfl⟩
    refine List.getElem?_eq_some_iff.2 ⟨by rw [Vector.length_toList]; exact b.isLt, ?_⟩
    rw [Vector.getElem_toList]
    exact h

/-- The entries are listed in ascending order of byte value (R404), so no byte is listed twice. -/
theorem FreqTable.entries_sorted (t : FreqTable) :
    (FreqTable.entries t).Pairwise fun e f => e.1.toNat < f.1.toNat := by
  have hz : (t.toList.zipIdx).Pairwise fun p q => p.2 < q.2 ∧ q.2 < 256 := by
    rw [List.pairwise_iff_getElem]
    intro i j hi hj hij
    simp only [List.getElem_zipIdx, Nat.zero_add]
    simp only [List.length_zipIdx, Vector.length_toList] at hj
    exact ⟨hij, hj⟩
  refine List.Pairwise.filterMap _ ?_ hz
  intro p q ⟨hpq, hq⟩ e he f hf
  rw [Option.map_eq_some_iff] at he hf
  obtain ⟨c, -, rfl⟩ := he
  obtain ⟨d, -, rfl⟩ := hf
  simp only [BitVec.toNat_ofNat]
  rw [Nat.mod_eq_of_lt (by omega), Nat.mod_eq_of_lt (by omega)]
  exact hpq

/-- At most 256 entries (R51). -/
theorem FreqTable.size_le (t : FreqTable) : FreqTable.size t ≤ 256 := by
  unfold FreqTable.size FreqTable.entries
  refine (List.length_filterMap_le _ _).trans ?_
  simp

/-! ## Counting -/

theorem FreqTable.entry_bump (t : FreqTable) (v b : Byte) :
    FreqTable.entry (FreqTable.bump t v) b =
      if b = v then some ((FreqTable.entry t v).getD 0 + 1) else FreqTable.entry t b :=
  FreqTable.entry_put t v b _

/-- The loop of `FREQ_COUNT` never ends with an error of its own and folds the bytes into the table (R252). -/
theorem overBytes_bump (i : Nat) (bs : List Byte) (t : FreqTable) :
    overBytes (fun _ v t => .ok (FreqTable.bump t v)) i bs t = .ok (bs.foldl FreqTable.bump t) := by
  induction bs generalizing i t with
  | nil => rfl
  | cons b bs ih => simpa [overBytes] using ih (i + 1) (FreqTable.bump t b)

theorem FreqTable.entry_foldl_bump (bs : List Byte) (t : FreqTable) (b : Byte) :
    FreqTable.entry (bs.foldl FreqTable.bump t) b =
      if b ∈ bs then some ((FreqTable.entry t b).getD 0 + word (bs.count b)) else FreqTable.entry t b := by
  induction bs generalizing t with
  | nil => simp
  | cons v bs ih =>
    rw [List.foldl_cons, ih, FreqTable.entry_bump]
    by_cases hv : b = v
    · subst hv
      have hw : ∀ n, word (n + 1) = 1 + word n := by
        intro n; unfold word; rw [Nat.add_comm, BitVec.ofNat_add]; rfl
      by_cases hm : b ∈ bs
      · simp [hm, hw, BitVec.add_assoc]
      · simp [hm, List.count_eq_zero.2 hm, word]
    · simp [hv, List.mem_cons, List.count_cons_of_ne (Ne.symm hv)]

/-- The table of a byte string has an entry exactly for each byte that occurs, with the number of its occurrences (R252). -/
theorem FreqTable.entry_ofBytes (bs : List Byte) (b : Byte) :
    FreqTable.entry (FreqTable.ofBytes bs) b = if b ∈ bs then some (word (bs.count b)) else none := by
  rw [FreqTable.ofBytes, FreqTable.entry_foldl_bump]
  simp

/-- On a readable source the counting loop answers the table of the source bytes (R252). -/
theorem freqCountBody_readable {s : State} (h : sourceReadable s) :
    freqCountBody s = .ok ((s.setFt (some (FreqTable.ofBytes (sourceBytes s)))).setResult0
      (word (FreqTable.size (FreqTable.ofBytes (sourceBytes s))))) := by
  unfold freqCountBody
  rw [forSrc_readable h _ _ (by omega), Nat.add_zero, overBytes_bump]
  rfl

end Sys2Proof.Machine
end

