-- ==== Sys2Proof/Laws/Containers.lean ====
section
/-! SUPPORT. The container: the serializer's bytes field by field, and the deserializer's cursor over a readable source
(46_container.md R400 to R426). -/

namespace Sys2Proof.Machine

/-! ## The serializer -/

theorem BitBuffer.storage_eq {b : BitBuffer} (h : b.shaped) : b.storage = b.st := by
  rw [BitBuffer.storage, ← h.1, List.take_length]

theorem foldl_max_eq_foldr {α : Type} (f : α → Nat) (l : List α) (m : Nat) :
    l.foldl (fun m e => max m (f e)) m = (l.map f).foldr max m := by
  induction l generalizing m with
  | nil => rfl
  | cons a l ih =>
    rw [List.foldl_cons, ih, List.map_cons, List.foldr_cons]
    have : ∀ (ns : List Nat) (x y : Nat), ns.foldr max (max x y) = max y (ns.foldr max x) := by
      intro ns x y
      induction ns with
      | nil => simp [Nat.max_comm]
      | cons n ns ihn => simp only [List.foldr_cons, ihn]; omega
    rw [this]

theorem tableSection_length (t : FreqTable) :
    (tableSection t).length = 1 + FreqTable.size t * (1 + entryWidth (FreqTable.entries t)) := by
  unfold tableSection FreqTable.size
  generalize FreqTable.entries t = es
  simp only [List.length_cons, List.length_flatMap, packBytes_length, List.map_const', List.sum_replicate, smul_eq_mul]
  ring

/-- The serializer writes the container of R410, field by field. -/
theorem containerBytes_eq {t : FreqTable} {b : BitBuffer} (h : b.shaped) : containerBytes t b = containerOf t b := by
  unfold containerBytes containerOf
  rw [BitBuffer.storage_eq h, tableSection_length]
  simp only [tableSection, entryWidth, foldl_max_eq_foldr, FreqTable.size, List.append_assoc, List.cons_append,
    List.nil_append]

theorem entryWidth_le (es : List (Byte × Word)) : 1 ≤ entryWidth es ∧ entryWidth es ≤ 8 := by
  unfold entryWidth
  rw [foldl_max_eq_foldr]
  induction es with
  | nil => decide
  | cons e es ih =>
    have := minWidth_spec e.2
    simp only [List.map_cons, List.foldr_cons]; omega

theorem minWidth_le_entryWidth {es : List (Byte × Word)} {e : Byte × Word} (h : e ∈ es) :
    minWidth e.2 ≤ entryWidth es := by
  unfold entryWidth
  rw [foldl_max_eq_foldr]
  induction es with
  | nil => cases h
  | cons x xs ih =>
    simp only [List.map_cons, List.foldr_cons]
    rcases List.mem_cons.1 h with rfl | h
    · omega
    · have := ih h; omega

/-! ## The cursor -/

theorem sourceBytes_length (s : State) : (sourceBytes s).length = s.ops.srcLen.toNat := by simp [sourceBytes]

/-- `k` bytes at cursor `c` are the bytes of the source there, when the platform answers up to their end (R420). -/
theorem takeSrc_readableTo {s : State} {c k : Nat} (h : sourceReadableTo s (c + k)) (hk : c + k ≤ (sourceBytes s).length) :
    takeSrc s c k = .ok (((sourceBytes s).drop c).take k) := by
  rw [sourceBytes_length] at hk
  have hr : room s c k = .ok () := by simp [room]; omega
  simp only [takeSrc, hr, ok_bind, srcBytes_readableTo h (Nat.le_refl _)]
  congr 1
  apply List.ext_getElem
  · simp [sourceBytes]; omega
  · intro i h1 h2
    simp [sourceBytes, bytesAt, Nat.add_assoc]

/-- Bytes past the end are truncation at the cursor (R421). -/
theorem room_short {s : State} {c k : Nat} (hc : c ≤ (sourceBytes s).length) (hk : (sourceBytes s).length < c + k) :
    room s c k = .error ⟨.ctTruncated, word c⟩ := by
  rw [sourceBytes_length] at hc hk
  simp [room]; omega

theorem room_fits {s : State} {c k : Nat} (hk : c + k ≤ (sourceBytes s).length) : room s c k = .ok () := by
  rw [sourceBytes_length] at hk
  simp [room]; omega

/-- A read of `n` bytes that are in the source ends at the first one the platform does not answer for (R103). -/
theorem takeSrc_hole {s : State} {c k n : Nat} (hn : c + n ≤ (sourceBytes s).length) (hk : k < n)
    (h : sourceReadableTo s (c + k)) (he : Config.memOK s.cfg (s.ops.srcAddr.toNat + (c + k)) = false) :
    takeSrc s c n = .error ⟨.memFault, word (s.ops.srcAddr.toNat + (c + k))⟩ := by
  simp only [takeSrc, room_fits hn, ok_bind]
  exact srcBytes_hole hk (fun j hj => h (c + j) (by omega)) he

theorem takeSrc_short {s : State} {c k : Nat} (hc : c ≤ (sourceBytes s).length) (hk : (sourceBytes s).length < c + k) :
    takeSrc s c k = .error ⟨.ctTruncated, word c⟩ := by
  simp [takeSrc, room_short hc hk]

/-! ## The entries -/

/-- Reading `e` entries whose byte values are new and pairwise different adds them all. -/
theorem readEntries_distinct {tb : List Byte} {w e off : Nat} {t : FreqTable} (hw : w ≤ 8)
    (hd : ∀ j < e, FreqTable.entry t (tb.getD (off + j * (1 + w)) 0) = none)
    (hp : ∀ j < e, ∀ i < j, tb.getD (off + i * (1 + w)) 0 ≠ tb.getD (off + j * (1 + w)) 0) :
    ∃ u, readEntries tb w e off t = .ok u ∧
      ∀ v n, FreqTable.entry u v = some n ↔ FreqTable.entry t v = some n ∨
        ∃ j < e, tb.getD (off + j * (1 + w)) 0 = v ∧
          word (leNat ((tb.drop (off + j * (1 + w) + 1)).take w)) = n := by
  induction e generalizing off t with
  | zero => exact ⟨t, rfl, by simp⟩
  | succ e ih =>
    have h0 : FreqTable.entry t (tb.getD off 0) = none := by simpa using hd 0 (by omega)
    have hu : unpack ((tb.drop (off + 1)).take w) = .ok (word (leNat ((tb.drop (off + 1)).take w))) :=
      unpack_short (by rw [List.length_take]; omega)
    have hs : ∀ j, off + 1 + w + j * (1 + w) = off + (j + 1) * (1 + w) := by intro j; ring
    obtain ⟨u, h1, h2⟩ := ih (off := off + 1 + w)
      (t := FreqTable.put t (tb.getD off 0) (some (word (leNat ((tb.drop (off + 1)).take w)))))
      (fun j hj => by
        rw [FreqTable.entry_put, hs, if_neg (fun h => hp (j + 1) (by omega) 0 (by omega) (by simpa using h.symm))]
        exact hd (j + 1) (by omega))
      (fun j hj i hi => by rw [hs, hs]; exact hp (j + 1) (by omega) (i + 1) (by omega))
    refine ⟨u, ?_, ?_⟩
    · simp only [readEntries, h0, Option.isNone_none, check, if_true, ok_bind, hu, h1]
    · intro v n
      rw [h2, FreqTable.entry_put]
      constructor
      · rintro (h | ⟨j, hj, h3, h4⟩)
        · split at h
          · rename_i hv
            injection h with h
            exact .inr ⟨0, by omega, by simpa using hv.symm, by simpa using h⟩
          · exact .inl h
        · exact .inr ⟨j + 1, by omega, by rw [← hs]; exact h3, by rw [← hs]; exact h4⟩
      · rintro (h | ⟨j, hj, h3, h4⟩)
        · left
          rw [if_neg (fun hv => by rw [hv, h0] at h; cases h)]; exact h
        · cases j with
          | zero =>
            left
            simp only [Nat.zero_mul, Nat.add_zero] at h3 h4
            rw [if_pos h3.symm, h4]
          | succ j => exact .inr ⟨j, by omega, by rw [hs]; exact h3, by rw [hs]; exact h4⟩

/-- The first entry that repeats a byte value ends the reading with its offset (R422). -/
theorem readEntries_repeats {tb : List Byte} {w e off j : Nat} {t : FreqTable} (hw : w ≤ 8) (hj : j < e)
    (hd : ∀ i < j, FreqTable.entry t (tb.getD (off + i * (1 + w)) 0) = none)
    (hp : ∀ i < j, ∀ k < i, tb.getD (off + k * (1 + w)) 0 ≠ tb.getD (off + i * (1 + w)) 0)
    (hr : FreqTable.entry t (tb.getD (off + j * (1 + w)) 0) ≠ none ∨
      ∃ i < j, tb.getD (off + i * (1 + w)) 0 = tb.getD (off + j * (1 + w)) 0) :
    readEntries tb w e off t = .error ⟨.ctBadTable, word (2 + (off + j * (1 + w)))⟩ := by
  induction j generalizing e off t with
  | zero =>
    obtain ⟨e, rfl⟩ : ∃ m, e = m + 1 := ⟨e - 1, by omega⟩
    rcases hr with hr | ⟨i, hi, -⟩
    · simp only [Nat.zero_mul, Nat.add_zero] at hr
      obtain ⟨c, hc⟩ := Option.ne_none_iff_exists'.1 hr
      simp only [readEntries, hc, Option.isNone_some, check, Bool.false_eq_true, if_false, error_bind, Nat.zero_mul,
        Nat.add_zero]
    · omega
  | succ j ih =>
    obtain ⟨e, rfl⟩ : ∃ m, e = m + 1 := ⟨e - 1, by omega⟩
    have h0 : FreqTable.entry t (tb.getD off 0) = none := by simpa using hd 0 (by omega)
    have hu : unpack ((tb.drop (off + 1)).take w) = .ok (word (leNat ((tb.drop (off + 1)).take w))) :=
      unpack_short (by rw [List.length_take]; omega)
    have hs : ∀ j, off + 1 + w + j * (1 + w) = off + (j + 1) * (1 + w) := by intro j; ring
    have := ih (e := e) (off := off + 1 + w)
      (t := FreqTable.put t (tb.getD off 0) (some (word (leNat ((tb.drop (off + 1)).take w)))))
      (by omega)
      (fun i hi => by
        rw [FreqTable.entry_put, hs, if_neg (fun h => hp (i + 1) (by omega) 0 (by omega) (by simpa using h.symm))]
        exact hd (i + 1) (by omega))
      (fun i hi k hk => by rw [hs, hs]; exact hp (i + 1) (by omega) (k + 1) (by omega))
      (by
        rw [FreqTable.entry_put, hs]
        rcases hr with hr | ⟨i, hi, h⟩
        · left; split
          · simp
          · exact hr
        · cases i with
          | zero =>
            left
            rw [if_pos (by simpa using h.symm)]; simp
          | succ i => right; exact ⟨i, by omega, by rw [hs]; exact h⟩)
    simp only [readEntries, h0, Option.isNone_none, check, if_true, ok_bind, hu, this]
    rw [hs]

/-! ## The table section -/

/-- The table section of a byte string read as a container. -/
def sectionOf (c : List Byte) : List Byte := (c.drop 2).take (tableLength c)

theorem sectionOf_length {c : List Byte} (h : 2 + tableLength c ≤ c.length) : (sectionOf c).length = tableLength c := by
  rw [sectionOf, List.length_take, List.length_drop]; omega

theorem sectionOf_getD {c : List Byte} {j : Nat} (h : j < tableLength c) :
    (sectionOf c).getD j 0 = c.getD (2 + j) 0 := by
  simp [sectionOf, List.getD_eq_getElem?_getD, h, List.getElem?_drop]

/-- Each entry of a section of whole entries lies within it. -/
theorem entry_within {c : List Byte} (hs : tableShaped c) {j : Nat} (hj : j < entryCount c) :
    1 + j * (1 + countWidth c) + 1 + countWidth c ≤ tableLength c := by
  obtain ⟨-, b, -, d⟩ := hs
  have h1 : tableLength c - 1 = entryCount c * (1 + countWidth c) := by
    rw [entryCount, Nat.div_mul_cancel (Nat.dvd_of_mod_eq_zero d)]
  have h2 : (j + 1) * (1 + countWidth c) ≤ entryCount c * (1 + countWidth c) := Nat.mul_le_mul_right _ hj
  rw [Nat.add_mul] at h2
  omega

theorem sectionOf_width {c : List Byte} (h0 : 0 < tableLength c) : ((sectionOf c).getD 0 0).toNat = countWidth c := by
  rw [sectionOf_getD h0]; rfl

theorem sectionOf_entryByte {c : List Byte} (hs : tableShaped c) {j : Nat} (hj : j < entryCount c) :
    (sectionOf c).getD (1 + j * (1 + countWidth c)) 0 = entryByte c j := by
  rw [sectionOf_getD (by have := entry_within hs hj; omega)]; rfl

theorem sectionOf_entryValue {c : List Byte} (hs : tableShaped c) {j : Nat} (hj : j < entryCount c) :
    leNat (((sectionOf c).drop (1 + j * (1 + countWidth c) + 1)).take (countWidth c)) = entryValue c j := by
  have := entry_within hs hj
  rw [sectionOf, List.drop_take, List.drop_drop, List.take_take, Nat.min_eq_left (by omega), entryValue, entryOffset]
  congr 2

theorem readTable_shaped {c : List Byte} (hs : tableShaped c) :
    readTable (sectionOf c) = readEntries (sectionOf c) (countWidth c) (entryCount c) 1 FreqTable.empty := by
  obtain ⟨a, b, d, e⟩ := hs
  unfold readTable
  rw [sectionOf_length a, sectionOf_width b]
  simp only [check, show tableLength c ≠ 0 by omega, d, e, decide_true, if_true, ok_bind, ne_eq, not_false_eq_true]
  rfl

/-- A table section the deserializer accepts gives the table of its entries (R420, R427). -/
theorem readTable_readable {c : List Byte} (hs : tableReadable c) :
    ∃ u, readTable (sectionOf c) = .ok u ∧ ∀ v n, FreqTable.entry u v = some n ↔
      ∃ j < entryCount c, entryByte c j = v ∧ word (entryValue c j) = n := by
  obtain ⟨-, hs, hd⟩ := hs
  obtain ⟨u, h1, h2⟩ := readEntries_distinct (tb := sectionOf c) (w := countWidth c) (e := entryCount c) (off := 1)
    (t := FreqTable.empty) hs.2.2.1 (by simp)
    (fun j hj i hi => by
      rw [sectionOf_entryByte hs hj, sectionOf_entryByte hs (Nat.lt_trans hi hj)]; exact hd j hj i hi)
  refine ⟨u, by rw [readTable_shaped hs, h1], fun v n => ?_⟩
  rw [h2]
  simp only [FreqTable.entry_empty, reduceCtorEq, false_or]
  constructor <;> rintro ⟨j, hj, h3, h4⟩ <;> refine ⟨j, hj, ?_, ?_⟩
  · rw [← sectionOf_entryByte hs hj]; exact h3
  · rw [← sectionOf_entryValue hs hj]; exact h4
  · rw [sectionOf_entryByte hs hj]; exact h3
  · rw [sectionOf_entryValue hs hj]; exact h4

/-- A repeated byte value is refused at the offset of its second entry (R422). -/
theorem readTable_repeats {c : List Byte} (hs : tableShaped c) {j : Nat} (hj : j < entryCount c)
    (hd : entriesDistinct c j) (hr : ∃ i < j, entryByte c i = entryByte c j) :
    readTable (sectionOf c) = .error ⟨.ctBadTable, word (entryOffset c j)⟩ := by
  rw [readTable_shaped hs, readEntries_repeats hs.2.2.1 hj (by simp)
    (fun i hi k hk => by
      rw [sectionOf_entryByte hs (Nat.lt_trans hi hj), sectionOf_entryByte hs (by omega)]; exact hd i hi k hk)
    (.inr (by
      obtain ⟨i, hi, he⟩ := hr
      exact ⟨i, hi, by rw [sectionOf_entryByte hs (Nat.lt_trans hi hj), sectionOf_entryByte hs hj]; exact he⟩))]
  rfl

/-! ## The deserializer, on a source readable as far as it reads -/

/-- With the table section in the source, the deserializer reads it (R420). -/
theorem deserialize_section {s : State} {c : List Byte} (hc : sourceBytes s = c) (h : sourceReadableTo s (2 + tableLength c))
    (h2 : 2 + tableLength c ≤ c.length) :
    deserialize s = (do
      let t ← readTable (sectionOf c)
      deserializePayload s t (2 + tableLength c)) := by
  subst hc
  have h1 : takeSrc s 0 2 = .ok ((sourceBytes s).take 2) := by
    rw [takeSrc_readableTo (fun j hj => h j (by omega)) (by omega), List.drop_zero]
  unfold deserialize
  rw [h1, ok_bind]
  have h3 : takeSrc s 2 (tableLength (sourceBytes s)) = .ok (sectionOf (sourceBytes s)) := takeSrc_readableTo h h2
  unfold tableLength at h3 ⊢
  rw [h3, ok_bind]

/-- The bit-count width, when its byte is in the source and is at most 8. -/
theorem deserializePayload_width {s : State} {c : List Byte} {t : FreqTable} (hc : sourceBytes s = c)
    (h : sourceReadableTo s (3 + tableLength c)) (h3 : 3 + tableLength c ≤ c.length) :
    deserializePayload s t (2 + tableLength c) = (do
      check (decide (bitCountWidth c ≤ 8)) ⟨.ctBadWidth, word (2 + tableLength c)⟩
      let nbs ← takeSrc s (3 + tableLength c) (bitCountWidth c)
      room s (payloadOffset c) (ceil8 (leNat nbs))
      check (decide (payloadOffset c + ceil8 (leNat nbs) = c.length)) ⟨.ctTrailing, word (payloadOffset c + ceil8 (leNat nbs))⟩
      check (decide (ceil8 (leNat nbs) ≤ s.cfg.capBytes)) ⟨.bbOverflow, word (8 * s.cfg.capBytes)⟩
      let st ← takeSrc s (payloadOffset c) (ceil8 (leNat nbs))
      .ok (t, { n := leNat nbs, st := clearPad (leNat nbs) st })) := by
  subst hc
  have h1 : takeSrc s (2 + tableLength (sourceBytes s)) 1 = .ok [(sourceBytes s).getD (2 + tableLength (sourceBytes s)) 0] := by
    rw [takeSrc_readableTo (fun j hj => h j (by omega)) (by omega), List.drop_eq_getElem_cons (by omega), List.take_succ_cons, List.take_zero,
      List.getD_eq_getElem _ _ (by omega)]
  have h4 : leNat [(sourceBytes s).getD (2 + tableLength (sourceBytes s)) 0] = bitCountWidth (sourceBytes s) := by
    simp [leNat, bitCountWidth]
  unfold deserializePayload
  rw [h1, ok_bind, h4, sourceBytes_length, payloadOffset, show 2 + tableLength (sourceBytes s) + 1 = 3 + tableLength (sourceBytes s) by omega]

/-- The bit count, when all before the payload is readable. -/
theorem deserializePayload_header {s : State} {c : List Byte} {t : FreqTable} (hc : sourceBytes s = c)
    (h : sourceReadableTo s (payloadOffset c)) (h3 : 3 + tableLength c ≤ c.length) (h8 : bitCountWidth c ≤ 8) (hp : payloadOffset c ≤ c.length) :
    deserializePayload s t (2 + tableLength c) = (do
      room s (payloadOffset c) (ceil8 (bitCount c))
      check (decide (payloadOffset c + ceil8 (bitCount c) = c.length)) ⟨.ctTrailing, word (payloadOffset c + ceil8 (bitCount c))⟩
      check (decide (ceil8 (bitCount c) ≤ s.cfg.capBytes)) ⟨.bbOverflow, word (8 * s.cfg.capBytes)⟩
      let st ← takeSrc s (payloadOffset c) (ceil8 (bitCount c))
      .ok (t, { n := bitCount c, st := clearPad (bitCount c) st })) := by
  rw [deserializePayload_width hc (fun j hj => h j (by unfold payloadOffset; omega)) h3]
  subst hc
  have h1 : takeSrc s (3 + tableLength (sourceBytes s)) (bitCountWidth (sourceBytes s)) =
      .ok (((sourceBytes s).drop (3 + tableLength (sourceBytes s))).take (bitCountWidth (sourceBytes s))) :=
    takeSrc_readableTo h hp
  simp only [check, h8, decide_true, if_true, ok_bind, h1]
  rfl

end Sys2Proof.Machine
end

