-- ==== Sys2Proof/Laws/Trees.lean ====
section
/-! SUPPORT. The tree builder: the node order, the extraction of the least node, and when the merge loop overflows
(43_tree.md R282, R283, R288). -/

namespace Sys2Proof.Machine

/-! ## The node order (R282) -/

theorem Node.before_iff {p q : Node} :
    Node.before p q = true ↔
      p.count.toNat < q.count.toNat ∨ (p.count.toNat = q.count.toNat ∧ p.minByte.toNat < q.minByte.toNat) := by
  simp [Node.before]

theorem Node.before_irrefl (p : Node) : Node.before p p = false := by simp [Node.before]

theorem Node.before_trans {p q r : Node} (h : Node.before p q = true) (h' : Node.before q r = true) :
    Node.before p r = true := by
  rw [Node.before_iff] at *; omega

/-- Of two nodes with different minimum bytes one comes before the other (R286). -/
theorem Node.before_total {p q : Node} (h : p.minByte ≠ q.minByte) :
    Node.before p q = true ∨ Node.before q p = true := by
  have : p.minByte.toNat ≠ q.minByte.toNat := fun h' => h (BitVec.eq_of_toNat_eq h')
  rw [Node.before_iff, Node.before_iff]; omega

/-! ## Extraction -/

theorem extractLeast_none {w : List (Nat × Node)} : extractLeast w = none ↔ w = [] := by
  cases w with
  | nil => simp [extractLeast]
  | cons x xs =>
    simp only [extractLeast, reduceCtorEq, iff_false]
    split
    · simp
    · split <;> simp

/-- Extraction takes one node out of the working set and keeps the others. -/
theorem extractLeast_perm {w rest : List (Nat × Node)} {m : Nat × Node} (h : extractLeast w = some (m, rest)) :
    w.Perm (m :: rest) := by
  induction w generalizing m rest with
  | nil => cases h
  | cons x xs ih =>
    simp only [extractLeast] at h
    split at h
    · rename_i hn
      rw [extractLeast_none] at hn
      injection h with h
      injection h with h1 h2
      subst hn; subst h1; subst h2
      exact List.Perm.refl _
    · rename_i m' r' he
      split at h
      · injection h with h
        injection h with h1 h2
        subst h1; subst h2
        exact ((ih he).cons x).trans (List.Perm.swap m' x r')
      · injection h with h
        injection h with h1 h2
        subst h1; subst h2
        exact List.Perm.refl _

/-- No node left behind comes before the extracted one (R283). -/
theorem extractLeast_least {w rest : List (Nat × Node)} {m : Nat × Node} (h : extractLeast w = some (m, rest)) :
    ∀ x ∈ rest, Node.before x.2 m.2 = false := by
  induction w generalizing m rest with
  | nil => cases h
  | cons y ys ih =>
    simp only [extractLeast] at h
    split at h
    · injection h with h
      injection h with h1 h2
      subst h2; simp
    · rename_i m' r' he
      split at h
      · rename_i hb
        injection h with h
        injection h with h1 h2
        subst h1; subst h2
        intro x hx
        rcases List.mem_cons.1 hx with rfl | hx
        · cases hc : Node.before x.2 m'.2 with
          | false => rfl
          | true => have := Node.before_trans hb hc; rw [Node.before_irrefl] at this; cases this
        · exact ih he x hx
      · rename_i hb
        injection h with h
        injection h with h1 h2
        subst h1; subst h2
        intro x hx
        have hmem : x ∈ m' :: r' := (extractLeast_perm he).mem_iff.1 hx
        cases hc : Node.before x.2 y.2 with
        | false => rfl
        | true =>
          exfalso
          rcases List.mem_cons.1 hmem with rfl | hx'
          · exact hb hc
          · have hle := ih he x hx'
            have hb' : Node.before m'.2 y.2 = false := by simpa using hb
            have key : ∀ p q : Node, Node.before p q = false →
                q.count.toNat < p.count.toNat ∨
                  (q.count.toNat = p.count.toNat ∧ q.minByte.toNat ≤ p.minByte.toNat) := by
              intro p q hpq
              have : ¬ (Node.before p q = true) := by simp [hpq]
              rw [Node.before_iff] at this; omega
            have k1 := key _ _ hle
            have k2 := key _ _ hb'
            rw [Node.before_iff] at hc
            omega

theorem extractLeast_length {w rest : List (Nat × Node)} {m : Nat × Node} (h : extractLeast w = some (m, rest)) :
    w.length = rest.length + 1 := (extractLeast_perm h).length_eq

/-- The exact sum of the counts of a working set. -/
def weight (w : List (Nat × Node)) : Nat := (w.map fun x => x.2.count.toNat).sum

theorem weight_cons (x : Nat × Node) (w : List (Nat × Node)) : weight (x :: w) = x.2.count.toNat + weight w := by
  simp [weight]

theorem weight_extract {w rest : List (Nat × Node)} {m : Nat × Node} (h : extractLeast w = some (m, rest)) :
    weight w = m.2.count.toNat + weight rest := by
  rw [← weight_cons]
  exact List.Perm.sum_eq ((extractLeast_perm h).map _)

theorem mergeNodes_count {a b : Nat × Node} (h : a.2.count.toNat + b.2.count.toNat < 2 ^ 64) :
    (mergeNodes a b).count.toNat = a.2.count.toNat + b.2.count.toNat := by
  simp only [mergeNodes, Node.count, word, BitVec.toNat_ofNat]
  exact Nat.mod_eq_of_lt h

/-! ## The merge loop -/

/-- The loop completes when the counts sum below 2^64, and then makes one node fewer than it was given (R285, R288). -/
theorem mergeLoop_fits {k next : Nat} {w : List (Nat × Node)} (hl : w.length = k + 1) (hw : weight w < 2 ^ 64) :
    ∃ ns, mergeLoop k w next = .ok ns ∧ ns.length = k := by
  induction k generalizing w next with
  | zero => exact ⟨[], rfl, rfl⟩
  | succ k ih =>
    simp only [mergeLoop]
    cases ha : extractLeast w with
    | none => rw [extractLeast_none] at ha; subst ha; simp at hl
    | some p =>
      obtain ⟨a, w1⟩ := p
      have la := extractLeast_length ha
      have wa := weight_extract ha
      cases hb : extractLeast w1 with
      | none => rw [extractLeast_none] at hb; subst hb; simp at la; omega
      | some q =>
        obtain ⟨b, w2⟩ := q
        have lb := extractLeast_length hb
        have wb := weight_extract hb
        have hs : a.2.count.toNat + b.2.count.toNat < 2 ^ 64 := by omega
        obtain ⟨ns, h1, h2⟩ := ih (w := (next, mergeNodes a b) :: w2) (next := next + 1)
          (by simp only [List.length_cons]; omega)
          (by rw [weight_cons]; simp only [mergeNodes_count hs]; omega)
        refine ⟨mergeNodes a b :: ns, ?_, by simp [h2]⟩
        simp only [hb, if_neg (show ¬ (2 ^ 64 - 1 < a.2.count.toNat + b.2.count.toNat) by omega), h1, ok_bind]

/-- With at least two nodes whose counts sum to 2^64 or more, the loop ends with `COUNT_OVERFLOW` and the slot of the node
it could not make (R288). -/
theorem mergeLoop_overflows {k next : Nat} {w : List (Nat × Node)} (hl : w.length = k + 2) (hw : 2 ^ 64 ≤ weight w) :
    ∃ slot, mergeLoop (k + 1) w next = .error ⟨.countOverflow, word slot⟩ ∧ next ≤ slot ∧ slot ≤ next + k := by
  induction k generalizing w next with
  | zero =>
    simp only [mergeLoop]
    cases ha : extractLeast w with
    | none => rw [extractLeast_none] at ha; subst ha; simp at hl
    | some p =>
      obtain ⟨a, w1⟩ := p
      have la := extractLeast_length ha
      have wa := weight_extract ha
      cases hb : extractLeast w1 with
      | none => rw [extractLeast_none] at hb; subst hb; simp at la; omega
      | some q =>
        obtain ⟨b, w2⟩ := q
        have lb := extractLeast_length hb
        have wb := weight_extract hb
        have h0 : w2 = [] := List.length_eq_zero_iff.1 (by omega)
        subst h0
        have w0 : weight [] = 0 := rfl
        refine ⟨next, ?_, Nat.le_refl _, by omega⟩
        have hs : 2 ^ 64 - 1 < a.2.count.toNat + b.2.count.toNat := by omega
        simp only [hb, if_pos hs]
  | succ k ih =>
    rw [mergeLoop]
    cases ha : extractLeast w with
    | none => rw [extractLeast_none] at ha; subst ha; simp at hl
    | some p =>
      obtain ⟨a, w1⟩ := p
      have la := extractLeast_length ha
      have wa := weight_extract ha
      cases hb : extractLeast w1 with
      | none => rw [extractLeast_none] at hb; subst hb; simp at la; omega
      | some q =>
        obtain ⟨b, w2⟩ := q
        have lb := extractLeast_length hb
        have wb := weight_extract hb
        by_cases hs : 2 ^ 64 - 1 < a.2.count.toNat + b.2.count.toNat
        · refine ⟨next, ?_, Nat.le_refl _, by omega⟩
          simp only [hb, if_pos hs]
        · obtain ⟨slot, h1, h2, h3⟩ := ih (w := (next, mergeNodes a b) :: w2) (next := next + 1)
            (by simp only [List.length_cons]; omega)
            (by rw [weight_cons]; simp only [mergeNodes_count (show a.2.count.toNat + b.2.count.toNat < 2 ^ 64 by omega)]; omega)
          refine ⟨slot, ?_, by omega, by omega⟩
          simp only [hb, if_neg hs, h1, error_bind]

/-! ## `Build()` -/

theorem seedLeaves_length (t : FreqTable) : (seedLeaves t).length = FreqTable.size t := by
  simp [seedLeaves, FreqTable.size]

theorem withSlots_length (l : List Node) : (withSlots l).length = l.length := by simp [withSlots]

theorem weight_withSlots (l : List Node) : weight (withSlots l) = (l.map fun x => x.count.toNat).sum := by
  unfold weight withSlots
  rw [List.map_map]
  congr 1
  have : ((fun x : Nat × Node => x.2.count.toNat) ∘ fun p : Node × Nat => (p.2, p.1))
      = (fun x : Node => x.count.toNat) ∘ Prod.fst := rfl
  rw [this, ← List.map_map, List.zipIdx_map_fst]

theorem weight_seed (t : FreqTable) : weight (withSlots (seedLeaves t)) = totalCount t := by
  rw [weight_withSlots, seedLeaves, List.map_map]; rfl

/-- The empty table has no tree (R283). -/
theorem build_empty {t : FreqTable} (h : FreqTable.size t = 0) : build t = .ok none := by
  simp [build, seedLeaves_length, h]

/-- A table whose counts sum below 2^64 has a tree, of `2n - 1` nodes (R285). -/
theorem build_fits {t : FreqTable} (h : FreqTable.size t ≠ 0) (hs : totalCount t < 2 ^ 64) :
    ∃ tr, build t = .ok (some tr) ∧ tr.nleaf = FreqTable.size t ∧ tr.nodes.length = 2 * FreqTable.size t - 1 ∧
      tr.nodes.take (FreqTable.size t) = seedLeaves t := by
  obtain ⟨ns, h1, h2⟩ := mergeLoop_fits (k := FreqTable.size t - 1) (next := FreqTable.size t)
    (w := withSlots (seedLeaves t)) (by rw [withSlots_length, seedLeaves_length]; omega) (by rw [weight_seed]; exact hs)
  refine ⟨⟨FreqTable.size t, seedLeaves t ++ ns⟩, ?_, rfl, ?_, ?_⟩
  · simp [build, seedLeaves_length, h, h1]
  · simp only [List.length_append, seedLeaves_length, h2]; omega
  · simp [← seedLeaves_length]

/-- A table of at least two entries whose counts sum to 2^64 or more overflows (R288). -/
theorem build_overflows {t : FreqTable} (hs : 2 ^ 64 ≤ totalCount t) (h : 2 ≤ FreqTable.size t) :
    ∃ slot, build t = .error ⟨.countOverflow, word slot⟩ ∧ FreqTable.size t ≤ slot ∧ slot ≤ 2 * FreqTable.size t - 2 := by
  obtain ⟨slot, h1, h2, h3⟩ := mergeLoop_overflows (k := FreqTable.size t - 2) (next := FreqTable.size t)
    (w := withSlots (seedLeaves t)) (by rw [withSlots_length, seedLeaves_length]; omega) (by rw [weight_seed]; exact hs)
  refine ⟨slot, ?_, h2, by omega⟩
  have h0 : FreqTable.size t ≠ 0 := by omega
  have h1' : mergeLoop (FreqTable.size t - 1) (withSlots (seedLeaves t)) (FreqTable.size t)
      = .error ⟨.countOverflow, word slot⟩ := by
    rw [← h1]; congr 1; omega
  simp [build, seedLeaves_length, h0, h1']

end Sys2Proof.Machine
end

