-- ==== Sys2Proof/Laws/HostSide.lean ====
section
/-! SUPPORT. The host's side: what one step of the machine can be, what a register access does, what a reset leaves, and the
cache's order and contents (10_state.md R31 to R49; 20_memory.md R118; 70_reset_and_hazards.md R551 to R554). -/

namespace Sys2Proof.Machine

/-! ## Steps -/

/-- Everything a step that gives a next state can be: the block's, one action of the host, or a host with nothing to do. -/
theorem step_cases {s t : State} (h : step s = .next t) :
    (nextAgent s = .block ∧ s.status.busy = true ∧ blockStep s.takeTurn = .next t) ∨
    (nextAgent s = .host ∧ ∃ a rest, s.host = a :: rest ∧
      hostAct a { (if s.status.busy then s.takeTurn else s) with host := rest } = .next t) ∨
    (nextAgent s = .host ∧ s.host = [] ∧ s.status.busy = false ∧ t = s) := by
  unfold step oneStep at h
  split at h
  · rename_i hn
    refine .inl ⟨hn, ?_, h⟩
    cases hb : s.status.busy
    · simp [nextAgent, hb] at hn
    · rfl
  · rename_i hn
    right
    cases hh : s.host with
    | nil =>
      right
      have hb : s.status.busy = false := by
        cases hb : s.status.busy
        · rfl
        · simp [nextAgent, hb, hh] at hn
      simp only [hb, Bool.false_eq_true, if_false, hostMove, hh, Host.Outcome.next.injEq] at h
      exact ⟨hn, rfl, hb, h.symm⟩
    | cons a rest =>
      left
      refine ⟨hn, a, rest, rfl, ?_⟩
      have : (if s.status.busy then s.takeTurn else s).host = a :: rest := by split <;> exact hh
      simpa only [hostMove, this] using h

/-- The block's step ends the command in every case (R183). -/
theorem blockStep_cases (s : State) :
    (∃ i, decode s.cmd = .ok i ∧ blockStep s = exec i s) ∨
    ((∃ r, decode s.cmd = .error r) ∧ blockStep s = .next (s.raise [] false ⟨.illegalCmd, s.cmd⟩)) := by
  unfold blockStep
  cases h : decode s.cmd with
  | ok i => exact .inl ⟨i, rfl, rfl⟩
  | error r => exact .inr ⟨⟨r, rfl⟩, rfl⟩

/-! ## Register accesses -/

theorem hostAct_regWrite {off : Nat} {v : Word} {s : State} (h : off % 8 = 0) (h2 : off < 4096) :
    hostAct (.regWrite off 8 v) s = .next (writeAt off v s) := by
  simp [hostAct, regAction, accessWellFormed, h, h2]

theorem hostAct_regRead {off : Nat} {s : State} (h : off % 8 = 0) (h2 : off < 4096) :
    hostAct (.regRead off 8) s = .next (readAt off s) := by
  simp [hostAct, regAction, accessWellFormed, h, h2]

/-- A register access that goes on is an aligned 64-bit access within the window (R46). -/
theorem regAction_next {off size : Nat} {s t : State} (h : regAction off size s = .next t) :
    size = 8 ∧ off % 8 = 0 ∧ off < 4096 ∧ t = s := by
  unfold regAction at h
  split at h
  · rename_i ha
    simp only [accessWellFormed, Bool.and_eq_true, decide_eq_true_eq] at ha
    injection h with h
    exact ⟨ha.1.1, ha.1.2, ha.2, h.symm⟩
  · cases h

/-- A memory action that goes on is at an address of DMA space (R101). -/
theorem memAction_next {a : Nat} {w : Bool} {s t u : State} (h : memAction a w s t = .next u) :
    a < Config.space s.cfg ∧ (w = true → busyBuffer s a = false) ∧ u = t := by
  unfold memAction at h
  split at h
  · cases h
  · split at h
    · cases h
    · rename_i h1 h2
      injection h with h
      exact ⟨by omega, fun hw => by simpa [hw] using h2, h.symm⟩

/-- Past the register map the window is reserved (R47). -/
theorem regAt_reserved {off : Nat} (h : 0x088 ≤ off) : regAt off = none := by
  unfold regAt; split <;> first | rfl | omega

/-- A read of a register that is not drawn returns its value and changes nothing else. -/
theorem hostAct_read {off : Nat} {r : Reg} {s : State} (h : regAt off = some r) (h8 : off % 8 = 0) (hw : off < 4096)
    (hd : (s.status.busy && drawnWhileBusy r) = false) :
    hostAct (.regRead off 8) s = .next { s with hostData := regValue s r } := by
  rw [hostAct_regRead h8 hw, readAt, h]
  simp [readReg, hd]

/-- A write to a register of the map. -/
theorem hostAct_write {off : Nat} {r : Reg} {v : Word} {s : State} (h : regAt off = some r) (h8 : off % 8 = 0)
    (hw : off < 4096) : hostAct (.regWrite off 8 v) s = .next (writeReg r v s) := by
  rw [hostAct_regWrite h8 hw, writeAt, h]

theorem whenIdle_idle {s t : State} (h : s.status.busy = false) : whenIdle s t = t := by simp [whenIdle, h]

theorem whenIdle_busy {s t : State} (h : s.status.busy = true) :
    whenIdle s t = { s with status := s.status.overrun } := by
  simp [whenIdle, h]

/-! ## Register words as numbers (R32, R36, R37, R38) -/

/-- Words with no bit in common add up. -/
theorem toNat_or_disjoint (m : Nat) {a b : Word} (h : a.toNat < 2 ^ m) (hb : b.toNat % 2 ^ m = 0) :
    (a ||| b).toNat = a.toNat + b.toNat := by
  have hd : b.toNat = 2 ^ m * (b.toNat / 2 ^ m) := by
    have := Nat.div_add_mod b.toNat (2 ^ m); omega
  rw [BitVec.toNat_or, hd, Nat.or_comm, ← Nat.two_pow_add_eq_or_of_lt h, Nat.add_comm]

theorem Config.idWord_toNat {c : Config} (h : c.wellFormed = true) :
    (Config.idWord c).toNat = 0x50495A57 + 2 ^ 32 + c.addrW * 2 ^ 48 := by
  simp only [Config.wellFormed, Bool.and_eq_true, decide_eq_true_eq] at h
  obtain ⟨a, _, _, _⟩ := c
  have h' : a ∈ List.range' 32 33 := by simp only [List.mem_range'_1] at h ⊢; omega
  simp only [Config.idWord]
  revert h'; clear h; revert a; decide

theorem Status.word_toNat (f : Status) : f.word.toNat =
    f.busy.toNat + f.done.toNat * 2 + f.err.toNat * 4 + f.ovr.toNat * 8 + f.errcode.toNat * 2 ^ 8 := by
  have h1 : ∀ a b c d : Bool, (bit a ||| bit b <<< 1 ||| bit c <<< 2 ||| bit d <<< 3).toNat =
      a.toNat + b.toNat * 2 + c.toNat * 4 + d.toNat * 8 := by decide +kernel
  have h2 : (f.errcode.setWidth 64 <<< 8 : Word).toNat = f.errcode.toNat * 2 ^ 8 := by
    have := f.errcode.isLt
    simp only [BitVec.toNat_shiftLeft, BitVec.toNat_setWidth, Nat.shiftLeft_eq]; omega
  have := f.busy.toNat_le; have := f.done.toNat_le; have := f.err.toNat_le; have := f.ovr.toNat_le
  rw [Status.word, toNat_or_disjoint 8 (by rw [h1]; omega) (by rw [h2]; omega), h1, h2]

theorem State.stateWord_toNat {s : State} (h : s.nleaf < 512) : s.stateWord.toNat =
    s.ft.isSome.toNat + s.tree.isSome.toNat * 2 + s.lut.isSome.toNat * 4 + s.fsm.isSome.toNat * 8 +
      s.bb.isSome.toNat * 16 + s.nleaf * 2 ^ 32 := by
  have h1 : ∀ a b c d e : Bool, (bit a ||| bit b <<< 1 ||| bit c <<< 2 ||| bit d <<< 3 ||| bit e <<< 4).toNat =
      a.toNat + b.toNat * 2 + c.toNat * 4 + d.toNat * 8 + e.toNat * 16 := by decide +kernel
  have h2 : ((BitVec.ofNat 9 s.nleaf).setWidth 64 <<< 32 : Word).toNat = s.nleaf * 2 ^ 32 := by
    simp only [BitVec.toNat_shiftLeft, BitVec.toNat_setWidth, BitVec.toNat_ofNat, Nat.shiftLeft_eq]; omega
  have := s.ft.isSome.toNat_le; have := s.tree.isSome.toNat_le; have := s.lut.isSome.toNat_le
  have := s.fsm.isSome.toNat_le; have := s.bb.isSome.toNat_le
  simp only [State.stateWord, State.valid]
  rw [toNat_or_disjoint 32 (by rw [h1]; omega) (by rw [h2]; omega), h1, h2]

theorem IrqEnable.word_toNat (e : IrqEnable) : e.word.toNat = e.doneIe.toNat + e.errIe.toNat * 2 := by
  obtain ⟨a, b⟩ := e
  revert a b; decide +kernel

/-- The leaf count of a built tree is the number of present entries (R290). -/
theorem build_nleaf {ft : FreqTable} {t : Tree} (h : build ft = .ok (some t)) : t.nleaf = FreqTable.size ft := by
  simp only [build] at h
  split at h
  · cases h
  · obtain ⟨x, -, h⟩ := bind_eq_ok.1 h
    injection h with h; injection h with h; rw [← h]; exact seedLeaves_length ft

/-- With coherent maps `NLEAF` fits its nine bits (R37). -/
theorem nleaf_lt {s : State} (h : s.coherentMaps) : s.nleaf < 512 := by
  unfold State.nleaf
  split
  · rename_i t ht
    obtain ⟨ft, -, hb⟩ := h.1 t ht
    have := FreqTable.size_le ft
    rw [build_nleaf hb]; omega
  · omega

/-! ## Resets -/

/-- What a reset leaves: the reset values of R551, host memory outside an aborted command's destination, and the host's own
fields. -/
theorem resetBlock_eq (s : State) :
    resetBlock s = { State.resetOf s.cfg with
      mem := if s.status.busy && runningWritesDst s then s.scrambleDst.mem else s.mem
      host := s.host, turns := s.turns, cache := s.cache, hostData := s.hostData
      draws := if s.status.busy && runningWritesDst s then s.draws + 1 else s.draws } := by
  unfold resetBlock; split <;> rfl

@[simp] theorem resetBlock_status (s : State) : (resetBlock s).status = Status.reset := by rw [resetBlock_eq]; rfl
@[simp] theorem resetBlock_cfg (s : State) : (resetBlock s).cfg = s.cfg := by rw [resetBlock_eq]; rfl
@[simp] theorem resetBlock_ft (s : State) : (resetBlock s).ft = some FreqTable.empty := by rw [resetBlock_eq]; rfl
@[simp] theorem resetBlock_tree (s : State) : (resetBlock s).tree = none := by rw [resetBlock_eq]; rfl
@[simp] theorem resetBlock_lut (s : State) : (resetBlock s).lut = none := by rw [resetBlock_eq]; rfl
@[simp] theorem resetBlock_fsm (s : State) : (resetBlock s).fsm = none := by rw [resetBlock_eq]; rfl
@[simp] theorem resetBlock_bb (s : State) : (resetBlock s).bb = some BitBuffer.empty := by rw [resetBlock_eq]; rfl
@[simp] theorem resetBlock_cache (s : State) : (resetBlock s).cache = s.cache := by rw [resetBlock_eq]

/-- A reset keeps memory legal. -/
theorem resetBlock_legal {s : State} (h : s.mem.legal s.cfg) : (resetBlock s).mem.legal s.cfg := by
  rw [resetBlock_eq]
  show Memory.legal _ (if _ then _ else _)
  split
  · exact scrambleDst_legal h
  · exact h

/-! ## The cache (R118) -/

theorem cacheWfFrom_mono {lo lo' : Nat} {cs : List CacheByte} (h : cacheWfFrom lo cs = true) (hl : lo' ≤ lo) :
    cacheWfFrom lo' cs = true := by
  cases cs with
  | nil => rfl
  | cons c cs => simp only [cacheWfFrom, Bool.and_eq_true, decide_eq_true_eq] at h ⊢; exact ⟨by omega, h.2⟩

/-- An inserted copy keeps the order. -/
theorem cacheInsert_wfFrom {lo : Nat} {cs : List CacheByte} {n : CacheByte} (h : cacheWfFrom lo cs = true)
    (hn : lo ≤ n.addr) : cacheWfFrom lo (cacheInsert cs n) = true := by
  induction cs generalizing lo with
  | nil => simp [cacheInsert, cacheWfFrom, hn]
  | cons c cs ih =>
    simp only [cacheWfFrom, Bool.and_eq_true, decide_eq_true_eq] at h
    simp only [cacheInsert]
    split
    · simp only [cacheWfFrom, Bool.and_eq_true, decide_eq_true_eq]
      exact ⟨hn, by omega, h.2⟩
    · split
      · rename_i h1 h2
        simp only [cacheWfFrom, Bool.and_eq_true, decide_eq_true_eq]
        exact ⟨hn, by rw [h2]; exact h.2⟩
      · simp only [cacheWfFrom, Bool.and_eq_true, decide_eq_true_eq]
        exact ⟨h.1, ih h.2 (by omega)⟩

/-- A dropped copy keeps the order. -/
theorem cacheDrop_wfFrom {lo : Nat} {cs : List CacheByte} (a : Nat) (h : cacheWfFrom lo cs = true) :
    cacheWfFrom lo (cacheDrop cs a) = true := by
  induction cs generalizing lo with
  | nil => rfl
  | cons c cs ih =>
    simp only [cacheWfFrom, Bool.and_eq_true, decide_eq_true_eq] at h
    simp only [cacheDrop, List.filter_cons]
    split
    · simp only [cacheWfFrom, Bool.and_eq_true, decide_eq_true_eq]
      exact ⟨h.1, ih h.2⟩
    · exact cacheWfFrom_mono (ih h.2) (by omega)

/-- The copy just inserted is found. -/
theorem cacheFind_insert {cs : List CacheByte} {n : CacheByte} : cacheFind (cacheInsert cs n) n.addr = some n := by
  induction cs with
  | nil => simp [cacheInsert, cacheFind]
  | cons c cs ih =>
    simp only [cacheInsert]
    split
    · simp [cacheFind]
    · split
      · simp [cacheFind]
      · rename_i h1 h2
        rw [cacheFind, if_neg (fun h => h2 h.symm), ih]

/-- A dropped copy is not found. -/
theorem cacheFind_drop (cs : List CacheByte) (a : Nat) : cacheFind (cacheDrop cs a) a = none := by
  induction cs with
  | nil => rfl
  | cons c cs ih =>
    simp only [cacheDrop, List.filter_cons]
    split
    · rename_i h
      rw [cacheFind, if_neg (by simpa using h)]
      exact ih
    · exact ih

end Sys2Proof.Machine
end

