-- ==== Sys2Proof/Laws/PerInstr.lean ====
section
/-! SUPPORT. The statement made of each command as syntax: its word has a clear reserved field, and its opcode is that row's of
the opcode table and no other's (30_encoding.md R140, R146, R147). -/

namespace Sys2Proof.Laws.Encoded

/-- The encoding of a command is well formed, carries its opcode, and the opcode is read back. -/
def Statement (i : Instr) : Prop :=
  reservedClear (Sys2Proof.encode i) = true ∧ opcodeField (Sys2Proof.encode i) = opcode i ∧ decodeOpcode (opcode i) = some i

theorem nop : Statement .nop := ⟨rfl, rfl, rfl⟩
theorem compress : Statement .compress := ⟨rfl, rfl, rfl⟩
theorem decompress : Statement .decompress := ⟨rfl, rfl, rfl⟩
theorem freqClear : Statement .freqClear := ⟨rfl, rfl, rfl⟩
theorem freqCount : Statement .freqCount := ⟨rfl, rfl, rfl⟩
theorem freqWrite : Statement .freqWrite := ⟨rfl, rfl, rfl⟩
theorem freqRemove : Statement .freqRemove := ⟨rfl, rfl, rfl⟩
theorem freqRead : Statement .freqRead := ⟨rfl, rfl, rfl⟩
theorem treeBuild : Statement .treeBuild := ⟨rfl, rfl, rfl⟩
theorem nodeRead : Statement .nodeRead := ⟨rfl, rfl, rfl⟩
theorem encmapGen : Statement .encmapGen := ⟨rfl, rfl, rfl⟩
theorem lutRead : Statement .lutRead := ⟨rfl, rfl, rfl⟩
theorem decmapGen : Statement .decmapGen := ⟨rfl, rfl, rfl⟩
theorem fsmRead : Statement .fsmRead := ⟨rfl, rfl, rfl⟩
theorem bbClear : Statement .bbClear := ⟨rfl, rfl, rfl⟩
theorem bbAppendBit : Statement .bbAppendBit := ⟨rfl, rfl, rfl⟩
theorem bbAppendMany : Statement .bbAppendMany := ⟨rfl, rfl, rfl⟩
theorem bbGetBit : Statement .bbGetBit := ⟨rfl, rfl, rfl⟩
theorem bbLength : Statement .bbLength := ⟨rfl, rfl, rfl⟩
theorem bbStore : Statement .bbStore := ⟨rfl, rfl, rfl⟩
theorem viMinWidth : Statement .viMinWidth := ⟨rfl, rfl, rfl⟩
theorem viPack : Statement .viPack := ⟨rfl, rfl, rfl⟩
theorem viUnpack : Statement .viUnpack := ⟨rfl, rfl, rfl⟩
theorem ctSerialize : Statement .ctSerialize := ⟨rfl, rfl, rfl⟩
theorem ctDeserialize : Statement .ctDeserialize := ⟨rfl, rfl, rfl⟩
theorem encode : Statement .encode := ⟨rfl, rfl, rfl⟩
theorem decode : Statement .decode := ⟨rfl, rfl, rfl⟩

end Sys2Proof.Laws.Encoded
end

