-- ==== Sys2Proof/Tests/Slice0.lean ====
section
/-! SUPPORT. Tests and witnesses. The expected values of the tests are the words of 30_encoding.md R146 and the vectors of
95_test_vectors.md, named by number (V70) or by the example of the source (S1); each runs a command word through `step`. The
witnesses give, for each statement with hypotheses, states and operands that meet them, at the boundary of each clause. -/

namespace Sys2Proof.Tests

open Sys2Proof Sys2Proof.Machine

set_option maxRecDepth 20000
set_option Elab.async false

/-! ## Helpers -/

/-- The state after one step that runs the command word `w`. -/
def ran (w : Nat) (s : State) : State :=
  match step (s.withFetchWord 64 w) with
  | .next t => t
  | .fault _ => s
  | .refused _ => s

/-- The state after the next step. -/
def stepped (s : State) : State :=
  match step s with
  | .next t => t
  | .fault _ => s
  | .refused _ => s

/-- The state after one action of the host. -/
def acted (a : HostAction) (s : State) : State :=
  match hostAct a s with
  | .next t => t
  | .fault _ => s
  | .refused _ => s

/-- The state in which the command `i`, run in `s`, ends. -/
def after (i : Instr) (s : State) : State :=
  match exec i s with
  | .next t => t
  | .fault _ => s
  | .refused _ => s

theorem exec_after (i : Instr) (s : State) : exec i s = .next (after i s) := by
  obtain ⟨t, h, -⟩ := exec_ends i s
  simp [after, h]

/-- Bytes placed in host memory from address `a` up. -/
def put (a : Nat) (bs : List Nat) (s : State) : State :=
  { s with mem := bs.zipIdx.foldl (fun m p => m.write (a + p.2) (BitVec.ofNat 8 p.1)) s.mem }

/-- The source buffer of the vectors' conventions, at 0x1000. -/
def src (bs : List Nat) (s : State) : State :=
  { put 0x1000 bs s with ops := { s.ops with srcAddr := 0x1000, srcLen := word bs.length } }

/-- The destination buffer of the vectors' conventions, at 0x8000. -/
def dst (cap : Nat) (s : State) : State := { s with ops := { s.ops with dstAddr := 0x8000, dstCap := word cap } }

def arg0 (v : Nat) (s : State) : State := { s with ops := { s.ops with arg0 := word v } }

def arg1 (v : Nat) (s : State) : State := { s with ops := { s.ops with arg1 := word v } }

/-- The first `n` bytes of the destination buffer as numbers. -/
def out (s : State) (n : Nat) : List Nat := (destBytes s n).map BitVec.toNat

/-- `STATUS`, `STATE`, `OUT_LEN`, `RESULT0` and `RESULT1` as numbers. -/
def regs (s : State) : List Nat :=
  [s.status.word, s.stateWord, s.res.outLen, s.res.result0, s.res.result1].map BitVec.toNat

/-- `STATUS`, `STATE`, `OUT_LEN` and `ERR_INFO` as numbers. -/
def errs (s : State) : List Nat := [s.status.word, s.stateWord, s.res.outLen, s.res.errInfo].map BitVec.toNat

/-- The reset state of a machine with a bit buffer of `n` bytes. -/
def capped (n : Nat) : State := State.resetOf { Config.standard with capBytes := n }

/-- The reset state of a machine on which no access at `a` is answered. -/
def holed (a : Nat) : State := State.resetOf { Config.standard with holes := [(a, 1)] }

def abra : List Nat := [0x61, 0x62, 0x72, 0x61, 0x63, 0x61, 0x64, 0x61, 0x62, 0x72, 0x61]

/-- The container of example S1. -/
def container : List Nat :=
  [0x0B, 0x00, 0x01, 0x61, 0x05, 0x62, 0x02, 0x63, 0x01, 0x64, 0x01, 0x72, 0x02, 0x01, 0x17, 0x96, 0xF3, 0x16]

/-- The table of counts of "abracadabra", its tree, its two maps. -/
def counted : State := ran 0x11 (src abra State.reset)

def built : State := ran 0x20 counted

def mapped : State := ran 0x2C (ran 0x28 built)

/-! ## Well-formedness -/

theorem test_config_bounds :
    Config.wellFormed { Config.standard with addrW := 32, capBytes := 1 } = true ∧
    Config.wellFormed { Config.standard with addrW := 64, capBytes := 2 ^ 61 - 1 } = true := by decide

theorem test_config_refused :
    Config.wellFormed { Config.standard with addrW := 31 } = false ∧
    Config.wellFormed { Config.standard with addrW := 65 } = false ∧
    Config.wellFormed { Config.standard with capBytes := 0 } = false ∧
    Config.wellFormed { Config.standard with capBytes := 2 ^ 61 } = false := by decide

theorem test_access_refused :
    accessWellFormed 0x18 8 = true ∧ accessWellFormed 0xFF8 8 = true ∧ accessWellFormed 0x18 4 = false ∧
    accessWellFormed 0x1C 8 = false ∧ accessWellFormed 0x1000 8 = false := by decide

theorem test_reserved_bits_refused :
    reservedClear 0xFF = true ∧ reservedClear 0x100 = false ∧ reservedClear (2 ^ 63) = false := by decide

/-! ## Decoding: every word of R146, bit by bit -/

theorem test_decode_control :
    decode 0b00000000 = .ok .nop ∧ decode 0b00000001 = .ok .compress ∧ decode 0b00000010 = .ok .decompress := by decide

theorem test_decode_frequency :
    decode 0b00010000 = .ok .freqClear ∧ decode 0b00010001 = .ok .freqCount ∧ decode 0b00010010 = .ok .freqWrite ∧
    decode 0b00010011 = .ok .freqRemove ∧ decode 0b00010100 = .ok .freqRead := by decide

theorem test_decode_tree :
    decode 0b00100000 = .ok .treeBuild ∧ decode 0b00100001 = .ok .nodeRead := by decide

theorem test_decode_maps :
    decode 0b00101000 = .ok .encmapGen ∧ decode 0b00101001 = .ok .lutRead ∧ decode 0b00101100 = .ok .decmapGen ∧
    decode 0b00101101 = .ok .fsmRead := by decide

theorem test_decode_bit_buffer :
    decode 0b00110000 = .ok .bbClear ∧ decode 0b00110001 = .ok .bbAppendBit ∧ decode 0b00110010 = .ok .bbAppendMany ∧
    decode 0b00110011 = .ok .bbGetBit ∧ decode 0b00110100 = .ok .bbLength ∧ decode 0b00110101 = .ok .bbStore := by decide

theorem test_decode_varint :
    decode 0b01000000 = .ok .viMinWidth ∧ decode 0b01000001 = .ok .viPack ∧ decode 0b01000010 = .ok .viUnpack := by decide

theorem test_decode_container :
    decode 0b01010000 = .ok .ctSerialize ∧ decode 0b01010001 = .ok .ctDeserialize := by decide

theorem test_decode_payload : decode 0b01011000 = .ok .encode ∧ decode 0b01011001 = .ok .decode := by decide

theorem test_decode_refused :
    decode 0x03 = .error .reservedOpcode ∧ decode 0x5A = .error .reservedOpcode ∧
    decode 0x100 = .error .reservedBits ∧ decodeTableWord 8 0x59 = some .decode ∧ decodeTableWord 64 0x159 = none := by
  decide

theorem test_decode_bytes :
    decodeBytes [0x59, 0, 0, 0, 0, 0, 0, 0, 0xAA] = .ok (.decode, [0xAA]) ∧
    decodeBytes [0, 0, 0, 0, 0, 0, 0, 0x59] = .error .reservedBits ∧
    decodeBytes [0x59, 0, 0] = .error .shortWord := by decide

/-! ## Commands -/

/-- V2, V3. -/
theorem test_nop : regs (ran 0x00 State.reset) = [2, 0x11, 0, 0, 0] := by decide +kernel

theorem test_illegal : errs (ran 0x03 State.reset) = [0x104, 0x11, 0, 3] := by decide +kernel

/-- S1, V213. -/
theorem test_compress :
    regs (ran 0x01 (dst 64 (src abra State.reset))) = [2, 0x500000017, 18, 23, 4] ∧
    out (ran 0x01 (dst 64 (src abra State.reset))) 18 = container := by decide +kernel

theorem test_compress_overflow : errs (ran 0x01 (dst 17 (src abra State.reset))) = [0x604, 0, 0, 17] := by decide +kernel

/-- S1, V215. -/
theorem test_decompress :
    regs (ran 0x02 (dst 64 (src container State.reset))) = [2, 0x50000001B, 11, 5, 23] ∧
    out (ran 0x02 (dst 64 (src container State.reset))) 11 = abra := by decide +kernel

theorem test_decompress_cut :
    errs (ran 0x02 (dst 64 (src (container.take 17) State.reset))) = [0xB04, 0, 0, 15] := by decide +kernel

/-- V56. -/
theorem test_freq_clear :
    regs (ran 0x10 built) = [2, 0x11, 0, 5, 8] ∧ (ran 0x10 built).ft.map FreqTable.size = some 0 := by decide +kernel

/-- V50, V63. -/
theorem test_freq_count :
    regs counted = [2, 0x11, 0, 5, 0] ∧
    counted.ft.map FreqTable.entries = some [(0x61, 5), (0x62, 2), (0x63, 1), (0x64, 1), (0x72, 2)] := by decide +kernel

theorem test_freq_count_hole : errs (ran 0x11 (src abra (holed 0x1003))) = [0x404, 0x10, 0, 0x1003] := by decide +kernel

/-- V82, V59. -/
theorem test_freq_write :
    regs (ran 0x12 (arg1 7 (arg0 0x7A built))) = [2, 0x11, 0, 5, 8] ∧
    (ran 0x12 (arg1 7 (arg0 0x7A built))).ft.map (fun t => FreqTable.entry t 0x7A) = some (some 7) := by decide +kernel

theorem test_freq_write_range : errs (ran 0x12 (arg0 0x100 State.reset)) = [0x204, 0x10, 0, 0x100] := by decide +kernel

/-- V58. -/
theorem test_freq_remove :
    (ran 0x13 (arg0 0x61 counted)).ft.map (fun t => (FreqTable.entry t 0x61, FreqTable.entry t 0x62)) =
      some (none, some 2) := by decide +kernel

/-- V51, V52. -/
theorem test_freq_read : regs (ran 0x14 (arg0 0x61 counted)) = [2, 0x11, 0, 5, 1] := by decide +kernel

theorem test_freq_read_absent : regs (ran 0x14 (arg0 0x7A counted)) = [2, 0x11, 0, 0, 0] := by decide +kernel

/-- V70, V78: counts 2^64 - 1 and 1. -/
theorem test_tree_build : regs built = [2, 0x500000013, 0, 5, 8] := by decide +kernel

theorem test_tree_build_overflow :
    errs (ran 0x20 (ran 0x12 (arg1 1 (arg0 0x42 (ran 0x12 (arg1 (2 ^ 64 - 1) (arg0 0x41 State.reset))))))) =
      [0xF04, 0x11, 0, 2] := by decide +kernel

/-- V70: slots 3 and 5. -/
theorem test_node_read_leaf : regs (ran 0x21 (arg0 3 built)) = [2, 0x500000013, 0, 1, 0x6400] := by decide +kernel

theorem test_node_read_internal :
    regs (ran 0x21 (arg0 5 built)) = [2, 0x500000013, 0, 2, 0x300026301] := by decide +kernel

/-- V93, V90. -/
theorem test_encmap_gen : regs (ran 0x28 built) = [2, 0x500000017, 0, 5, 4] := by decide +kernel

theorem test_encmap_gen_not_ready : errs (ran 0x28 State.reset) = [0x304, 0x11, 0, 1] := by decide +kernel

/-- V94, V96. -/
theorem test_lut_read : regs (ran 0x29 (arg0 0x63 (ran 0x28 built))) = [2, 0x500000017, 0, 4, 7] := by decide +kernel

theorem test_lut_read_range : errs (ran 0x29 (arg1 4 (ran 0x28 built))) = [0x204, 0x500000017, 0, 4] := by decide +kernel

/-- V98, V101: the machine of a single leaf. -/
theorem test_decmap_gen : regs mapped = [2, 0x50000001F, 0, 4, 3] := by decide +kernel

theorem test_decmap_gen_single :
    regs (ran 0x2C (ran 0x20 (ran 0x11 (src [7] State.reset)))) = [2, 0x10000001B, 0, 1, 0] := by decide +kernel

/-- V99: states 2 and 1. -/
theorem test_fsm_read : regs (ran 0x2D (arg0 2 mapped)) = [2, 0x50000001F, 0, 0x7201, 0x100] := by decide +kernel

theorem test_fsm_read_range : errs (ran 0x2D (arg0 4 mapped)) = [0x204, 0x50000001F, 0, 4] := by decide +kernel

/-- V39, V40. -/
theorem test_bb_clear : regs (ran 0x34 (ran 0x30 State.reset)) = [2, 0x11, 0, 0, 0] := by decide +kernel

/-- V30 with V35's storage byte, V37. -/
theorem test_bb_append_bit :
    (ran 0x31 (arg0 1 (ran 0x31 (arg0 1 (ran 0x31 (arg0 0 (ran 0x31 (arg0 1 State.reset)))))))).bb =
      some { n := 4, st := [0x0D] } := by decide +kernel

theorem test_bb_append_bit_invalid : errs (ran 0x31 (arg0 2 State.reset)) = [0x804, 0x01, 0, 2] := by decide +kernel

/-- V41, V42, V43. -/
theorem test_bb_append_many :
    (ran 0x32 (src [1, 0, 1, 1, 0, 0, 0, 0, 1] State.reset)).bb = some { n := 9, st := [0x0D, 0x01] } := by decide +kernel

theorem test_bb_append_many_invalid : errs (ran 0x32 (src [1, 0, 1, 2] State.reset)) = [0x804, 0x01, 0, 3] := by
  decide +kernel

/-- V32, V33. -/
theorem test_bb_get_bit :
    regs (ran 0x33 (arg0 8 (ran 0x32 (src [1, 0, 1, 1, 0, 0, 0, 0, 1] State.reset)))) = [2, 0x11, 0, 1, 1] := by
  decide +kernel

theorem test_bb_get_bit_absent :
    regs (ran 0x33 (arg0 9 (ran 0x32 (src [1, 0, 1, 1, 0, 0, 0, 0, 1] State.reset)))) = [2, 0x11, 0, 0, 0] := by
  decide +kernel

/-- V31. -/
theorem test_bb_length :
    regs (ran 0x34 (ran 0x32 (src [1, 0, 1, 1, 0, 0, 0, 0, 1] State.reset))) = [2, 0x11, 0, 9, 2] := by decide +kernel

/-- V35, V36. -/
theorem test_bb_store :
    regs (ran 0x35 (dst 2 (ran 0x32 (src [1, 0, 1, 1, 0, 0, 0, 0, 1] State.reset)))) = [2, 0x11, 2, 9, 0] ∧
    out (ran 0x35 (dst 2 (ran 0x32 (src [1, 0, 1, 1, 0, 0, 0, 0, 1] State.reset)))) 2 = [0x0D, 0x01] := by decide +kernel

theorem test_bb_store_overflow :
    errs (ran 0x35 (dst 1 (ran 0x32 (src [1, 0, 1, 1, 0, 0, 0, 0, 1] State.reset)))) = [0x604, 0x11, 0, 1] := by
  decide +kernel

/-- S4. -/
theorem test_vi_min_width :
    [0, 0xFF, 0x100, 2 ^ 64 - 1].map (fun v => (ran 0x40 (arg0 v State.reset)).res.result0) = [1, 1, 2, 8] := by
  decide +kernel

/-- V110, V117. -/
theorem test_vi_pack :
    regs (ran 0x41 (dst 8 (arg1 2 (arg0 1000 State.reset)))) = [2, 0x11, 2, 0, 0] ∧
    out (ran 0x41 (dst 8 (arg1 2 (arg0 1000 State.reset)))) 2 = [0xE8, 0x03] := by decide +kernel

theorem test_vi_pack_width : errs (ran 0x41 (dst 8 (arg1 9 (arg0 1000 State.reset)))) = [0x904, 0x11, 0, 9] := by
  decide +kernel

/-- V120, V125. -/
theorem test_vi_unpack : regs (ran 0x42 (src [0xE8, 0x03] State.reset)) = [2, 0x11, 0, 1000, 0] := by decide +kernel

theorem test_vi_unpack_width :
    errs (ran 0x42 (src [1, 1, 1, 1, 1, 1, 1, 1, 1] State.reset)) = [0xA04, 0x11, 0, 9] := by decide +kernel

/-- V130, V131. -/
theorem test_ct_serialize_empty :
    regs (ran 0x50 (dst 64 State.reset)) = [2, 0x11, 5, 0, 0] ∧ out (ran 0x50 (dst 64 State.reset)) 5 = [1, 0, 1, 1, 0] := by
  decide +kernel

theorem test_ct_serialize : out (ran 0x50 (dst 64 (ran 0x58 mapped))) 18 = container := by decide +kernel

/-- V140, V154: byte 0x41 twice. -/
theorem test_ct_deserialize :
    regs (ran 0x51 (src container State.reset)) = [2, 0x11, 0, 5, 23] ∧
    (ran 0x51 (src container State.reset)).bb = some { n := 23, st := [0x96, 0xF3, 0x16] } := by decide +kernel

theorem test_ct_deserialize_repeat :
    errs (ran 0x51 (src [5, 0, 1, 0x41, 1, 0x41, 2, 1, 0] State.reset)) = [0xE04, 0, 0, 5] := by decide +kernel

/-- V171, V176. -/
theorem test_encode :
    regs (ran 0x58 mapped) = [2, 0x50000001F, 0, 23, 3] ∧
    (ran 0x58 mapped).bb = some { n := 23, st := [0x96, 0xF3, 0x16] } := by decide +kernel

theorem test_encode_no_code : errs (ran 0x58 (src [0x61, 0x7A] mapped)) = [0x1004, 0x50000000F, 0, 1] := by decide +kernel

/-- V179, V183: bits 1, 1, 1, 1 are the code of `d` and the last 1 completes none. -/
theorem test_decode :
    (ran 0x59 (dst 16 (ran 0x58 mapped))).res.outLen = 11 ∧ out (ran 0x59 (dst 16 (ran 0x58 mapped))) 11 = abra := by
  decide +kernel

theorem test_decode_incomplete :
    errs (ran 0x59 (dst 16 (ran 0x32 (src [1, 1, 1, 1, 1] (ran 0x30 mapped))))) = [0x1104, 0x50000001F, 0, 4] := by
  decide +kernel

/-! ## Registers, reset, interrupt -/

/-- V1, V8, V10. -/
theorem test_registers :
    (acted (.regRead 0x000 8) State.reset).hostData = 0x0040000150495A57 ∧
    (acted (.regRead 0x008 8) State.reset).hostData = 0x10000 ∧
    (acted (.regRead 0x028 8) State.reset).hostData = 0x11 ∧
    (acted (.regRead 0x030 8) (acted (.regWrite 0x030 8 (2 ^ 64 - 1)) State.reset)).hostData = 3 := by decide +kernel

/-- V11: a write to `ARG0` while busy is dropped and sets `OVR`, which survives the completion. -/
theorem test_busy_write :
    (stepped (acted (.regWrite 0x058 8 5) (State.reset.accept 0x00))).status.word = 0xA ∧
    (stepped (acted (.regWrite 0x058 8 5) (State.reset.accept 0x00))).ops.arg0 = 0 := by decide +kernel

/-- V14 to V17: a dropped `CMD` write; `OVR` cleared while busy; a soft reset while busy; reads while busy. -/
theorem test_busy_block :
    (acted (.regWrite 0x018 8 0) (State.reset.accept 0x01)).status.word = 0x9 ∧
    (acted (.regWrite 0x018 8 0) (State.reset.accept 0x01)).cmd = 0x01 ∧
    (acted (.regWrite 0x020 8 0xE) (acted (.regWrite 0x018 8 0) (State.reset.accept 0x01))).status.word = 0x1 ∧
    (acted (.regWrite 0x010 8 1) (State.reset.accept 0x01)).status.word = 0 ∧
    (acted (.regWrite 0x010 8 1) (State.reset.accept 0x01)).stateWord = 0x11 ∧
    (acted (.regRead 0x018 8) (State.reset.accept 0x01)).hostData = 1 ∧
    (acted (.regRead 0x020 8) (State.reset.accept 0x01)).hostData = 1 := by decide +kernel

/-- V20, V21, V25. -/
theorem test_interrupt :
    (ran 0x00 (acted (.regWrite 0x030 8 3) State.reset)).irq = true ∧
    (acted (.regWrite 0x020 8 2) (ran 0x00 (acted (.regWrite 0x030 8 3) State.reset))).irq = false ∧
    (acted (.regWrite 0x010 8 1) (ran 0x00 (acted (.regWrite 0x030 8 3) State.reset))).irq = false := by decide +kernel

/-- A store of the host and its load; memory stays canonical when a byte is overwritten by 0. -/
theorem test_host_memory :
    (acted (.load 5) (acted (.store 5 7) State.reset)).hostData = 7 ∧
    (acted (.store 5 0) (acted (.store 5 7) State.reset)).mem = [] ∧ State.reset.mem.wf = true := by decide +kernel

/-! ## Witnesses: command words and steps -/

theorem step_stepped {s : State} (h : (match step s with | .next _ => true | .fault _ => false | .refused _ => false) = true) :
    step s = .next (stepped s) := by
  unfold stepped
  cases hs : step s <;> simp [hs] at h ⊢

theorem acted_next {a : HostAction} {s : State}
    (h : (match hostAct a s with | .next _ => true | .fault _ => false | .refused _ => false) = true) :
    hostAct a s = .next (acted a s) := by
  unfold acted
  cases hs : hostAct a s <;> simp [hs] at h ⊢

theorem witness_DecodeIsTheOpcodeTable :
    ((0x59 : Word) >>> 8 = 0 ∧ opcodeField 0x59 = opcode .decode) ∧ ((0x100 : Word) >>> 8 ≠ 0) ∧
    (∀ i, opcodeField 0x03 ≠ opcode i) ∧ (∀ i, opcodeField 0xFF ≠ opcode i) := by
  refine ⟨by decide, by decide, ?_, ?_⟩ <;> intro i <;> cases i <;> decide

theorem witness_IllegalWordsEndInIllegalCmd :
    State.reset.status.busy = false ∧ (0x100 : Word) >>> 8 ≠ 0 ∧
    (∀ w ∈ [0x03, 0x0F, 0x15, 0x1F, 0x22, 0x27, 0x2A, 0x2B, 0x2E, 0x2F, 0x36, 0x3F, 0x43, 0x4F, 0x52, 0x57, 0x5A, 0xFF],
      let b := (opcodeField (BitVec.ofNat 64 w)).toNat
      (0x03 ≤ b ∧ b ≤ 0x0F) ∨ (0x15 ≤ b ∧ b ≤ 0x1F) ∨ (0x22 ≤ b ∧ b ≤ 0x27) ∨ b = 0x2A ∨ b = 0x2B ∨ b = 0x2E ∨
        b = 0x2F ∨ (0x36 ≤ b ∧ b ≤ 0x3F) ∨ (0x43 ≤ b ∧ b ≤ 0x4F) ∨ (0x52 ≤ b ∧ b ≤ 0x57) ∨ 0x5A ≤ b) := by
  decide

theorem witness_StepRunsTheDecodedCommand :
    (nextAgent (State.reset.accept 0x59) = .block ∧ decode (State.reset.accept 0x59).cmd = .ok .decode) ∧
    (nextAgent (State.reset.accept 0x03) = .block ∧ ∃ r, decode (State.reset.accept 0x03).cmd = .error r) :=
  ⟨⟨by decide, by decide⟩, by decide, .reservedOpcode, by decide⟩

theorem witness_CommandWriteIsAccepted :
    State.reset.status.busy = false ∧ (State.reset.accept 0).status.busy = true := by decide

/-- Idle with a command write to come; busy with a reset to come on the host's turn; busy with the block's turn to come. -/
def toAccept : State := { State.reset with host := [.regWrite 0x018 8 0] }

def toAbort : State := { State.reset.accept 0x01 with host := [.regWrite 0x010 8 1], turns := [.host] }

def toReset : State := { State.reset.accept 0x01 with host := [.platformReset], turns := [.host] }

theorem witness_IdleIsLeftOnlyByAcceptance :
    (step toAccept = .next (stepped toAccept) ∧ toAccept.status.busy = false ∧ (stepped toAccept).status.busy = true) ∧
    (step toAbort = .next (stepped toAbort) ∧ toAbort.status.busy = true ∧ (stepped toAbort).status.busy = false) ∧
    (step toReset = .next (stepped toReset) ∧ toReset.status.busy = true ∧ (stepped toReset).status.busy = false) ∧
    (step (State.reset.accept 0) = .next (stepped (State.reset.accept 0)) ∧
      (State.reset.accept 0).status.busy = true ∧ (stepped (State.reset.accept 0)).status.busy = false) := by
  refine ⟨⟨step_stepped ?_, ?_, ?_⟩, ⟨step_stepped ?_, ?_, ?_⟩, ⟨step_stepped ?_, ?_, ?_⟩, step_stepped ?_, ?_, ?_⟩ <;>
    decide +kernel

theorem witness_EveryCommandCompletes : running (State.reset.accept 0x01) := by decide

theorem witness_BusyBlockReachesIdle :
    (State.reset.accept 0).status.busy = true ∧ nextAgent (State.reset.accept 0) = .block ∧
    toAbort.status.busy = true ∧ nextAgent toAbort = .host := by decide

/-- A running command with the source and destination of `s`. -/
def busy (s : State) : State := s.accept 0

theorem witness_ErrorLeavesOnlyDefinedState :
    (Instr.freqCount ∉ dstWriters) ∧ (Instr.bbStore ∈ dstWriters ∧ (dst 2 State.reset).mem.wf = true ∧
      inDest (dst 2 State.reset) 0x8000 ∧ inDest (dst 2 State.reset) 0x8001 ∧ ¬ inDest (dst 2 State.reset) 0x8002 ∧
      0x8001 < 2 ^ (dst 2 State.reset).cfg.addrW) ∧
    (running (busy State.reset) ∧ exec .treeBuild (busy { State.reset with ft := none }) =
      .next (after .treeBuild (busy { State.reset with ft := none })) ∧
      (after .treeBuild (busy { State.reset with ft := none })).status.err = true) :=
  ⟨by decide, by decide +kernel, by decide, exec_after _ _, by decide +kernel⟩

/-! ## Witnesses: frames -/

theorem witness_RegistersNotNamedAreKept :
    exec .nop (busy State.reset) = .next (after .nop (busy State.reset)) ∧ running (busy State.reset) ∧
    (after .nop (busy State.reset)).status.err = false ∧
    exec .viPack (busy (dst 8 (arg1 1 State.reset))) = .next (after .viPack (busy (dst 8 (arg1 1 State.reset)))) ∧
    (after .viPack (busy (dst 8 (arg1 1 State.reset)))).status.err = false ∧
    exec .viUnpack (busy State.reset) = .next (after .viUnpack (busy State.reset)) ∧
    (after .viUnpack (busy State.reset)).status.err = false :=
  ⟨exec_after _ _, by decide, by decide +kernel, exec_after _ _, by decide +kernel, exec_after _ _, by decide +kernel⟩

theorem witness_StructuresChangeOnlyWhereWritten :
    (∀ s : State, exec .bbStore s = .next (after .bbStore s) ∧ exec .freqClear s = .next (after .freqClear s) ∧
      exec .treeBuild s = .next (after .treeBuild s) ∧ exec .compress s = .next (after .compress s) ∧
      exec .decompress s = .next (after .decompress s)) ∧
    Instr.bbStore ∉ ftWriters ∧ Instr.bbStore ∉ bbWriters ∧ (src container State.reset).ops.srcLen ≠ 0 :=
  ⟨fun _ => ⟨exec_after _ _, exec_after _ _, exec_after _ _, exec_after _ _, exec_after _ _⟩, by decide, by decide,
    by decide⟩

theorem witness_OnlyTheDestinationIsWritten :
    exec .viPack (busy (dst 1 (arg1 1 State.reset))) = .next (after .viPack (busy (dst 1 (arg1 1 State.reset)))) ∧
    running (busy (dst 1 (arg1 1 State.reset))) ∧ (after .viPack (busy (dst 1 (arg1 1 State.reset)))).status.err = false ∧
    Instr.viPack ∈ dstWriters ∧ Instr.freqCount ∉ dstWriters ∧ ¬ inDest (dst 1 State.reset) 0x8001 :=
  ⟨exec_after _ _, by decide, by decide +kernel, by decide, by decide, by decide⟩

/-! ## Witnesses: checks -/

theorem witness_MissingStructureIsNotReady :
    ((needs .treeBuild).find? (fun q => !State.valid { State.reset with ft := none } q) = some .ft) ∧
    ((needs .lutRead).find? (fun q => !State.valid (arg1 3 (arg0 255 State.reset)) q) = some .lut ∧
      (arg1 3 (arg0 255 State.reset)).ops.arg0.toNat ≤ 255 ∧ (arg1 3 (arg0 255 State.reset)).ops.arg1.toNat ≤ 3) ∧
    ((needs .encode).find? (fun q => !State.valid State.reset q) = some .lut ∧
      regionOk State.reset.cfg State.reset.ops.srcAddr State.reset.ops.srcLen = true) ∧
    ((needs .ctSerialize).find? (fun q => !State.valid { State.reset with bb := none } q) = some .bb ∧
      regionOk State.reset.cfg State.reset.ops.dstAddr State.reset.ops.dstCap = true) := by decide +kernel

/-- Buffers whose last byte is the last of DMA space, and one byte more. -/
def srcTop (n : Nat) : State :=
  { State.reset with ops := { State.reset.ops with srcAddr := 2 ^ 64 - 2, srcLen := word n } }

def dstTop (n : Nat) : State :=
  { State.reset with ops := { State.reset.ops with dstAddr := 2 ^ 64 - 2, dstCap := word n } }

/-- A source and a destination that share one byte. -/
def sharing : State :=
  { State.reset with ops := { State.reset.ops with srcAddr := 0x1000, srcLen := 2, dstAddr := 0x1001, dstCap := 1 } }

theorem witness_BuffersAreCheckedFirst :
    (Instr.freqCount ∈ srcReaders ∧ (srcTop 3).ops.srcLen ≠ 0 ∧
      2 ^ (srcTop 3).cfg.addrW < (srcTop 3).ops.srcAddr.toNat + (srcTop 3).ops.srcLen.toNat) ∧
    (Instr.compress ∈ dstWriters ∧ (dstTop 3).ops.srcLen = 0 ∧ (dstTop 3).ops.dstCap ≠ 0 ∧
      2 ^ (dstTop 3).cfg.addrW < (dstTop 3).ops.dstAddr.toNat + (dstTop 3).ops.dstCap.toNat) ∧
    (regionOk (srcTop 2).cfg (srcTop 2).ops.srcAddr (srcTop 2).ops.srcLen = true) ∧
    (sharing.ops.srcAddr.toNat + sharing.ops.srcLen.toNat ≤ 2 ^ sharing.cfg.addrW ∧
      sharing.ops.dstAddr.toNat + sharing.ops.dstCap.toNat ≤ 2 ^ sharing.cfg.addrW ∧
      ∃ a, sharing.ops.srcAddr.toNat ≤ a ∧ a < sharing.ops.srcAddr.toNat + sharing.ops.srcLen.toNat ∧
        sharing.ops.dstAddr.toNat ≤ a ∧ a < sharing.ops.dstAddr.toNat + sharing.ops.dstCap.toNat) :=
  ⟨by decide, by decide, by decide, by decide, by decide, 0x1001, by decide⟩

/-! ## Witnesses: bit buffer -/

/-- A machine with one byte of bit buffer that holds `n` zero bits, `n` at least 1. -/
def filled (n : Nat) : State := { capped 1 with bb := some { n := n, st := [0] } }

theorem witness_filled :
    (filled 7).bb = some { n := 7, st := [0] } ∧ BitBuffer.legal (filled 7).cfg { n := 7, st := [0] } ∧
    (filled 8).bb = some { n := 8, st := [0] } ∧ BitBuffer.legal (filled 8).cfg { n := 8, st := [0] } := by
  unfold BitBuffer.legal; decide

theorem witness_AppendBitExtendsTheBits :
    ({ State.reset with bb := none } : State).bb = none ∧
    ((arg0 1 (filled 7)).ops.arg0.toNat ≤ 1 ∧ 7 < 8 * (arg0 1 (filled 7)).cfg.capBytes) ∧
    1 < (arg0 2 (filled 7)).ops.arg0.toNat ∧
    ((arg0 0 (filled 8)).ops.arg0.toNat ≤ 1 ∧ 8 * (arg0 0 (filled 8)).cfg.capBytes ≤ 8) := by decide

/-- The bits and buffers of `witness_filled`; no access at 0x1001 is answered on the third machine. -/
def many (bs : List Nat) (n : Nat) : State := src bs (filled n)

def manyHole : State := { many [1, 1] 6 with cfg := { (filled 6).cfg with holes := [(0x1001, 1)] } }

theorem witness_AppendManyExtendsTheBits :
    regionOk (srcTop 3).cfg (srcTop 3).ops.srcAddr (srcTop 3).ops.srcLen = false ∧
    regionOk (srcTop 2).cfg (srcTop 2).ops.srcAddr (srcTop 2).ops.srcLen = true ∧
    (sourceReadable (many [1, 0] 6) ∧ (∀ v ∈ sourceBytes (many [1, 0] 6), v.toNat ≤ 1) ∧
      6 + (many [1, 0] 6).ops.srcLen.toNat ≤ 8 * (many [1, 0] 6).cfg.capBytes) ∧
    (sourceReadableTo manyHole 1 ∧ (∀ j < 1, (sourceByte manyHole j).toNat ≤ 1) ∧ 6 + 1 ≤ 8 * manyHole.cfg.capBytes ∧
      Config.memOK manyHole.cfg (manyHole.ops.srcAddr.toNat + 1) = false) ∧
    (sourceReadableTo (many [1, 2] 7) 1 ∧ (∀ j < 1, (sourceByte (many [1, 2] 7) j).toNat ≤ 1) ∧
      7 + 1 ≤ 8 * (many [1, 2] 7).cfg.capBytes ∧
      Config.memOK (many [1, 2] 7).cfg ((many [1, 2] 7).ops.srcAddr.toNat + 1) = true ∧
      1 < (sourceByte (many [1, 2] 7) 1).toNat) ∧
    ((∀ j < 1, (sourceByte (many [1, 1] 7) j).toNat ≤ 1) ∧ (sourceByte (many [1, 1] 7) 1).toNat ≤ 1 ∧
      7 + 1 = 8 * (many [1, 1] 7).cfg.capBytes) := by decide +kernel

theorem witness_BitBufferReads :
    (arg0 6 (filled 7)).ops.arg0.toNat < 7 ∧ 7 ≤ (arg0 7 (filled 7)).ops.arg0.toNat := by decide

/-- A buffer of 9 bits and a destination of `cap` bytes at 0x8000. -/
def stored (cap : Nat) : State := dst cap { State.reset with bb := some { n := 9, st := [0x0D, 0x01] } }

def storedHole : State := { stored 2 with cfg := { State.reset.cfg with holes := [(0x8001, 1)] } }

theorem witness_BitBufferIsStored :
    regionOk (dstTop 3).cfg (dstTop 3).ops.dstAddr (dstTop 3).ops.dstCap = false ∧
    BitBuffer.legal (stored 2).cfg { n := 9, st := [0x0D, 0x01] } ∧ (stored 2).mem.wf = true ∧
    destWritable (stored 2) ((9 + 7) / 8) ∧
    ((stored 1).ops.dstCap.toNat < (9 + 7) / 8 ∧ destAnswersTo (stored 1) (stored 1).ops.dstCap.toNat ∧
      regionOk (stored 1).cfg (stored 1).ops.dstAddr (stored 1).ops.dstCap = true) ∧
    (1 < (9 + 7) / 8 ∧ 1 < storedHole.ops.dstCap.toNat ∧ destAnswersTo storedHole 1 ∧
      Config.memOK storedHole.cfg (storedHole.ops.dstAddr.toNat + 1) = false) := by
  unfold BitBuffer.legal; decide +kernel

/-! ## Witnesses: frequency counter and tree -/

theorem witness_FreqCountCountsTheSource :
    sourceReadable (src abra State.reset) ∧ sourceReadable State.reset ∧
    (regionOk (src abra (holed 0x1003)).cfg (src abra (holed 0x1003)).ops.srcAddr (src abra (holed 0x1003)).ops.srcLen =
        true ∧ 3 < (src abra (holed 0x1003)).ops.srcLen.toNat ∧ sourceReadableTo (src abra (holed 0x1003)) 3 ∧
      Config.memOK (src abra (holed 0x1003)).cfg ((src abra (holed 0x1003)).ops.srcAddr.toNat + 3) = false) := by
  decide +kernel

theorem witness_FrequencyEntriesAreSetAndRead :
    255 < (arg0 256 State.reset).ops.arg0.toNat ∧ (arg0 255 State.reset).ops.arg0.toNat ≤ 255 ∧
    ({ State.reset with ft := none } : State).ft = none ∧
    (BitVec.toNat (0x61 : Byte) = (arg0 0x61 counted).ops.arg0.toNat ∧
      counted.ft.map (fun t => FreqTable.entry t 0x61) = some (some 5)) ∧
    (BitVec.toNat (0x7A : Byte) = (arg0 0x7A counted).ops.arg0.toNat ∧
      counted.ft.map (fun t => FreqTable.entry t 0x7A) = some none) := by decide +kernel

/-- Tables with the counts given for bytes 0, 1, 2. -/
def table (cs : List Word) : FreqTable :=
  cs.zipIdx.foldl (fun t p => FreqTable.put t (BitVec.ofNat 8 p.2) (some p.1)) FreqTable.empty

theorem witness_TreeBuildAnswersTheTree :
    (∀ b, FreqTable.entry (table []) b = none) ∧
    ((∃ b, FreqTable.entry (table [2 ^ 64 - 2, 1]) b ≠ none) ∧ totalCount (table [2 ^ 64 - 2, 1]) < 2 ^ 64) ∧
    2 ^ 64 ≤ totalCount (table [2 ^ 64 - 1, 1]) :=
  ⟨fun b => by simp [table], ⟨⟨0, by decide +kernel⟩, by decide +kernel⟩, by decide +kernel⟩

/-- The tree of a table, or a leaf where there is none. -/
def treeOf (ft : FreqTable) : Tree :=
  match build ft with
  | .ok (some t) => t
  | _ => { nleaf := 1, nodes := [.leaf 0 0] }

/-- Built trees with one, two and three leaves, for every statement about a built tree. -/
theorem witness_built :
    build (table [5]) = .ok (some (treeOf (table [5]))) ∧ (treeOf (table [5])).nleaf = 1 ∧
    build (table [1, 1]) = .ok (some (treeOf (table [1, 1]))) ∧ (treeOf (table [1, 1])).nleaf = 2 ∧
    build (table [1, 1, 2]) = .ok (some (treeOf (table [1, 1, 2]))) ∧ (treeOf (table [1, 1, 2])).nleaf = 3 := by
  decide +kernel

theorem witness_ArenaOfABuiltTree :
    ((treeOf (table [1, 1, 2])).nleaf ≤ 3 ∧ 3 < 2 * (treeOf (table [1, 1, 2])).nleaf - 1) ∧
    ((treeOf (table [1, 1, 2])).nleaf ≤ 4 ∧ 4 < 2 * (treeOf (table [1, 1, 2])).nleaf - 1) ∧
    ((treeOf (table [1, 1, 2])).node 3).left.toNat = 0 := by decide +kernel

theorem witness_LeastTwoAreMerged :
    (treeOf (table [1, 1, 2])).inSet 3 0 ∧ (treeOf (table [1, 1, 2])).inSet 3 2 ∧ (2 : Nat) ≠ 0 ∧
    2 ≠ ((treeOf (table [1, 1, 2])).node 3).left.toNat ∧ 2 ≠ ((treeOf (table [1, 1, 2])).node 3).right.toNat := by
  refine ⟨⟨by decide, fun i h h' => ?_⟩, ⟨by decide, fun i h h' => ?_⟩, by decide +kernel⟩
  all_goals
    have : (treeOf (table [1, 1, 2])).nleaf = 3 := witness_built.2.2.2.2.2
    omega

theorem witness_NodesAreReadBack :
    ({ State.reset with tree := none } : State).tree = none ∧
    (2 * (treeOf (table [1, 1])).nleaf - 2 < (arg0 3 State.reset).ops.arg0.toNat) ∧
    ((arg0 2 State.reset).ops.arg0.toNat ≤ 2 * (treeOf (table [1, 1])).nleaf - 2 ∧
      (treeOf (table [1, 1])).node 2 = .internal 0 1 2 0) ∧
    (treeOf (table [1, 1])).node 0 = .leaf 0 1 := by decide +kernel

/-! ## Witnesses: codes and maps -/

theorem witness_CodesAreACompletePrefixCode :
    codeOf (treeOf (table [1, 1])) 0 = some [false] ∧ codeOf (treeOf (table [1, 1])) 1 = some [true] ∧
    codeOf (treeOf (table [5])) 0 = some [false] := by decide +kernel

theorem witness_EncodeMapHoldsTheCodes :
    ({ State.reset with tree := some (treeOf (table [1, 1])) } : State).tree = some (treeOf (table [1, 1])) ∧
    (Lut.entry (genLut (treeOf (table [1, 1]))) 1).len.toNat = 1 ∧
    (Lut.entry (genLut (treeOf (table [1, 1]))) 2).len.toNat = 0 := by
  refine ⟨rfl, ?_, ?_⟩ <;> decide +kernel

theorem witness_CodesAreReadBack :
    255 < (arg0 256 State.reset).ops.arg0.toNat ∧
    ((arg0 255 State.reset).ops.arg0.toNat ≤ 255 ∧ 3 < (arg1 4 (arg0 255 State.reset)).ops.arg1.toNat) ∧
    ((arg1 3 (arg0 255 State.reset)).ops.arg1.toNat ≤ 3 ∧ State.reset.lut = none) ∧ mapped.lut.isSome = true := by
  decide +kernel

theorem witness_DecodeMapIsTheTree :
    (treeOf (table [5])).nleaf = 1 ∧ 2 ≤ (treeOf (table [1, 1, 2])).nleaf ∧
    (0 < (treeOf (table [1, 1, 2])).nleaf - 1 ∧
      (treeOf (table [1, 1, 2])).node ((treeOf (table [1, 1, 2])).node (3 + 0)).left.toNat = .leaf 0 1) ∧
    (1 < (treeOf (table [1, 1, 2])).nleaf - 1 ∧
      (treeOf (table [1, 1, 2])).node ((treeOf (table [1, 1, 2])).node (3 + 1)).left.toNat = .internal 0 1 2 0 ∧
      (treeOf (table [1, 1, 2])).node ((treeOf (table [1, 1, 2])).node (3 + 1)).right.toNat = .leaf 2 2) := by
  decide +kernel

/-- The codes of the tree over three bytes, for the four kinds of output and rest. -/
theorem witness_DecoderComputesTheDecodeMap :
    (codes (treeOf (table [1, 1, 2])) = [(0, [false, false]), (1, [false, true]), (2, [true])]) ∧
    (∀ v ∈ ([0, 2] : List Byte), (codeOf (treeOf (table [1, 1, 2])) v).isSome = true) ∧
    (∀ p ∈ codes (treeOf (table [1, 1, 2])), ¬ p.2 <+: [false]) ∧ (∀ p ∈ codes (treeOf (table [1, 1, 2])), ¬ p.2 <+: []) ∧
    (∀ p ∈ codes (treeOf (table [5])), ¬ p.2 <+: [true, false]) ∧ (∀ p ∈ codes (treeOf (table [5])), ¬ p.2 <+: []) := by
  decide +kernel

theorem witness_DecoderStatesAreReadBack :
    State.reset.fsm = none ∧ mapped.fsm.map (fun f => f.states.length - 1) = some 3 ∧
    3 < (arg0 4 mapped).ops.arg0.toNat ∧
    mapped.fsm.map (fun f => f.states[(arg0 3 mapped).ops.arg0.toNat]?) = some (some (.emit 0x61, .goto 2)) := by
  decide +kernel

/-! ## Witnesses: integers -/

/-- `VI_PACK` of `v` in width `w` with a destination of `cap` bytes. -/
def packing (v w cap : Nat) : State := dst cap (arg1 w (arg0 v State.reset))

def packingHole : State := { packing 1000 2 2 with cfg := { State.reset.cfg with holes := [(0x8001, 1)] } }

theorem witness_PackWritesTheValue :
    (packing 256 1 2).mem.wf = true ∧
    regionOk (packing 256 1 2).cfg (packing 256 1 2).ops.dstAddr (packing 256 1 2).ops.dstCap = true ∧
    (packing 0 0 2).ops.arg1.toNat = 0 ∧ 8 < (packing 0 9 9).ops.arg1.toNat ∧
    2 ^ (8 * (packing 256 1 2).ops.arg1.toNat) ≤ (packing 256 1 2).ops.arg0.toNat ∧
    (1 ≤ (packing 255 1 1).ops.arg1.toNat ∧ (packing 255 1 1).ops.arg0.toNat < 2 ^ (8 * (packing 255 1 1).ops.arg1.toNat) ∧
      destWritable (packing 255 1 1) (packing 255 1 1).ops.arg1.toNat) ∧
    ((packing (2 ^ 64 - 1) 8 8).ops.arg1.toNat ≤ 8 ∧
      (packing (2 ^ 64 - 1) 8 8).ops.arg0.toNat < 2 ^ (8 * (packing (2 ^ 64 - 1) 8 8).ops.arg1.toNat) ∧
      destWritable (packing (2 ^ 64 - 1) 8 8) (packing (2 ^ 64 - 1) 8 8).ops.arg1.toNat) ∧
    ((packing 0 2 1).ops.dstCap.toNat < (packing 0 2 1).ops.arg1.toNat ∧
      destAnswersTo (packing 0 2 1) (packing 0 2 1).ops.dstCap.toNat) ∧
    (1 < packingHole.ops.arg1.toNat ∧ 1 < packingHole.ops.dstCap.toNat ∧ destAnswersTo packingHole 1 ∧
      Config.memOK packingHole.cfg (packingHole.ops.dstAddr.toNat + 1) = false) := by decide +kernel

def nineBytes : State := src [1, 1, 1, 1, 1, 1, 1, 1, 1] State.reset

def eightBytes : State := src [1, 1, 1, 1, 1, 1, 1, 1] State.reset

theorem witness_UnpackReadsTheValue :
    (regionOk nineBytes.cfg nineBytes.ops.srcAddr nineBytes.ops.srcLen = true ∧ 8 < nineBytes.ops.srcLen.toNat) ∧
    (eightBytes.ops.srcLen.toNat ≤ 8 ∧ sourceReadableTo eightBytes eightBytes.ops.srcLen.toNat) ∧
    (State.reset.ops.srcLen.toNat ≤ 8 ∧ sourceReadableTo State.reset State.reset.ops.srcLen.toNat) ∧
    (1 < (src [1, 1] (holed 0x1001)).ops.srcLen.toNat ∧ sourceReadableTo (src [1, 1] (holed 0x1001)) 1 ∧
      Config.memOK (src [1, 1] (holed 0x1001)).cfg ((src [1, 1] (holed 0x1001)).ops.srcAddr.toNat + 1) = false) := by
  decide +kernel

theorem witness_UnpackInvertsPack :
    1 ≤ 1 ∧ 1 + 7 ≤ 8 ∧ (255 : Word).toNat < 2 ^ (8 * 1) ∧ 8 + 0 ≤ 8 ∧ (2 ^ 64 - 1 : Word).toNat < 2 ^ (8 * 8) := by decide

/-! ## Witnesses: container -/

/-- The bit buffer of example S1. -/
def payload : BitBuffer := { n := 23, st := [0x96, 0xF3, 0x16] }

/-- The table of example S1. -/
def counts : FreqTable := FreqTable.ofBytes (abra.map (BitVec.ofNat 8))

theorem witness_container : (containerOf counts payload).map BitVec.toNat = container ∧ payload.legal State.reset.cfg := by
  unfold BitBuffer.legal; decide +kernel

def serializing (cap : Nat) : State := dst cap { State.reset with ft := some counts, bb := some payload }

def serializingHole : State := { serializing 18 with cfg := { State.reset.cfg with holes := [(0x8011, 1)] } }

theorem witness_ContainerIsWritten :
    (serializing 18).mem.wf = true ∧ destWritable (serializing 18) (containerOf counts payload).length ∧
    ((serializing 17).ops.dstCap.toNat < (containerOf counts payload).length ∧
      destAnswersTo (serializing 17) (serializing 17).ops.dstCap.toNat) ∧
    (17 < (containerOf counts payload).length ∧ 17 < serializingHole.ops.dstCap.toNat ∧
      destAnswersTo serializingHole 17 ∧ Config.memOK serializingHole.cfg (serializingHole.ops.dstAddr.toNat + 17) = false) ∧
    regionOk (serializing 18).cfg (serializing 18).ops.dstAddr (serializing 18).ops.dstCap = true := by decide +kernel

/-- A byte string as a container. -/
def str (bs : List Nat) : List Byte := bs.map (BitVec.ofNat 8)

theorem witness_readable :
    sourceReadable (src [3, 0, 1, 0x41, 5, 1, 3, 7] State.reset) ∧
    sourceBytes (src [3, 0, 1, 0x41, 5, 1, 3, 7] State.reset) = str [3, 0, 1, 0x41, 5, 1, 3, 7] := by decide +kernel

/-- One string for each check of the first three groups in turn (V144, V145, V151, V153, V152, V154); the next theorem has
one for each of the others, and the two after it the sources. -/
theorem witness_MalformedTablesAreRefused :
    (str [3]).length < 2 ∧
    (2 ≤ (str [3, 0, 1]).length ∧ (str [3, 0, 1]).length < 2 + tableLength (str [3, 0, 1])) ∧
    (2 ≤ (str [0, 0, 1, 0]).length ∧ tableLength (str [0, 0, 1, 0]) = 0) ∧
    (2 + tableLength (str [1, 0, 9]) ≤ (str [1, 0, 9]).length ∧ 0 < tableLength (str [1, 0, 9]) ∧
      8 < countWidth (str [1, 0, 9])) ∧
    (2 + tableLength (str [2, 0, 8, 0x41]) ≤ (str [2, 0, 8, 0x41]).length ∧ countWidth (str [2, 0, 8, 0x41]) ≤ 8 ∧
      (tableLength (str [2, 0, 8, 0x41]) - 1) % (1 + countWidth (str [2, 0, 8, 0x41])) ≠ 0) ∧
    (tableShaped (str [3, 0, 0, 0x41, 0x41]) ∧ 1 < entryCount (str [3, 0, 0, 0x41, 0x41]) ∧
      entriesDistinct (str [3, 0, 0, 0x41, 0x41]) 1 ∧
      entryByte (str [3, 0, 0, 0x41, 0x41]) 0 = entryByte (str [3, 0, 0, 0x41, 0x41]) 1) := by decide +kernel

theorem witness_MalformedContainersAreRefused :
    (tableReadable (str [3, 0, 1, 0x41, 5]) ∧ (str [3, 0, 1, 0x41, 5]).length = 2 + tableLength (str [3, 0, 1, 0x41, 5])) ∧
    (tableReadable (str [1, 0, 8, 9]) ∧ 3 + tableLength (str [1, 0, 8, 9]) ≤ (str [1, 0, 8, 9]).length ∧
      8 < bitCountWidth (str [1, 0, 8, 9])) ∧
    (tableReadable (str [1, 0, 1, 8]) ∧ bitCountWidth (str [1, 0, 1, 8]) ≤ 8 ∧
      (str [1, 0, 1, 8]).length < payloadOffset (str [1, 0, 1, 8])) ∧
    (headerReadable (str [1, 0, 1, 1, 9, 0]) ∧
      (str [1, 0, 1, 1, 9, 0]).length < payloadOffset (str [1, 0, 1, 1, 9, 0]) + (bitCount (str [1, 0, 1, 1, 9, 0]) + 7) / 8) ∧
    (headerReadable (str [1, 0, 1, 1, 8, 0, 0]) ∧
      payloadOffset (str [1, 0, 1, 1, 8, 0, 0]) + (bitCount (str [1, 0, 1, 1, 8, 0, 0]) + 7) / 8 <
        (str [1, 0, 1, 1, 8, 0, 0]).length) ∧
    (headerReadable (str [1, 0, 1, 1, 9, 0, 0]) ∧
      payloadOffset (str [1, 0, 1, 1, 9, 0, 0]) + (bitCount (str [1, 0, 1, 1, 9, 0, 0]) + 7) / 8 =
        (str [1, 0, 1, 1, 9, 0, 0]).length ∧
      (capped 1).cfg.capBytes < (bitCount (str [1, 0, 1, 1, 9, 0, 0]) + 7) / 8) := by
  refine ⟨?_, ?_, ?_, ?_, ?_, ?_⟩ <;> decide +kernel

/-- Each of these strings is a source in a region that is in DMA space, wholly readable. -/
theorem witness_CheckedSources :
    ∀ bs ∈ [[3], [3, 0, 1], [0, 0, 1, 0], [1, 0, 9], [2, 0, 8, 0x41], [3, 0, 0, 0x41, 0x41], [3, 0, 1, 0x41, 5],
        [1, 0, 8, 9], [1, 0, 1, 8], [1, 0, 1, 1, 9, 0], [1, 0, 1, 1, 8, 0, 0], [1, 0, 1, 1, 9, 0, 0]],
      sourceReadable (src bs (capped 1)) ∧ sourceBytes (src bs (capped 1)) = str bs := by decide +kernel

/-- A hole at the first byte that the checks of a group need not read, for the second to the fifth group. -/
theorem witness_ChecksBeforeAHole :
    sourceReadableTo (src [3, 0, 1] (holed 0x1002)) 2 ∧
    sourceReadableTo (src [1, 0, 9, 0] (holed 0x1003)) (2 + tableLength (str [1, 0, 9, 0])) ∧
    sourceReadableTo (src [1, 0, 8, 9, 0] (holed 0x1004)) (3 + tableLength (str [1, 0, 8, 9, 0])) ∧
    sourceReadableTo (src [1, 0, 1, 1, 9, 0] (holed 0x1005)) (payloadOffset (str [1, 0, 1, 1, 9, 0])) := by decide +kernel

/-- A hole at the first and last byte of each part of the container of S1: the table length, the table section, the
bit-count width, the bit count (one byte) and the payload. -/
theorem witness_ContainerHoles :
    (∀ k ∈ [0, 1, 2, 12, 13, 14, 15, 17],
      let s := src container (holed (0x1000 + k))
      regionOk s.cfg s.ops.srcAddr s.ops.srcLen = true ∧ sourceReadableTo s k ∧
      Config.memOK s.cfg (s.ops.srcAddr.toNat + k) = false ∧ sourceBytes s = str container) ∧
    (str container).length = 18 ∧ 3 + tableLength (str container) = 14 ∧ payloadOffset (str container) = 15 ∧
    headerReadable (str container) ∧ payloadOffset (str container) + (bitCount (str container) + 7) / 8 = 18 ∧
    (bitCount (str container) + 7) / 8 ≤ State.reset.cfg.capBytes := by decide +kernel

theorem witness_WellFormedContainersAreLoaded :
    headerReadable (str [3, 0, 1, 0x41, 5, 1, 3, 0xFF]) ∧
    payloadOffset (str [3, 0, 1, 0x41, 5, 1, 3, 0xFF]) + (bitCount (str [3, 0, 1, 0x41, 5, 1, 3, 0xFF]) + 7) / 8 =
      (str [3, 0, 1, 0x41, 5, 1, 3, 0xFF]).length ∧
    (bitCount (str [3, 0, 1, 0x41, 5, 1, 3, 0xFF]) + 7) / 8 ≤ (capped 1).cfg.capBytes := by decide +kernel

theorem witness_DeserializeInvertsSerialize :
    State.reset.cfg.wellFormed = true ∧ sourceReadable (src container State.reset) ∧
    sourceBytes (src container State.reset) = containerOf counts payload := by decide +kernel

theorem witness_CutOrExtendedContainersAreRefused :
    payload.n < 2 ^ 64 ∧ sourceReadable (dst 64 (src (container.take 17) State.reset)) ∧
    regionOk State.reset.cfg (dst 64 State.reset).ops.dstAddr (dst 64 State.reset).ops.dstCap = true ∧
    disjointBuffers (dst 64 (src (container.take 17) State.reset)) ∧
    (str (container.take 17) ≠ [] ∧ str (container.take 17) <+: containerOf counts payload ∧
      str (container.take 17) ≠ containerOf counts payload) ∧
    (str (container.take 1) ≠ [] ∧ str (container.take 1) <+: containerOf counts payload ∧
      str (container.take 1) ≠ containerOf counts payload) ∧
    (containerOf counts payload <+: str (container ++ [0]) ∧ str (container ++ [0]) ≠ containerOf counts payload) := by
  decide +kernel

/-! ## Witnesses: payload and entry points -/

/-- The look-up table of "abracadabra". -/
def abraLut : Lut := genLut (treeOf counts)

/-- `ENCODE` of a string with that table on a machine of `n` bytes of bit buffer. -/
def encoding (bs : List Nat) (n : Nat) : State := src bs { capped n with lut := some abraLut }

def encodingHole : State := { encoding abra 3 with cfg := { (capped 3).cfg with holes := [(0x1003, 1)] } }

theorem witness_EncodeConcatenatesTheCodes :
    State.reset.lut = none ∧
    (sourceReadableTo (encoding abra 3) (encoding abra 3).ops.srcLen.toNat ∧
      (∀ v ∈ sourceBytes (encoding abra 3), (Lut.entry abraLut v).len ≠ 0) ∧
      ((sourceBytes (encoding abra 3)).flatMap fun v => (Lut.entry abraLut v).bits).length = 23 ∧
      23 ≤ 8 * (encoding abra 3).cfg.capBytes) ∧
    (3 < encodingHole.ops.srcLen.toNat ∧ sourceReadableTo encodingHole 3 ∧
      (∀ j < 3, (Lut.entry abraLut (sourceByte encodingHole j)).len ≠ 0) ∧
      Config.memOK encodingHole.cfg (encodingHole.ops.srcAddr.toNat + 3) = false) ∧
    ((∀ j < 1, (Lut.entry abraLut (sourceByte (encoding [0x61, 0x7A] 1) j)).len ≠ 0) ∧
      (Lut.entry abraLut (sourceByte (encoding [0x61, 0x7A] 1) 1)).len = 0) ∧
    (((bytesAt (encoding abra 1).mem 0x1000 4).flatMap fun v => (Lut.entry abraLut v).bits).length ≤
        8 * (encoding abra 1).cfg.capBytes ∧
      8 * (encoding abra 1).cfg.capBytes <
        ((bytesAt (encoding abra 1).mem 0x1000 5).flatMap fun v => (Lut.entry abraLut v).bits).length) := by
  decide +kernel

/-- The decoder of two bytes, with their codes `[0]` and `[1]`, and that of one byte, which is dead on 1. -/
def pairFsm : Fsm := buildFsm (treeOf (table [1, 1]))

def oneFsm : Fsm := buildFsm (treeOf (table [5]))

/-- `DECODE` of the bits 0 and 1 with a destination of `cap` bytes. -/
def decoding (f : Fsm) (cap : Nat) : State := dst cap { State.reset with fsm := some f, bb := some { n := 2, st := [2] } }

def decodingHole : State := { decoding pairFsm 2 with cfg := { State.reset.cfg with holes := [(0x8001, 1)] } }

theorem witness_DecodeWalksTheBits :
    (decoding pairFsm 2).mem.wf = true ∧ BitBuffer.bits { n := 2, st := [2] } = [false, true] ∧
    (Fsm.run pairFsm (some pairFsm.start) [false, true] = (some pairFsm.start, [0, 1]) ∧ destWritable (decoding pairFsm 2) 2) ∧
    ((Fsm.run oneFsm (some oneFsm.start) [false, true]).1 ≠ some oneFsm.start ∧
      (Fsm.run oneFsm (some oneFsm.start) [false, true]).2 = [0] ∧ destWritable (decoding oneFsm 1) 1 ∧
      (Fsm.run oneFsm (some oneFsm.start) [false]).2 = [0] ∧ (Fsm.run oneFsm (some oneFsm.start) []).2.length < 1) ∧
    ((decoding pairFsm 1).ops.dstCap.toNat < 2 ∧ destAnswersTo (decoding pairFsm 1) (decoding pairFsm 1).ops.dstCap.toNat) ∧
    (1 < decodingHole.ops.dstCap.toNat ∧ destAnswersTo decodingHole 1 ∧
      Config.memOK decodingHole.cfg (decodingHole.ops.dstAddr.toNat + 1) = false) ∧
    regionOk (decoding pairFsm 2).cfg (decoding pairFsm 2).ops.dstAddr (decoding pairFsm 2).ops.dstCap = true := by
  decide +kernel

theorem witness_CompressWritesTheContainer :
    (sourceReadable (dst 18 (src abra State.reset)) ∧ disjointBuffers (dst 18 (src abra State.reset)) ∧
      regionOk State.reset.cfg (dst 18 State.reset).ops.dstAddr (dst 18 State.reset).ops.dstCap = true ∧
      (src abra State.reset).mem.wf = true) ∧
    State.reset.ops.srcLen = 0 ∧ (src abra State.reset).ops.srcLen ≠ 0 ∧
    8 * (capped 2).cfg.capBytes < (payloadBits (treeOf counts) (str abra)).length ∧
    ((payloadBits (treeOf counts) (str abra)).length ≤ 8 * (capped 3).cfg.capBytes ∧
      destWritable (dst 18 (src abra (capped 3))) 18 ∧
      (dst 17 (src abra (capped 3))).ops.dstCap.toNat < 18 ∧ destAnswersTo (dst 17 (src abra (capped 3))) 17) ∧
    (∀ k ∈ [0, 10], let s := dst 18 (src abra (holed (0x1000 + k)))
      k < s.ops.srcLen.toNat ∧ sourceReadableTo s k ∧ Config.memOK s.cfg (s.ops.srcAddr.toNat + k) = false) ∧
    (∀ k ∈ [0, 17], let s := dst 18 (src abra (holed (0x8000 + k)))
      k < s.ops.dstCap.toNat ∧ destAnswersTo s k ∧ Config.memOK s.cfg (s.ops.dstAddr.toNat + k) = false ∧
      sourceReadable s) := by
  decide +kernel

/-- `DECOMPRESS` of a byte string into `cap` bytes. -/
def unpacking (bs : List Nat) (cap : Nat) : State := dst cap (src bs State.reset)

/-- A table with the entries given. -/
def tableOf (es : List (Nat × Word)) : FreqTable :=
  es.foldl (fun t e => FreqTable.put t (BitVec.ofNat 8 e.1) (some e.2)) FreqTable.empty

theorem holdsContainer_of_lookup {c : List Byte} {ft : FreqTable} {b : BitBuffer} (hh : headerReadable c)
    (he : payloadOffset c + (bitCount c + 7) / 8 = c.length)
    (hf : ∀ v, FreqTable.entry ft v =
      ((List.range (entryCount c)).find? fun j => entryByte c j == v).map fun j => word (entryValue c j))
    (hn : b.n = bitCount c)
    (hb : ∀ i < bitCount c, b.getBit i = some ((c.getD (payloadOffset c + i / 8) 0).getLsbD (i % 8))) :
    holdsContainer c ft b := by
  refine ⟨hh, he, fun v n => ?_, hn, hb⟩
  rw [hf, Option.map_eq_some_iff]
  constructor
  · rintro ⟨j, hj, hv⟩
    exact ⟨j, List.mem_range.1 (List.mem_of_find?_eq_some hj), by simpa using List.find?_some hj, hv⟩
  · rintro ⟨j, hj, hv, hw⟩
    refine ⟨j, List.find?_range_eq_some.2 ⟨by simpa using hv, List.mem_range.2 hj, fun i hi => ?_⟩, hw⟩
    have := hh.1.2.2 j hj i hi
    simpa [← hv] using this

/-- Entries in descending order of byte value, two bytes wide, with a bit count two bytes wide and pad bits set: three bits of
payload, the codes of "aba". -/
def wide : List Nat := [7, 0, 2, 0x62, 1, 0, 0x61, 2, 0, 2, 3, 0, 0xFD]

/-- Entries and a bit count zero bytes wide: two counts of 0 and no payload. -/
def narrow : List Nat := [3, 0, 0, 0x42, 0x41, 0]

/-- One byte value, and a payload whose second bit its decoder is dead on. -/
def deadEnd : List Nat := [3, 0, 1, 0x41, 5, 1, 2, 0xFE]

/-- Two counts of eight bytes that sum to 2^64. -/
def heavy : List Nat := [19, 0, 8, 1, 255, 255, 255, 255, 255, 255, 255, 255, 2, 1, 0, 0, 0, 0, 0, 0, 0, 0]

/-- No serializer writes these containers, and the last has no entry. -/
theorem witness_holdsContainer :
    holdsContainer (str wide) (tableOf [(0x61, 2), (0x62, 1)]) { n := 3, st := [5] } ∧
    holdsContainer (str narrow) (tableOf [(0x41, 0), (0x42, 0)]) BitBuffer.empty ∧
    holdsContainer (str deadEnd) (tableOf [(0x41, 5)]) { n := 2, st := [2] } ∧
    holdsContainer (str heavy) (tableOf [(1, 2 ^ 64 - 1), (2, 1)]) BitBuffer.empty ∧
    holdsContainer (str [1, 0, 8, 0]) (tableOf []) BitBuffer.empty := by
  refine ⟨?_, ?_, ?_, ?_, ?_⟩ <;> apply holdsContainer_of_lookup <;> decide +kernel

theorem witness_DecompressWritesTheData :
    (∀ bs ∈ [container, wide, narrow, deadEnd, heavy, [1, 0, 8, 0], [1, 0, 1, 1, 0]],
      sourceReadable (unpacking bs 11) ∧ disjointBuffers (unpacking bs 11) ∧ sourceBytes (unpacking bs 11) = str bs ∧
      (unpacking bs 11).ops.srcLen ≠ 0 ∧ (unpacking bs 11).mem.wf = true ∧ destWritable (unpacking bs 11) 11) ∧
    (State.reset.cfg.wellFormed = true ∧ State.reset.ops.srcLen = 0) ∧
    (endsWith .ctDeserialize (src [0x0B] State.reset) .ctTruncated 0 ∧ (src [0x0B] State.reset).ops.srcLen ≠ 0) ∧
    endsWith .ctDeserialize (src container (holed 0x1011)) .memFault 0x1011 ∧
    (str [1, 0, 1, 1, 0] = containerOf (table []) BitBuffer.empty ∧ ∀ v, FreqTable.entry (table []) v = none) ∧
    2 ^ 64 ≤ totalCount (tableOf [(1, 2 ^ 64 - 1), (2, 1)]) ∧
    (build counts = .ok (some (treeOf counts)) ∧ (∀ v ∈ str abra, (codeOf (treeOf counts) v).isSome = true) ∧
      payload.bits = payloadBits (treeOf counts) (str abra)) := by
  refine ⟨by decide +kernel, by decide, ⟨endsWith_of_body rfl, by decide +kernel⟩, endsWith_of_body ?_,
    ⟨by decide +kernel, fun b => by simp [table]⟩, by decide +kernel, by decide +kernel⟩
  decide +kernel

/-- The runs of the built machines over these payloads: at a code's end, empty, and dead; and a destination that is one byte
short of the three bytes, or whose third byte does not answer. -/
theorem witness_DecompressRunsTheMachine :
    (let t := treeOf (tableOf [(0x61, 2), (0x62, 1)])
     build (tableOf [(0x61, 2), (0x62, 1)]) = .ok (some t) ∧
     BitBuffer.bits { n := 3, st := [5] } = payloadBits t [0x61, 0x62, 0x61] ∧
     Fsm.run (buildFsm t) (some (buildFsm t).start) [true, false, true] =
       (some (buildFsm t).start, [0x61, 0x62, 0x61])) ∧
    (build (tableOf [(0x41, 0), (0x42, 0)]) = .ok (some (treeOf (tableOf [(0x41, 0), (0x42, 0)])))) ∧
    (let f := buildFsm (treeOf (tableOf [(0x41, 5)]))
     build (tableOf [(0x41, 5)]) = .ok (some (treeOf (tableOf [(0x41, 5)]))) ∧
     Fsm.run f (some f.start) [false, true] = (none, [0x41]) ∧ (Fsm.run f (some f.start) [false]).2 = [0x41] ∧
     (Fsm.run f (some f.start) []).2.length < 1) ∧
    ((unpacking wide 2).ops.dstCap.toNat < 3 ∧ destAnswersTo (unpacking wide 2) 2) ∧
    (∀ k ∈ [0, 2], let s := dst 3 (src wide (holed (0x8000 + k)))
      k < s.ops.dstCap.toNat ∧ destAnswersTo s k ∧ Config.memOK s.cfg (s.ops.dstAddr.toNat + k) = false ∧
      sourceReadable s) := by
  decide +kernel

/-- The machine that compresses "abracadabra", and one that holds the container it wrote. -/
def compressing : State := busy (dst 18 (src abra (capped 3)))

def decompressing : State := busy (dst 11 (src container (capped 3)))

theorem witness_DecompressInvertsCompress :
    compressing.cfg.wellFormed = true ∧ compressing.mem.wf = true ∧ running compressing ∧ compressing.ops.srcLen ≠ 0 ∧
    exec .compress compressing = .next (after .compress compressing) ∧
    (after .compress compressing).status.err = false ∧
    decompressing.cfg.wellFormed = true ∧ decompressing.mem.wf = true ∧ running decompressing ∧
    compressing.cfg.capBytes ≤ decompressing.cfg.capBytes ∧ sourceReadable decompressing ∧
    sourceBytes decompressing =
      destBytes (after .compress compressing) (after .compress compressing).res.outLen.toNat ∧
    destWritable decompressing compressing.ops.srcLen.toNat ∧ disjointBuffers decompressing := by
  refine ⟨by decide, by decide +kernel, by decide, by decide, exec_after _ _, ?_⟩
  decide +kernel

/-- Another machine with the same source elsewhere, a tree and maps in place. -/
def compressing' : State :=
  busy { put 0x2000 abra (dst 18 mapped) with
    ops := { (dst 18 mapped).ops with srcAddr := 0x2000, srcLen := 11 } }

theorem witness_CompressDependsOnTheSourceAlone :
    compressing'.mem.wf = true ∧ running compressing' ∧ sourceBytes compressing = sourceBytes compressing' ∧
    (after .compress compressing').status.err = false ∧
    exec .compress compressing' = .next (after .compress compressing') := by
  refine ⟨by decide +kernel, by decide +kernel, by decide +kernel, by decide +kernel, exec_after _ _⟩

theorem witness_EntryPointsIgnoreEarlierStructures :
    compressing.ops.srcLen ≠ 0 ∧
    (let s' := { compressing with ft := none, tree := mapped.tree, lut := none, fsm := mapped.fsm, bb := none }
     s' = { compressing with ft := s'.ft, tree := s'.tree, lut := s'.lut, fsm := s'.fsm, bb := s'.bb }) := by
  exact ⟨by decide, rfl⟩

/-! ## Witnesses: the host's side -/

theorem witness_RegistersReadTheirFields :
    State.reset.status.busy = false ∧ State.reset.cfg.wellFormed = true ∧ State.reset.coherentMaps :=
  ⟨by decide, by decide, fun _ h => (by cases h), fun _ h => (by cases h), fun _ h => (by cases h)⟩

theorem witness_AccessesOutsideTheMap :
    (0x088 ≤ 0x088 ∧ 0x088 ≤ 0xFF8 ∧ 0x088 % 8 = 0) ∧ (0xFF8 ≤ 0xFF8 ∧ 0xFF8 % 8 = 0) ∧ 4 ≠ 8 ∧ 0x01C % 8 ≠ 0 ∧
    4096 ≤ 0x1000 := by decide

theorem witness_BusyWritesAreDropped :
    (State.reset.accept 0).status.busy = true ∧ State.reset.status.busy = false ∧
    (2 : Word).getLsbD 0 = false ∧ (1 : Word).getLsbD 0 = true := by decide

theorem witness_BusyReadsAreDraws :
    (State.reset.accept 0).status.busy = true ∧
    ({ State.reset.accept 0 with draws := 1 } : State).status = (State.reset.accept 0).status := by decide

theorem witness_ResetValues :
    Config.wellFormed { addrW := 32, capBytes := 1, holes := [(0, 4)], coherent := false } = true ∧
    Config.wellFormed { addrW := 64, capBytes := 2 ^ 61 - 1, holes := [], coherent := true } = true := by decide

/-- A `BB_STORE` and a `FREQ_COUNT` under way. -/
def storing : State := (dst 2 State.reset).accept 0x35

theorem witness_ResetAbortsAndKeepsMemory :
    (1 : Word).getLsbD 0 = true ∧ State.reset.status.busy = false ∧
    (storing.status.busy = true ∧ decode storing.cmd = .ok .bbStore ∧ Instr.bbStore ∈ dstWriters ∧ storing.mem.wf = true ∧
      inDest storing 0x8001 ∧ 0x8001 < 2 ^ storing.cfg.addrW ∧ ¬ inDest storing 0x8002) := by decide

/-- A command with its completion interrupt enabled, and an enable written after a completion. -/
def toComplete : State := { State.reset.accept 0 with irqEn := { doneIe := true, errIe := false } }

def toEnable : State := { ran 0 State.reset with host := [.regWrite 0x030 8 1] }

theorem witness_InterruptRisesOnlyAtCompletion :
    (step toComplete = .next (stepped toComplete) ∧ toComplete.irq = false ∧ (stepped toComplete).irq = true) ∧
    (step toEnable = .next (stepped toEnable) ∧ toEnable.irq = false ∧ (stepped toEnable).irq = true) := by
  refine ⟨⟨step_stepped ?_, ?_, ?_⟩, step_stepped ?_, ?_, ?_⟩ <;> decide +kernel

/-- A platform of 32-bit addresses that is not coherent. -/
def cached : State := State.resetOf { addrW := 32, capBytes := 1, holes := [], coherent := false }

theorem witness_HostStoresReachMemory :
    cached.mem.wf = true ∧ 2 ^ cached.cfg.addrW ≤ 2 ^ 32 ∧ 2 ^ 32 - 1 < 2 ^ cached.cfg.addrW ∧
    cached.status.busy = false ∧ cached.cfg.coherent = false ∧ cacheWfFrom 0 cached.cache = true ∧
    State.reset.cfg.coherent = true ∧ (storing.status.busy = true ∧ inDest storing 0x8000) := by decide

/-! ## Witnesses: invariants -/

theorem witness_StepKeepsLegal : toAccept.legal ∧ step toAccept = .next (stepped toAccept) := by
  refine ⟨⟨?_, ?_, ⟨by decide, by decide⟩, ⟨?_, ?_, ?_⟩, by decide, by decide⟩, step_stepped (by decide +kernel)⟩
  · unfold Status.legal; decide
  · intro b h
    injection h with h
    subst h
    unfold BitBuffer.legal; decide
  all_goals intro _ h; cases h

end Sys2Proof.Tests
end

/-! # Writes of a command

Every body of a command is a run of the model's own write operations. `body_writes` says once which, in order; the frames of
the registers, the structures and memory, and the legality of what a command leaves, are read off that run. -/

namespace Sys2Proof.Machine

/-! ## The operations that write -/

/-- What a write operation of the model is named for: a structure, `RESULT0` alone, both results, or the destination buffer
with `OUT_LEN`. -/
inductive Part where
  | ft | tree | lut | fsm | bb | result0 | results | dest
deriving DecidableEq

/-- One write operation as the commands use it. A tree is none or that of the valid table, a map is that of the valid tree,
and a new bit buffer is legal if the old one was. -/
inductive Wrote : Part → State → State → Prop where
  | ft {s : State} (x : Option FreqTable) : Wrote .ft s (s.setFt x)
  | noTree {s : State} : Wrote .tree s (s.setTree none)
  | tree {s : State} {ft : FreqTable} {t : Tree} : s.ft = some ft → build ft = .ok (some t) →
      Wrote .tree s (s.setTree (some t))
  | lut {s : State} {t : Tree} : s.tree = some t → Wrote .lut s (s.setLut (some (genLut t)))
  | fsm {s : State} {t : Tree} : s.tree = some t → Wrote .fsm s (s.setFsm (some (buildFsm t)))
  | bb {s : State} {b : BitBuffer} : ((∀ b₀, s.bb = some b₀ → b₀.legal s.cfg) → b.legal s.cfg) →
      Wrote .bb s (s.setBb (some b))
  | result0 {s : State} (v : Word) : Wrote .result0 s (s.setResult0 v)
  | results {s : State} (v w : Word) : Wrote .results s (s.setResults v w)
  | dest {s : State} {vs : List Byte} {o : Output} : dstPuts s vs ⟨s.mem, 0⟩ = .ok o → Wrote .dest s (s.withOutput o)

section
variable {p : Part} {s t : State}

theorem Wrote.keepsControl (h : Wrote p s t) : KeepsControl s t := by
  cases h <;> constructor <;> rfl

theorem Wrote.ft_eq (h : Wrote p s t) (hp : p ≠ .ft) : t.ft = s.ft := by
  cases h <;> simp at hp ⊢

theorem Wrote.tree_eq (h : Wrote p s t) (hp : p ≠ .ft ∧ p ≠ .tree) : t.tree = s.tree := by
  cases h <;> simp at hp ⊢

theorem Wrote.lut_eq (h : Wrote p s t) (hp : p ≠ .ft ∧ p ≠ .tree ∧ p ≠ .lut) : t.lut = s.lut := by
  cases h <;> simp at hp ⊢

theorem Wrote.fsm_eq (h : Wrote p s t) (hp : p ≠ .ft ∧ p ≠ .tree ∧ p ≠ .fsm) : t.fsm = s.fsm := by
  cases h <;> simp at hp ⊢

theorem Wrote.bb_eq (h : Wrote p s t) (hp : p ≠ .bb) : t.bb = s.bb := by
  cases h <;> simp at hp ⊢

theorem Wrote.result0_eq (h : Wrote p s t) (hp : p ≠ .result0 ∧ p ≠ .results) : t.res.result0 = s.res.result0 := by
  cases h <;> simp at hp ⊢

theorem Wrote.result1_eq (h : Wrote p s t) (hp : p ≠ .results) : t.res.result1 = s.res.result1 := by
  cases h <;> simp [State.setResult0] at hp ⊢

theorem Wrote.output_eq (h : Wrote p s t) (hp : p ≠ .dest) : t.res.outLen = s.res.outLen ∧ t.mem = s.mem := by
  cases h <;> simp [State.setResult0] at hp ⊢

/-- A write of the table or the tree leaves neither map of the old tree (R79). -/
theorem Wrote.maps_none (h : Wrote p s t) (hp : p = .ft ∨ p = .tree) : t.lut = none ∧ t.fsm = none := by
  cases h <;> simp at hp ⊢

theorem Wrote.tree_none (h : Wrote .ft s t) : t.tree = none := by
  cases h; rfl

end

/-! ## Runs of writes -/

/-- A run of write operations, the first one first. -/
inductive Writes : List Part → State → State → Prop where
  | nil (s : State) : Writes [] s s
  | cons {p : Part} {ps : List Part} {s u t : State} : Wrote p s u → Writes ps u t → Writes (p :: ps) s t

section
variable {ps qs : List Part} {s t u : State}

theorem Wrote.run {p : Part} (h : Wrote p s t) : Writes [p] s t := .cons h (.nil t)

theorem Writes.append (h : Writes ps s u) (h' : Writes qs u t) : Writes (ps ++ qs) s t := by
  induction h with
  | nil s => exact h'
  | cons hw _ ih => exact .cons hw (ih h')

theorem Writes.keepsControl (h : Writes ps s t) : KeepsControl s t := by
  induction h with
  | nil s => exact .refl s
  | cons hw _ ih => exact hw.keepsControl.trans ih

/-- What each write of a run leaves alone, the run leaves alone. -/
theorem Writes.keeps {α : Type} (f : State → α) (h : Writes ps s t)
    (hf : ∀ p ∈ ps, ∀ s t, Wrote p s t → f t = f s) : f t = f s := by
  induction h with
  | nil s => rfl
  | cons hw _ ih =>
    rw [ih fun p hp => hf p (.tail _ hp)]
    exact hf _ (.head _) _ _ hw

theorem Writes.preserves {P : State → Prop} (h : Writes ps s t)
    (hk : ∀ p ∈ ps, ∀ s t, Wrote p s t → P s → P t) (hs : P s) : P t := by
  induction h with
  | nil s => exact hs
  | cons hw _ ih => exact ih (fun p hp => hk p (.tail _ hp)) (hk _ (.head _) _ _ hw hs)

/-- What one write of a run makes true and the others keep, holds at its end. -/
theorem Writes.establishes {P : State → Prop} {q : Part} (h : Writes ps s t) (hq : q ∈ ps)
    (he : ∀ s t, Wrote q s t → P t) (hk : ∀ p ∈ ps, ∀ s t, Wrote p s t → P s → P t) : P t := by
  induction h with
  | nil s => cases hq
  | cons hw hr ih =>
    rcases List.mem_cons.1 hq with rfl | hq
    · exact hr.preserves (fun p hp => hk p (.tail _ hp)) (he _ _ hw)
    · exact ih hq fun p hp => hk p (.tail _ hp)

end

/-! ## What the bodies write -/

/-- A loop over the source keeps what each of its turns keeps. -/
theorem forSrc_preserves {α : Type} {P : α → Prop} {s : State} {f : Nat → Byte → α → Except CmdError α}
    (hf : ∀ i b x y, f i b x = .ok y → P x → P y) {i k : Nat} {x y : α} (h : forSrc s f i k x = .ok y) (hx : P x) :
    P y := by
  induction k generalizing i x with
  | zero => injection h with h; exact h ▸ hx
  | succ k ih =>
    obtain ⟨b, -, h⟩ := bind_eq_ok.1 h
    obtain ⟨z, hz, h⟩ := bind_eq_ok.1 h
    exact ih h (hf i b x z hz hx)

theorem BitBuffer.empty_legal (c : Config) : BitBuffer.empty.legal c := ⟨Nat.zero_le _, BitBuffer.empty_shaped⟩

theorem appendSrcBit_legal {c : Config} {i : Nat} {v : Byte} {b b' : BitBuffer} (h : appendSrcBit c i v b = .ok b')
    (hb : b.legal c) : b'.legal c := by
  unfold appendSrcBit at h
  split at h
  · cases h
  · exact appendBit_legal h hb.2

theorem appendBits_legal {c : Config} {ts : List Bool} {b b' : BitBuffer} (h : appendBits c ts b = .ok b')
    (hb : b.legal c) : b'.legal c := by
  induction ts generalizing b with
  | nil => injection h with h; exact h ▸ hb
  | cons t ts ih =>
    obtain ⟨b₁, h₁, h⟩ := bind_eq_ok.1 h
    exact ih h (appendBit_legal h₁ hb.2)

theorem encodeByte_legal {c : Config} {l : Lut} {i : Nat} {v : Byte} {b b' : BitBuffer}
    (h : encodeByte c l i v b = .ok b') (hb : b.legal c) : b'.legal c := by
  unfold encodeByte at h
  split at h
  · cases h
  · exact appendBits_legal h hb

theorem takeSrc_length {s : State} {c k : Nat} {bs : List Byte} (h : takeSrc s c k = .ok bs) : bs.length = k := by
  obtain ⟨-, -, h⟩ := bind_eq_ok.1 h
  rw [srcBytes_ok h, bytesAt_length]

/-- A loaded bit buffer is within the capacity and has clear pad bits (R425, R426). -/
theorem deserialize_legal {s : State} {r : FreqTable × BitBuffer} (h : deserialize s = .ok r) : r.2.legal s.cfg := by
  obtain ⟨tl, -, h⟩ := bind_eq_ok.1 h
  obtain ⟨tb, -, h⟩ := bind_eq_ok.1 h
  obtain ⟨t, -, h⟩ := bind_eq_ok.1 h
  obtain ⟨sb, -, h⟩ := bind_eq_ok.1 h
  obtain ⟨-, -, h⟩ := bind_eq_ok.1 h
  obtain ⟨nbs, -, h⟩ := bind_eq_ok.1 h
  obtain ⟨-, -, h⟩ := bind_eq_ok.1 h
  obtain ⟨-, -, h⟩ := bind_eq_ok.1 h
  obtain ⟨_, hcap, h⟩ := bind_eq_ok.1 h
  obtain ⟨st, hst, h⟩ := bind_eq_ok.1 h
  injection h with h
  subst h
  have hc : ceil8 (leNat nbs) ≤ s.cfg.capBytes := of_decide_eq_true (check_ok.1 hcap)
  exact ⟨by unfold ceil8 at hc; show leNat nbs ≤ _; omega, clearPad_shaped (takeSrc_length hst)⟩

/-- The decoder's loop puts out some byte string. -/
theorem decodeLoop_puts {s : State} {f : Fsm} {b : BitBuffer} {k i start : Nat} {q : Option Nat} {o o' : Output}
    (h : decodeLoop s f b k i q start o = .ok o') : ∃ vs, dstPuts s vs o = .ok o' := by
  induction k generalizing i q start o with
  | zero =>
    unfold decodeLoop at h
    split at h
    · exact ⟨[], h⟩
    · cases h
  | succ k ih =>
    cases q with
    | none => exact ih h
    | some q =>
      unfold decodeLoop at h
      split at h
      · obtain ⟨o₁, h₁, h⟩ := bind_eq_ok.1 h
        obtain ⟨vs, hvs⟩ := ih h
        exact ⟨_ :: vs, bind_eq_ok.2 ⟨o₁, h₁, hvs⟩⟩
      · exact ih h
      · exact ih h

section
variable {s t : State}

theorem emit_writes {vs : List Byte} (h : emit s vs = .ok t) : Writes [.dest] s t := by
  obtain ⟨o, ho, h⟩ := bind_eq_ok.1 h
  injection h with h
  exact h ▸ (Wrote.dest ho).run

theorem freqCountBody_writes (h : freqCountBody s = .ok t) : Writes [.ft, .result0] s t := by
  obtain ⟨x, -, h⟩ := bind_eq_ok.1 h
  injection h with h
  exact h ▸ .cons (.ft _) (Wrote.result0 _).run

theorem treeBuildBody_writes (h : treeBuildBody s = .ok t) : Writes [.tree, .results] s t := by
  obtain ⟨ft, hft, h⟩ := bind_eq_ok.1 h
  obtain ⟨r, hr, h⟩ := bind_eq_ok.1 h
  cases r with
  | none => injection h with h; exact h ▸ .cons .noTree (Wrote.results _ _).run
  | some tr => injection h with h; exact h ▸ .cons (.tree (require_eq_ok.1 hft) hr) (Wrote.results _ _).run

theorem encmapGenBody_writes (h : encmapGenBody s = .ok t) : Writes [.lut, .results] s t := by
  obtain ⟨tr, htr, h⟩ := bind_eq_ok.1 h
  injection h with h
  exact h ▸ .cons (.lut (require_eq_ok.1 htr)) (Wrote.results _ _).run

theorem decmapGenBody_writes (h : decmapGenBody s = .ok t) : Writes [.fsm, .results] s t := by
  obtain ⟨tr, htr, h⟩ := bind_eq_ok.1 h
  injection h with h
  exact h ▸ .cons (.fsm (require_eq_ok.1 htr)) (Wrote.results _ _).run

theorem bbAppendBitBody_writes (h : bbAppendBitBody s = .ok t) : Writes [.bb, .result0] s t := by
  obtain ⟨b, hb, h⟩ := bind_eq_ok.1 h
  obtain ⟨x, -, h⟩ := bind_eq_ok.1 h
  obtain ⟨b', hb', h⟩ := bind_eq_ok.1 h
  injection h with h
  exact h ▸ .cons (.bb fun hs => appendBit_legal hb' (hs b (require_eq_ok.1 hb)).2) (Wrote.result0 _).run

theorem bbAppendManyBody_writes (h : bbAppendManyBody s = .ok t) : Writes [.bb, .result0] s t := by
  obtain ⟨-, -, h⟩ := bind_eq_ok.1 h
  obtain ⟨b, hb, h⟩ := bind_eq_ok.1 h
  obtain ⟨b', hb', h⟩ := bind_eq_ok.1 h
  injection h with h
  have hl (hs : ∀ b₀, s.bb = some b₀ → b₀.legal s.cfg) : b'.legal s.cfg :=
    forSrc_preserves (P := BitBuffer.legal s.cfg) (fun _ _ _ _ => appendSrcBit_legal) hb' (hs b (require_eq_ok.1 hb))
  exact h ▸ .cons (.bb hl) (Wrote.result0 _).run

theorem encodeBody_writes (h : encodeBody s = .ok t) : Writes [.bb, .result0] s t := by
  obtain ⟨l, -, h⟩ := bind_eq_ok.1 h
  obtain ⟨b, hb, h⟩ := bind_eq_ok.1 h
  injection h with h
  have hl : b.legal s.cfg :=
    forSrc_preserves (P := BitBuffer.legal s.cfg) (fun _ _ _ _ => encodeByte_legal) hb (BitBuffer.empty_legal _)
  exact h ▸ .cons (.bb fun _ => hl) (Wrote.result0 _).run

theorem decodeBody_writes (h : decodeBody s = .ok t) : Writes [.dest] s t := by
  obtain ⟨f, -, h⟩ := bind_eq_ok.1 h
  obtain ⟨b, -, h⟩ := bind_eq_ok.1 h
  obtain ⟨o, ho, h⟩ := bind_eq_ok.1 h
  obtain ⟨vs, hvs⟩ := decodeLoop_puts ho
  injection h with h
  exact h ▸ (Wrote.dest hvs).run

theorem ctSerializeBody_writes (h : ctSerializeBody s = .ok t) : Writes [.dest] s t := by
  obtain ⟨ft, -, h⟩ := bind_eq_ok.1 h
  obtain ⟨b, -, h⟩ := bind_eq_ok.1 h
  exact emit_writes h

theorem ctDeserializeBody_writes (h : ctDeserializeBody s = .ok t) : Writes [.ft, .bb, .results] s t := by
  obtain ⟨r, hr, h⟩ := bind_eq_ok.1 h
  injection h with h
  have hl : r.2.legal s.cfg := deserialize_legal hr
  exact h ▸ .cons (.ft _) (.cons (.bb fun _ => hl) (Wrote.results _ _).run)

/-- `OUT_LEN <- 0` is the emission of no byte. -/
theorem setOutLen_zero_writes (s : State) : Writes [.dest] s (s.setOutLen 0) :=
  (Wrote.dest (s := s) (vs := []) (o := ⟨s.mem, 0⟩) rfl).run

theorem emptyOutput_writes (s : State) : Writes [.dest, .results] s s.emptyOutput :=
  (setOutLen_zero_writes s).append (Wrote.results 0 0).run

theorem compressBody_writes (h : compressBody s = .ok t) :
    Writes [.ft, .result0, .tree, .results, .dest, .results] s t ∨
      Writes [.ft, .result0, .tree, .results, .lut, .results, .bb, .result0, .dest, .results] s t := by
  obtain ⟨s₁, h₁, h⟩ := bind_eq_ok.1 h
  obtain ⟨s₂, h₂, h⟩ := bind_eq_ok.1 h
  have w₂ := (freqCountBody_writes h₁).append (treeBuildBody_writes h₂)
  split at h
  · injection h with h
    exact .inl (h ▸ w₂.append (emptyOutput_writes s₂))
  · obtain ⟨s₃, h₃, h⟩ := bind_eq_ok.1 h
    obtain ⟨s₄, h₄, h⟩ := bind_eq_ok.1 h
    obtain ⟨s₅, h₅, h⟩ := bind_eq_ok.1 h
    obtain ⟨b, -, h⟩ := bind_eq_ok.1 h
    obtain ⟨l, -, h⟩ := bind_eq_ok.1 h
    injection h with h
    have w₅ := ((w₂.append (encmapGenBody_writes h₃)).append (encodeBody_writes h₄)).append (ctSerializeBody_writes h₅)
    exact .inr (h ▸ w₅.append (Wrote.results _ _).run)

theorem decompressOutput_writes (h : decompressOutput s = .ok t) :
    Writes [.dest] s t ∨ Writes [.fsm, .results, .dest] s t := by
  unfold decompressOutput at h
  split at h
  · injection h with h
    exact .inl (h ▸ setOutLen_zero_writes s)
  · obtain ⟨s', h', h⟩ := bind_eq_ok.1 h
    exact .inr ((decmapGenBody_writes h').append (decodeBody_writes h))

theorem decompressBody_writes (h : decompressBody s = .ok t) :
    Writes [.ft, .bb, .results, .tree, .results, .dest, .results] s t ∨
      Writes [.ft, .bb, .results, .tree, .results, .fsm, .results, .dest, .results] s t := by
  obtain ⟨s₁, h₁, h⟩ := bind_eq_ok.1 h
  obtain ⟨ft, -, h⟩ := bind_eq_ok.1 h
  obtain ⟨b, -, h⟩ := bind_eq_ok.1 h
  obtain ⟨s₂, h₂, h⟩ := bind_eq_ok.1 h
  obtain ⟨s₃, h₃, h⟩ := bind_eq_ok.1 h
  injection h with h
  have w₂ := (ctDeserializeBody_writes h₁).append (treeBuildBody_writes h₂)
  refine (decompressOutput_writes h₃).imp (fun w₃ => ?_) fun w₃ => ?_ <;>
    exact h ▸ (w₂.append w₃).append (Wrote.results _ _).run

end

/-- The runs of writes a command without error can be: one, but for the entry points, which stop early on an empty source or
table. -/
def runsOf : Instr → List (List Part)
  | .nop => [[]]
  | .compress => [[.ft, .result0, .tree, .results, .dest, .results],
      [.ft, .result0, .tree, .results, .lut, .results, .bb, .result0, .dest, .results]]
  | .decompress => [[.dest, .results], [.ft, .bb, .results, .tree, .results, .dest, .results],
      [.ft, .bb, .results, .tree, .results, .fsm, .results, .dest, .results]]
  | .freqClear | .freqWrite | .freqRemove => [[.ft]]
  | .freqCount => [[.ft, .result0]]
  | .treeBuild => [[.tree, .results]]
  | .encmapGen => [[.lut, .results]]
  | .decmapGen => [[.fsm, .results]]
  | .freqRead | .nodeRead | .lutRead | .fsmRead | .bbGetBit | .bbLength => [[.results]]
  | .bbClear => [[.bb]]
  | .bbAppendBit | .bbAppendMany | .encode => [[.bb, .result0]]
  | .viMinWidth | .viUnpack => [[.result0]]
  | .bbStore | .viPack | .ctSerialize | .decode => [[.dest]]
  | .ctDeserialize => [[.ft, .bb, .results]]

/-- A command that ends without error has made one of its runs of writes. -/
theorem body_writes {i : Instr} {s t : State} (h : body i s = .ok t) : ∃ ps ∈ runsOf i, Writes ps s t := by
  have only {ps : List Part} (hi : runsOf i = [ps]) (hw : Writes ps s t) : ∃ ps ∈ runsOf i, Writes ps s t :=
    ⟨ps, hi ▸ .head _, hw⟩
  cases i <;> simp only [body] at h
  case nop => injection h with h; exact only rfl (h ▸ .nil s)
  case compress =>
    obtain ⟨-, -, h⟩ := bind_eq_ok.1 h
    rcases compressBody_writes h with hw | hw
    · exact ⟨_, .head _, hw⟩
    · exact ⟨_, .tail _ (.head _), hw⟩
  case decompress =>
    obtain ⟨-, -, h⟩ := bind_eq_ok.1 h
    split at h
    · injection h with h; exact ⟨_, .head _, h ▸ emptyOutput_writes s⟩
    · rcases decompressBody_writes h with hw | hw
      · exact ⟨_, .tail _ (.head _), hw⟩
      · exact ⟨_, .tail _ (.tail _ (.head _)), hw⟩
  case freqClear => injection h with h; exact only rfl (h ▸ (Wrote.ft _).run)
  case freqCount => obtain ⟨-, -, h⟩ := bind_eq_ok.1 h; exact only rfl (freqCountBody_writes h)
  case freqWrite =>
    obtain ⟨b, -, h⟩ := bind_eq_ok.1 h
    obtain ⟨ft, -, h⟩ := bind_eq_ok.1 h
    injection h with h; exact only rfl (h ▸ (Wrote.ft _).run)
  case freqRemove =>
    obtain ⟨b, -, h⟩ := bind_eq_ok.1 h
    obtain ⟨ft, -, h⟩ := bind_eq_ok.1 h
    injection h with h; exact only rfl (h ▸ (Wrote.ft _).run)
  case freqRead =>
    obtain ⟨b, -, h⟩ := bind_eq_ok.1 h
    obtain ⟨ft, -, h⟩ := bind_eq_ok.1 h
    injection h with h; exact only rfl (h ▸ (Wrote.results _ _).run)
  case treeBuild => exact only rfl (treeBuildBody_writes h)
  case nodeRead =>
    obtain ⟨tr, -, h⟩ := bind_eq_ok.1 h
    obtain ⟨j, -, h⟩ := bind_eq_ok.1 h
    injection h with h; exact only rfl (h ▸ (Wrote.results _ _).run)
  case encmapGen => exact only rfl (encmapGenBody_writes h)
  case lutRead =>
    obtain ⟨b, -, h⟩ := bind_eq_ok.1 h
    obtain ⟨w, -, h⟩ := bind_eq_ok.1 h
    obtain ⟨l, -, h⟩ := bind_eq_ok.1 h
    injection h with h; exact only rfl (h ▸ (Wrote.results _ _).run)
  case decmapGen => exact only rfl (decmapGenBody_writes h)
  case fsmRead =>
    obtain ⟨f, -, h⟩ := bind_eq_ok.1 h
    obtain ⟨k, -, h⟩ := bind_eq_ok.1 h
    injection h with h; exact only rfl (h ▸ (Wrote.results _ _).run)
  case bbClear =>
    injection h with h
    exact only rfl (h ▸ (Wrote.bb fun _ => BitBuffer.empty_legal s.cfg).run)
  case bbAppendBit => exact only rfl (bbAppendBitBody_writes h)
  case bbAppendMany => exact only rfl (bbAppendManyBody_writes h)
  case bbGetBit =>
    obtain ⟨b, -, h⟩ := bind_eq_ok.1 h
    split at h <;> injection h with h <;> exact only rfl (h ▸ (Wrote.results _ _).run)
  case bbLength =>
    obtain ⟨b, -, h⟩ := bind_eq_ok.1 h
    injection h with h; exact only rfl (h ▸ (Wrote.results _ _).run)
  case bbStore =>
    obtain ⟨-, -, h⟩ := bind_eq_ok.1 h
    obtain ⟨b, -, h⟩ := bind_eq_ok.1 h
    exact only rfl (emit_writes h)
  case viMinWidth => injection h with h; exact only rfl (h ▸ (Wrote.result0 _).run)
  case viPack =>
    obtain ⟨-, -, h⟩ := bind_eq_ok.1 h
    obtain ⟨bs, -, h⟩ := bind_eq_ok.1 h
    exact only rfl (emit_writes h)
  case viUnpack =>
    obtain ⟨-, -, h⟩ := bind_eq_ok.1 h
    obtain ⟨-, -, h⟩ := bind_eq_ok.1 h
    obtain ⟨bs, -, h⟩ := bind_eq_ok.1 h
    obtain ⟨v, -, h⟩ := bind_eq_ok.1 h
    injection h with h; exact only rfl (h ▸ (Wrote.result0 _).run)
  case ctSerialize => obtain ⟨-, -, h⟩ := bind_eq_ok.1 h; exact only rfl (ctSerializeBody_writes h)
  case ctDeserialize => obtain ⟨-, -, h⟩ := bind_eq_ok.1 h; exact only rfl (ctDeserializeBody_writes h)
  case encode => obtain ⟨-, -, h⟩ := bind_eq_ok.1 h; exact only rfl (encodeBody_writes h)
  case decode => obtain ⟨-, -, h⟩ := bind_eq_ok.1 h; exact only rfl (decodeBody_writes h)

end Sys2Proof.Machine

/-! # Frames of a command -/

namespace Sys2Proof.Machine

/-! ## Ends with an error -/

theorem raise_err (s : State) (l : List Struct) (d : Bool) (e : CmdError) : (s.raise l d e).status.err = true := by
  obtain ⟨-, -, -, -, -, -, -, -, hst⟩ := raise_control s l d e
  rw [hst]; rfl

/-- A command ends with the end of its body, or with an error that leaves `ERR` set. -/
theorem exec_next_cases {i : Instr} {s t : State} (h : exec i s = .next t) :
    (∃ u, body i s = .ok u ∧ t = u.complete) ∨
      (∃ e, t = s.raise (writesStructs i) (writesDst i) e ∧ t.status.err = true) := by
  rcases exec_cases h with ⟨u, hu, ht⟩ | ⟨e, -, ht⟩ <;> injection ht with ht
  · exact .inl ⟨u, hu, ht⟩
  · exact .inr ⟨e, ht, ht ▸ raise_err _ _ _ e⟩

/-! ## Registers -/

/-- Fields no end of a command touches (R45, R187). -/
theorem exec_keeps_control {i : Instr} {s t : State} (h : exec i s = .next t) :
    t.ops = s.ops ∧ t.cmd = s.cmd ∧ t.irqEn = s.irqEn ∧ t.cfg = s.cfg ∧ t.status.ovr = s.status.ovr ∧
      t.host = s.host ∧ t.turns = s.turns ∧ t.cache = s.cache ∧ t.hostData = s.hostData := by
  rcases exec_next_cases h with ⟨u, hu, rfl⟩ | ⟨e, rfl, -⟩
  · have k := body_keeps hu
    have ho : u.status.ovr = s.status.ovr := congrArg Status.ovr k.status
    exact ⟨k.ops, k.cmd, k.irqEn, k.cfg, ho, k.host, k.turns, k.cache, k.hostData⟩
  · obtain ⟨hcfg, hcmd, hirq, hops, hhost, hturns, hcache, hdata, hst⟩ :=
      raise_control s (writesStructs i) (writesDst i) e
    exact ⟨hops, hcmd, hirq, hcfg, by rw [hst]; rfl, hhost, hturns, hcache, hdata⟩

section
variable {ps : List Part} {s t : State}

theorem Writes.ft_eq (h : Writes ps s t) (hp : .ft ∉ ps) : t.ft = s.ft :=
  h.keeps _ fun _ hq _ _ hw => hw.ft_eq (ne_of_mem_of_not_mem hq hp)

theorem Writes.tree_eq (h : Writes ps s t) (hp : .ft ∉ ps ∧ .tree ∉ ps) : t.tree = s.tree :=
  h.keeps _ fun _ hq _ _ hw => hw.tree_eq ⟨ne_of_mem_of_not_mem hq hp.1, ne_of_mem_of_not_mem hq hp.2⟩

theorem Writes.lut_eq (h : Writes ps s t) (hp : .ft ∉ ps ∧ .tree ∉ ps ∧ .lut ∉ ps) : t.lut = s.lut :=
  h.keeps _ fun _ hq _ _ hw => hw.lut_eq
    ⟨ne_of_mem_of_not_mem hq hp.1, ne_of_mem_of_not_mem hq hp.2.1, ne_of_mem_of_not_mem hq hp.2.2⟩

theorem Writes.fsm_eq (h : Writes ps s t) (hp : .ft ∉ ps ∧ .tree ∉ ps ∧ .fsm ∉ ps) : t.fsm = s.fsm :=
  h.keeps _ fun _ hq _ _ hw => hw.fsm_eq
    ⟨ne_of_mem_of_not_mem hq hp.1, ne_of_mem_of_not_mem hq hp.2.1, ne_of_mem_of_not_mem hq hp.2.2⟩

theorem Writes.bb_eq (h : Writes ps s t) (hp : .bb ∉ ps) : t.bb = s.bb :=
  h.keeps _ fun _ hq _ _ hw => hw.bb_eq (ne_of_mem_of_not_mem hq hp)

theorem Writes.result0_eq (h : Writes ps s t) (hp : .result0 ∉ ps ∧ .results ∉ ps) : t.res.result0 = s.res.result0 :=
  h.keeps (·.res.result0) fun _ hq _ _ hw =>
    hw.result0_eq ⟨ne_of_mem_of_not_mem hq hp.1, ne_of_mem_of_not_mem hq hp.2⟩

theorem Writes.result1_eq (h : Writes ps s t) (hp : .results ∉ ps) : t.res.result1 = s.res.result1 :=
  h.keeps (·.res.result1) fun _ hq _ _ hw => hw.result1_eq (ne_of_mem_of_not_mem hq hp)

theorem Writes.outLen_eq (h : Writes ps s t) (hp : .dest ∉ ps) : t.res.outLen = s.res.outLen :=
  h.keeps (·.res.outLen) fun _ hq _ _ hw => (hw.output_eq (ne_of_mem_of_not_mem hq hp)).1

theorem Writes.mem_eq (h : Writes ps s t) (hp : .dest ∉ ps) : t.mem = s.mem :=
  h.keeps _ fun _ hq _ _ hw => (hw.output_eq (ne_of_mem_of_not_mem hq hp)).2

end

/-- The commands that write the destination are those whose runs do, each once (R146). -/
theorem dest_in_runs (i : Instr) :
    (i ∉ dstWriters → ∀ ps ∈ runsOf i, Part.dest ∉ ps) ∧ (i ∈ dstWriters → ∀ ps ∈ runsOf i, ps.count .dest = 1) := by
  cases i <;> decide

theorem results_in_runs (i : Instr) :
    (i ∈ [.nop, .freqClear, .freqWrite, .freqRemove, .bbClear, .bbStore, .viPack, .ctSerialize, .decode] →
      ∀ ps ∈ runsOf i, Part.result0 ∉ ps ∧ .results ∉ ps) ∧
    (i ∈ [.nop, .freqClear, .freqCount, .freqWrite, .freqRemove, .bbClear, .bbAppendBit, .bbAppendMany, .bbStore,
        .viMinWidth, .viPack, .viUnpack, .ctSerialize, .encode, .decode] → ∀ ps ∈ runsOf i, Part.results ∉ ps) := by
  cases i <;> decide

/-- Settles O11: the control fields by `exec_keeps_control`, the result registers by the runs of writes of the command's
body. -/
theorem registersNotNamedAreKept : Obligations.RegistersNotNamedAreKept := by
  intro i s t h
  obtain ⟨hops, hcmd, hirq, hcfg, hovr, hhost, hturns, hcache, hdata⟩ := exec_keeps_control h
  refine ⟨hops, hcmd, hirq, hcfg, hovr, hhost, hturns, hcache, hdata, fun _ herr => ?_⟩
  rcases exec_next_cases h with ⟨u, hu, rfl⟩ | ⟨e, -, he⟩
  · obtain ⟨ps, hps, hw⟩ := body_writes hu
    exact ⟨(body_keeps hu).errInfo, fun hi => hw.outLen_eq ((dest_in_runs i).1 hi ps hps),
      fun hi => hw.result0_eq ((results_in_runs i).1 hi ps hps), fun hi => hw.result1_eq ((results_in_runs i).2 hi ps hps)⟩
  · rw [he] at herr; cases herr

/-! ## Structures -/

section
variable {i : Instr}

theorem ft_notMem_runs (h : i ∉ ftWriters) : ∀ ps ∈ runsOf i, Part.ft ∉ ps := by
  revert h; cases i <;> decide

theorem tree_notMem_runs (h : i ∉ ftWriters) (ht : i ≠ .treeBuild) : ∀ ps ∈ runsOf i, Part.tree ∉ ps := by
  revert h ht; cases i <;> decide

theorem lut_notMem_runs (h : i ∉ ftWriters) (hl : i ≠ .encmapGen) : ∀ ps ∈ runsOf i, Part.lut ∉ ps := by
  revert h hl; cases i <;> decide

theorem fsm_notMem_runs (h : i ∉ ftWriters) (hf : i ≠ .decmapGen) : ∀ ps ∈ runsOf i, Part.fsm ∉ ps := by
  revert h hf; cases i <;> decide

theorem bb_notMem_runs (h : i ∉ bbWriters) : ∀ ps ∈ runsOf i, Part.bb ∉ ps := by
  revert h; cases i <;> decide

/-- The commands that write the table alone write no tree (R79). -/
theorem ft_mem_runs (h : i ∈ [.freqClear, .freqCount, .freqWrite, .freqRemove, .ctDeserialize]) :
    ∀ ps ∈ runsOf i, Part.ft ∈ ps ∧ Part.tree ∉ ps := by
  revert h; cases i <;> decide

/-- The commands that write the table or the tree alone write no map (R79). -/
theorem ft_or_tree_mem_runs
    (h : i ∈ [.freqClear, .freqCount, .freqWrite, .freqRemove, .ctDeserialize, .treeBuild]) :
    ∀ ps ∈ runsOf i, (Part.ft ∈ ps ∨ Part.tree ∈ ps) ∧ Part.lut ∉ ps ∧ Part.fsm ∉ ps := by
  revert h; cases i <;> decide

end

/-- After a write of the table with no write of the tree there is no tree (R79). -/
theorem Writes.tree_none {ps : List Part} {s t : State} (h : Writes ps s t) (hf : .ft ∈ ps) (ht : .tree ∉ ps) :
    t.tree = none := by
  refine h.establishes hf (fun _ _ hw => hw.tree_none) fun p hp s t hw hs => ?_
  by_cases hpf : p = .ft
  · subst hpf; exact hw.tree_none
  · rw [hw.tree_eq ⟨hpf, ne_of_mem_of_not_mem hp ht⟩, hs]

/-- A map is there only if it is among the parts `ps`. -/
def State.mapsWithin (s : State) (ps : List Part) : Prop := (.lut ∉ ps → s.lut = none) ∧ (.fsm ∉ ps → s.fsm = none)

theorem Wrote.mapsWithin_of_derived {p : Part} {s t : State} (ps : List Part) (h : Wrote p s t)
    (hp : p = .ft ∨ p = .tree) : t.mapsWithin ps :=
  (h.maps_none hp).imp (fun h _ => h) fun h _ => h

theorem Wrote.mapsWithin {p : Part} {s t : State} {ps : List Part} (h : Wrote p s t) (hp : p ∈ ps)
    (hs : s.mapsWithin ps) : t.mapsWithin ps := by
  by_cases hpf : p = .ft ∨ p = .tree
  · exact h.mapsWithin_of_derived ps hpf
  · rw [not_or] at hpf
    exact ⟨fun hl => (h.lut_eq ⟨hpf.1, hpf.2, ne_of_mem_of_not_mem hp hl⟩).trans (hs.1 hl),
      fun hf => (h.fsm_eq ⟨hpf.1, hpf.2, ne_of_mem_of_not_mem hp hf⟩).trans (hs.2 hf)⟩

/-- After a write of the table or the tree a map is there only if the run writes it (R79). -/
theorem Writes.mapsWithin {ps : List Part} {s t : State} (h : Writes ps s t) (hf : .ft ∈ ps ∨ .tree ∈ ps) :
    t.mapsWithin ps := by
  rcases hf with hf | hf
  · exact h.establishes hf (fun _ _ hw => hw.mapsWithin_of_derived ps (.inl rfl)) fun _ hp _ _ hw => hw.mapsWithin hp
  · exact h.establishes hf (fun _ _ hw => hw.mapsWithin_of_derived ps (.inr rfl)) fun _ hp _ _ hw => hw.mapsWithin hp

/-- `DECOMPRESS` of a source that is not empty leaves no `LUT`: it writes the table and the tree and no encode map (R480). -/
theorem decompress_lut_none {s t : State} (h : body .decompress s = .ok t) (hs : s.ops.srcLen ≠ 0) : t.lut = none := by
  obtain ⟨-, -, h⟩ := bind_eq_ok.1 h
  have h0 : s.ops.srcLen.toNat ≠ 0 := fun h0 => hs (BitVec.eq_of_toNat_eq h0)
  rw [if_neg h0] at h
  rcases decompressBody_writes h with hw | hw <;> exact (hw.mapsWithin (by decide)).1 (by decide)

/-- The structures after the end of a command with an error: what it writes and what is derived from that is invalid (R509
item 4). -/
theorem raise_structs_of_writes (i : Instr) (s : State) (e : CmdError) :
    let t := s.raise (writesStructs i) (writesDst i) e
    t.ft = (if i ∈ ftWriters then none else s.ft) ∧
    t.tree = (if i ∈ ftWriters ∨ i = .treeBuild then none else s.tree) ∧
    t.lut = (if i ∈ ftWriters ∨ i = .treeBuild ∨ i = .encmapGen then none else s.lut) ∧
    t.fsm = (if i ∈ ftWriters ∨ i = .treeBuild ∨ i = .decmapGen then none else s.fsm) ∧
    t.bb = (if i ∈ bbWriters then none else s.bb) := by
  intro t
  obtain ⟨hft, htree, hlut, hfsm, hbb⟩ := raise_structs s (writesStructs i) (writesDst i) e
  rw [hft, htree, hlut, hfsm, hbb]
  cases i <;> exact ⟨rfl, rfl, rfl, rfl, rfl⟩

theorem State.nleaf_of_none {s : State} (h : s.tree = none) : s.nleaf = 0 := by simp [State.nleaf, h]

/-- Settles O12: without error by the runs of writes of the command's body, with an error by what the clearing of the flags
leaves. -/
theorem structuresChangeOnlyWhereWritten : Obligations.StructuresChangeOnlyWhereWritten := by
  intro i s t h
  rcases exec_next_cases h with ⟨u, hu, rfl⟩ | ⟨e, ht, -⟩
  · obtain ⟨ps, hps, hw⟩ := body_writes hu
    refine ⟨fun hi => hw.ft_eq (ft_notMem_runs hi ps hps),
      fun hi ht => hw.tree_eq ⟨ft_notMem_runs hi ps hps, tree_notMem_runs hi ht ps hps⟩,
      fun hi ht hl => hw.lut_eq
        ⟨ft_notMem_runs hi ps hps, tree_notMem_runs hi ht ps hps, lut_notMem_runs hi hl ps hps⟩,
      fun hi ht hf => hw.fsm_eq
        ⟨ft_notMem_runs hi ps hps, tree_notMem_runs hi ht ps hps, fsm_notMem_runs hi hf ps hps⟩,
      fun hi => hw.bb_eq (bb_notMem_runs hi ps hps), fun hi => ?_, fun hi => ?_, fun hi => ?_, fun hi hs => ?_⟩
    · obtain ⟨hft, htree⟩ := ft_mem_runs hi ps hps
      exact ⟨hw.tree_none hft htree, State.nleaf_of_none (hw.tree_none hft htree)⟩
    · obtain ⟨hft, hlut, hfsm⟩ := ft_or_tree_mem_runs hi ps hps
      exact ⟨(hw.mapsWithin hft).1 hlut, (hw.mapsWithin hft).2 hfsm⟩
    · subst hi
      have hc : ∀ ps ∈ runsOf .compress, Part.ft ∈ ps ∧ Part.fsm ∉ ps := by decide
      exact (hw.mapsWithin (.inl (hc ps hps).1)).2 (hc ps hps).2
    · subst hi
      exact (decompress_lut_none hu hs : u.lut = none)
  · obtain ⟨hft, htree, hlut, hfsm, hbb⟩ := raise_structs_of_writes i s e
    rw [← ht] at hft htree hlut hfsm hbb
    have htn (hi : i ∈ ftWriters ∨ i = .treeBuild) : t.tree = none := by rw [htree, if_pos hi]
    have hln (hi : i ∈ ftWriters ∨ i = .treeBuild) : t.lut = none := by rw [hlut, if_pos (hi.imp_right .inl)]
    have hfn (hi : i ∈ ftWriters ∨ i = .treeBuild) : t.fsm = none := by rw [hfsm, if_pos (hi.imp_right .inl)]
    refine ⟨fun hi => ?_, fun hi ht => ?_, fun hi ht hl => ?_, fun hi ht hf => ?_, fun hi => ?_, fun hi => ?_,
      fun hi => ?_, fun hi => ?_, fun hi _ => ?_⟩
    · rw [hft, if_neg hi]
    · rw [htree, if_neg (not_or.2 ⟨hi, ht⟩)]
    · rw [hlut, if_neg (not_or.2 ⟨hi, not_or.2 ⟨ht, hl⟩⟩)]
    · rw [hfsm, if_neg (not_or.2 ⟨hi, not_or.2 ⟨ht, hf⟩⟩)]
    · rw [hbb, if_neg hi]
    · have hw : i ∈ ftWriters := by revert hi; cases i <;> decide
      exact ⟨htn (.inl hw), State.nleaf_of_none (htn (.inl hw))⟩
    · have hw : i ∈ ftWriters ∨ i = .treeBuild := by revert hi; cases i <;> decide
      exact ⟨hln hw, hfn hw⟩
    · exact hfn (.inl (hi ▸ by decide))
    · exact hln (.inl (hi ▸ by decide))

/-! ## Memory -/

section
variable {s t : State}

/-- What an emission leaves of memory, whatever its form: the output count stays within the capacity, and the bytes outside
those put out are as before (R108). -/
theorem dstPuts_frame {vs : List Byte} {o o' : Output} (h : dstPuts s vs o = .ok o')
    (hc : o.count ≤ s.ops.dstCap.toNat) :
    o'.count ≤ s.ops.dstCap.toNat ∧ ∀ a, a < s.ops.dstAddr.toNat + o.count ∨ s.ops.dstAddr.toNat + o'.count ≤ a →
      o'.mem.read a = o.mem.read a := by
  induction vs generalizing o with
  | nil => injection h with h; subst h; exact ⟨hc, fun _ _ => rfl⟩
  | cons v vs ih =>
    obtain ⟨o₁, h₁, h⟩ := bind_eq_ok.1 h
    obtain ⟨hlt, rfl⟩ := dstPut_ok h₁
    have hn := dstPuts_count h
    obtain ⟨hcap, hout⟩ := ih h hlt
    refine ⟨hcap, fun a ha => ?_⟩
    simp only at hout hn
    rw [hout a (by omega), Memory.read_write_other _ (by omega)]

/-- `OUT_LEN` of `t` is within the capacity, and the memory of `t` is that of `s` but for the first `OUT_LEN` bytes of the
destination buffer (R108). -/
def OutputWithin (s t : State) : Prop :=
  t.res.outLen.toNat ≤ s.ops.dstCap.toNat ∧
    ∀ a, a < s.ops.dstAddr.toNat ∨ s.ops.dstAddr.toNat + t.res.outLen.toNat ≤ a → t.mem.read a = s.mem.read a

theorem Wrote.outputWithin (h : Wrote .dest s t) : OutputWithin s t := by
  cases h with
  | @dest _ vs o h =>
    obtain ⟨hcap, hout⟩ := dstPuts_frame h (Nat.zero_le _)
    have hn : (word o.count).toNat = o.count := Nat.mod_eq_of_lt (hcap.trans_lt s.ops.dstCap.isLt)
    simpa [OutputWithin, hn] using And.intro hcap hout

/-- A run with one write of the destination leaves memory as that write does. -/
theorem Writes.outputWithin {ps : List Part} (h : Writes ps s t) (hp : ps.count .dest = 1) : OutputWithin s t := by
  induction h with
  | nil s => cases hp
  | @cons p ps s u t hw hr ih =>
    by_cases hd : p = .dest
    · subst hd
      have hn : Part.dest ∉ ps := List.count_eq_zero.1 (by simpa using hp)
      unfold OutputWithin
      rw [hr.outLen_eq hn, hr.mem_eq hn]
      exact hw.outputWithin
    · have hu := ih (by rwa [List.count_cons_of_ne hd] at hp)
      unfold OutputWithin at hu ⊢
      rwa [hw.keepsControl.ops, (hw.output_eq hd).2] at hu

/-- The free bytes an error leaves are in the destination buffer (R509 item 3). -/
theorem raise_mem_outside {l : List Struct} {d : Bool} {e : CmdError} {a : Nat} (ha : ¬ inDest s a) :
    (s.raise l d e).mem.read a = s.mem.read a := by
  rw [raise_mem]
  split
  · exact Memory.read_fill_outside _ (by simp only [not_and, State.dstExtent] at ha ⊢; omega)
  · rfl

end

/-- Settles O13: without error by the one write of the destination in the command's run, with an error by the bytes the
error leaves free. -/
theorem onlyTheDestinationIsWritten : Obligations.OnlyTheDestinationIsWritten := by
  intro i s t h
  rcases exec_next_cases h with ⟨u, hu, rfl⟩ | ⟨e, rfl, he⟩
  · obtain ⟨ps, hps, hw⟩ := body_writes hu
    have hsame (hi : i ∉ dstWriters) : u.mem = s.mem := hw.mem_eq ((dest_in_runs i).1 hi ps hps)
    have hout (hi : i ∈ dstWriters) : OutputWithin s u := hw.outputWithin ((dest_in_runs i).2 hi ps hps)
    refine ⟨hsame, fun a ha => ?_, fun _ _ hi => ⟨(hout hi).1, fun a ha => (hout hi).2 a (.inr ha)⟩⟩
    by_cases hi : i ∈ dstWriters
    · obtain ⟨hcap, hmem⟩ := hout hi
      exact hmem a (by unfold inDest at ha; omega)
    · exact congrArg (·.read a) (hsame hi)
  · refine ⟨fun hi => ?_, fun a ha => raise_mem_outside ha, fun _ herr => ?_⟩
    · rw [raise_mem, if_neg (mt mem_dstWriters.2 hi)]
    · rw [he] at herr; cases herr

end Sys2Proof.Machine

/-! # Every step keeps a state legal -/

namespace Sys2Proof.Machine

/-! ## What a command writes is legal -/

/-- The part of `State.legal` a command's body can touch: the bit buffer, memory and the maps. -/
def State.dataLegal (s : State) : Prop :=
  (∀ b, s.bb = some b → b.legal s.cfg) ∧ s.mem.legal s.cfg ∧ s.coherentMaps

theorem State.legal_iff {s : State} :
    s.legal ↔ s.status.legal ∧ s.dataLegal ∧ cacheWfFrom 0 s.cache = true ∧ s.cfg.wellFormed = true := by
  unfold State.legal State.dataLegal; tauto

section
variable {s t : State}

theorem setFt_coherentMaps (s : State) (x : Option FreqTable) : (s.setFt x).coherentMaps :=
  ⟨by simp, by simp, by simp⟩

theorem setTree_coherentMaps {x : Option Tree}
    (h : ∀ t, x = some t → ∃ ft, s.ft = some ft ∧ build ft = .ok (some t)) : (s.setTree x).coherentMaps :=
  ⟨h, by simp, by simp⟩

theorem setLut_coherentMaps {x : Option Lut} (hs : s.coherentMaps)
    (h : ∀ l, x = some l → ∃ t, s.tree = some t ∧ l = genLut t) : (s.setLut x).coherentMaps :=
  ⟨hs.1, h, hs.2.2⟩

theorem setFsm_coherentMaps {x : Option Fsm} (hs : s.coherentMaps)
    (h : ∀ f, x = some f → ∃ t, s.tree = some t ∧ f = buildFsm t) : (s.setFsm x).coherentMaps :=
  ⟨hs.1, hs.2.1, h⟩

/-- Each write operation keeps the data legal, the one of the destination when its region is in DMA space (R79, R102). -/
theorem Wrote.dataLegal {p : Part} (h : Wrote p s t)
    (hr : p = .dest → regionOk s.cfg s.ops.dstAddr s.ops.dstCap = true) (hs : s.dataLegal) : t.dataLegal := by
  obtain ⟨hbb, hmem, hmaps⟩ := hs
  cases h with
  | ft x => exact ⟨hbb, hmem, setFt_coherentMaps s x⟩
  | noTree => exact ⟨hbb, hmem, setTree_coherentMaps (by simp)⟩
  | tree hft hb => exact ⟨hbb, hmem, setTree_coherentMaps fun _ ht => ⟨_, hft, Option.some.inj ht ▸ hb⟩⟩
  | lut ht => exact ⟨hbb, hmem, setLut_coherentMaps hmaps fun _ hl => ⟨_, ht, (Option.some.inj hl).symm⟩⟩
  | fsm ht => exact ⟨hbb, hmem, setFsm_coherentMaps hmaps fun _ hf => ⟨_, ht, (Option.some.inj hf).symm⟩⟩
  | bb hb => exact ⟨fun _ hb' => Option.some.inj hb' ▸ hb hbb, hmem, hmaps⟩
  | result0 v => exact ⟨hbb, hmem, hmaps⟩
  | results v w => exact ⟨hbb, hmem, hmaps⟩
  | dest ho =>
    have hl := dstPuts_legal ho (hr rfl) hmem
    exact ⟨hbb, hl, hmaps⟩

theorem Writes.dataLegal {ps : List Part} (h : Writes ps s t)
    (hr : .dest ∈ ps → regionOk s.cfg s.ops.dstAddr s.ops.dstCap = true) (hs : s.dataLegal) : t.dataLegal := by
  induction h with
  | nil s => exact hs
  | cons hw _ ih =>
    refine ih (fun hd => ?_) (hw.dataLegal (fun hp => hr (hp ▸ .head _)) hs)
    rw [hw.keepsControl.cfg, hw.keepsControl.ops]
    exact hr (.tail _ hd)

/-- A command that gets through its checks has its destination in DMA space (R102). -/
theorem body_dst_regionOk {i : Instr} (h : body i s = .ok t) (hi : i ∈ dstWriters) :
    regionOk s.cfg s.ops.dstAddr s.ops.dstCap = true := by
  cases hc : checkBuffers i s with
  | ok u => exact (checkBuffers_eq_ok.1 hc).2.1 (mem_dstWriters.1 hi)
  | error e => rw [body_of_checkBuffers (.inr hi) hc] at h; cases h

theorem body_dataLegal {i : Instr} (h : body i s = .ok t) (hs : s.dataLegal) : t.dataLegal := by
  obtain ⟨ps, hps, hw⟩ := body_writes h
  refine hw.dataLegal (fun hd => body_dst_regionOk h ?_) hs
  by_contra hi
  exact (dest_in_runs i).1 hi ps hps hd

/-! ## What an error leaves is legal -/

theorem invalidate_dataLegal (p : Struct) (hs : s.dataLegal) : (s.invalidate p).dataLegal := by
  obtain ⟨hbb, hmem, hmaps⟩ := hs
  cases p with
  | ft => exact ⟨hbb, hmem, setFt_coherentMaps s none⟩
  | tree => exact ⟨hbb, hmem, setTree_coherentMaps (by simp)⟩
  | lut => exact ⟨hbb, hmem, setLut_coherentMaps hmaps (by simp)⟩
  | fsm => exact ⟨hbb, hmem, setFsm_coherentMaps hmaps (by simp)⟩
  | bb => exact ⟨by simp [State.invalidate], hmem, hmaps⟩

theorem invalidateAll_dataLegal (l : List Struct) (hs : s.dataLegal) : (s.invalidateAll l).dataLegal := by
  induction l generalizing s with
  | nil => exact hs
  | cons p l ih => exact ih (invalidate_dataLegal p hs)

theorem raise_dataLegal (l : List Struct) (d : Bool) (e : CmdError) (hs : s.dataLegal) :
    (s.raise l d e).dataLegal := by
  have hl := invalidateAll_dataLegal l hs
  cases d with
  | false => exact hl
  | true => exact ⟨hl.1, scrambleDst_legal hl.2.1, hl.2.2⟩

/-! ## `STATUS` -/

theorem ErrCode.number_range (e : ErrCode) : 0x01 ≤ e.number.toNat ∧ e.number.toNat ≤ 0x11 := by
  cases e <;> decide

theorem Status.completed_legal {f : Status} (h : f.legal) (hb : f.busy = true) : f.completed.legal := by
  obtain ⟨-, hbusy, hcode, -⟩ := h
  obtain ⟨-, herr⟩ := hbusy hb
  simp [Status.legal, Status.completed, herr, hcode herr]

theorem Status.failed_legal {f : Status} (e : ErrCode) (h : f.legal) (hb : f.busy = true) : (f.failed e).legal := by
  obtain ⟨-, hbusy, -, -⟩ := h
  obtain ⟨hdone, -⟩ := hbusy hb
  simpa [Status.legal, Status.failed, hdone] using e.number_range

theorem Status.accepted_legal (f : Status) : f.accepted.legal := by simp [Status.legal, Status.accepted]

theorem Status.overrun_legal {f : Status} (h : f.legal) : f.overrun.legal := h

theorem Status.reset_legal : Status.reset.legal := by simp [Status.legal, Status.reset]

/-- Clearing `DONE` or `ERR` keeps what `STATUS` promises, since `ERRCODE` goes with `ERR` (R36). -/
theorem Status.writeOneClears_legal {f : Status} (v : Word) (h : f.legal) : (f.writeOneClears v).legal := by
  obtain ⟨hexcl, hbusy, hcode, hrange⟩ := h
  refine ⟨?_, fun hb => ?_, fun he => ?_, fun he => ?_⟩
  · simp only [Status.writeOneClears]
    revert hexcl; cases f.done <;> cases f.err <;> simp
  · obtain ⟨hd, he⟩ := hbusy hb
    simp [Status.writeOneClears, hd, he]
  · simp only [Status.writeOneClears] at he ⊢
    split
    · rfl
    · rename_i hv
      rw [Bool.not_eq_true] at hv
      exact hcode (by simpa only [hv, Bool.not_false, Bool.and_true] using he)
  · simp only [Status.writeOneClears, Bool.and_eq_true, Bool.not_eq_true'] at he ⊢
    rw [he.2]
    exact hrange he.1

end

/-! ## Steps -/

section
variable {s t : State}

/-- An end with an error of a busy block is legal. -/
theorem raise_legal (l : List Struct) (d : Bool) (e : CmdError) (hs : s.legal) (hb : s.status.busy = true) :
    (s.raise l d e).legal := by
  rw [State.legal_iff] at hs ⊢
  obtain ⟨hst, hdata, hcache, hcfg⟩ := hs
  obtain ⟨kcfg, -, -, -, -, -, kcache, -, kst⟩ := raise_control s l d e
  rw [kst, kcache, kcfg]
  exact ⟨Status.failed_legal e.code hst hb, raise_dataLegal l d e hdata, hcache, hcfg⟩

/-- The end of a running command, without error or with one, is legal. -/
theorem exec_legal {i : Instr} (hs : s.legal) (hb : s.status.busy = true) (h : exec i s = .next t) : t.legal := by
  rcases exec_next_cases h with ⟨u, hu, rfl⟩ | ⟨e, rfl, -⟩
  · rw [State.legal_iff] at hs ⊢
    obtain ⟨hst, hdata, hcache, hcfg⟩ := hs
    have k := body_keeps hu
    have hd : u.dataLegal := body_dataLegal hu hdata
    rw [State.complete_status, State.complete_cache, State.complete_cfg, k.status, k.cache, k.cfg]
    exact ⟨Status.completed_legal hst hb, hd, hcache, hcfg⟩
  · exact raise_legal _ _ e hs hb

theorem blockStep_legal (hs : s.legal) (hb : s.status.busy = true) (h : blockStep s = .next t) : t.legal := by
  rcases blockStep_cases s with ⟨i, -, he⟩ | ⟨-, he⟩ <;> rw [he] at h
  · exact exec_legal hs hb h
  · injection h with h
    exact h ▸ raise_legal [] false _ hs hb

/-- A change of `STATUS` alone keeps a state legal when the new value is legal. -/
theorem State.legal_of_status {f : Status} (hs : s.legal) (hf : f.legal) : State.legal { s with status := f } :=
  ⟨hf, hs.2⟩

theorem resetBlock_state_legal (hs : s.legal) : (resetBlock s).legal := by
  obtain ⟨-, -, hmem, -, hcache, hcfg⟩ := hs
  refine ⟨resetBlock_status s ▸ Status.reset_legal, fun b hb => ?_, ?_, ?_, ?_, ?_⟩
  · rw [resetBlock_bb] at hb
    exact Option.some.inj hb ▸ BitBuffer.empty_legal _
  · rw [resetBlock_cfg]; exact resetBlock_legal hmem
  · simp [State.coherentMaps]
  · rwa [resetBlock_cache]
  · rwa [resetBlock_cfg]

theorem whenIdle_legal (hs : s.legal) (ht : t.legal) : (whenIdle s t).legal := by
  unfold whenIdle
  split
  · exact State.legal_of_status hs (Status.overrun_legal hs.1)
  · exact ht

/-- A write of any register keeps a state legal: only `CTRL`, `CMD` and `STATUS` change more than a register `State.legal`
does not name. -/
theorem writeReg_legal (r : Reg) (v : Word) (hs : s.legal) : (writeReg r v s).legal := by
  cases r with
  | ctrl =>
    simp only [writeReg]
    split
    · exact resetBlock_state_legal hs
    · exact hs
  | cmd => exact whenIdle_legal hs (State.legal_of_status hs (Status.accepted_legal _))
  | status => exact State.legal_of_status hs (Status.writeOneClears_legal v hs.1)
  | irqEn | srcAddr | srcLen | dstAddr | dstCap | arg0 | arg1 => exact whenIdle_legal hs hs
  | id | cap | state | outLen | result0 | result1 | errInfo => exact hs

theorem writeAt_legal (off : Nat) (v : Word) (hs : s.legal) : (writeAt off v s).legal := by
  unfold writeAt
  split
  · exact writeReg_legal _ v hs
  · exact hs

theorem readAt_legal (off : Nat) (hs : s.legal) : (readAt off s).legal := by
  unfold readAt
  split
  · unfold readReg
    split <;> exact hs
  · exact hs

/-- A byte written within DMA space keeps a state legal. -/
theorem State.legal_of_write {a : Nat} (v : Byte) (hs : s.legal) (ha : a < Config.space s.cfg) :
    State.legal { s with mem := s.mem.write a v } := by
  obtain ⟨hst, hbb, hmem, hrest⟩ := hs
  exact ⟨hst, hbb, Memory.write_legal v hmem ha, hrest⟩

/-- A change of the cache alone that keeps its order keeps a state legal. -/
theorem State.legal_of_cache {cs : List CacheByte} (hs : s.legal) (hc : cacheWfFrom 0 cs = true) :
    State.legal { s with cache := cs } := by
  obtain ⟨hst, hbb, hmem, hmaps, -, hcfg⟩ := hs
  exact ⟨hst, hbb, hmem, hmaps, hc, hcfg⟩

theorem State.legal.cacheWf (hs : s.legal) : cacheWfFrom 0 s.cache = true := by
  obtain ⟨-, -, -, -, hcache, -⟩ := hs
  exact hcache

theorem hostStore_legal {a : Nat} (v : Byte) (hs : s.legal) (ha : a < Config.space s.cfg) : (hostStore a v s).legal := by
  unfold hostStore
  split
  · exact State.legal_of_write v hs ha
  · exact State.legal_of_cache hs (cacheInsert_wfFrom hs.cacheWf (Nat.zero_le _))

theorem hostLoad_legal (a : Nat) (hs : s.legal) : (hostLoad a s).legal := by
  unfold hostLoad
  split
  · exact hs
  split
  · exact hs
  split
  · exact hs
  · exact State.legal_of_cache (s := { s with hostData := _ }) hs (cacheInsert_wfFrom hs.cacheWf (Nat.zero_le _))

theorem hostWriteBack_legal {a : Nat} (hs : s.legal) (ha : a < Config.space s.cfg) : (hostWriteBack a s).legal := by
  unfold hostWriteBack
  split
  · split
    · exact State.legal_of_cache (State.legal_of_write _ hs ha) (cacheInsert_wfFrom hs.cacheWf (Nat.zero_le _))
    · exact hs
  · exact hs

/-- An action of the host that goes on keeps a state legal. -/
theorem hostAct_legal {a : HostAction} (hs : s.legal) (h : hostAct a s = .next t) : t.legal := by
  cases a with
  | regWrite off size v =>
    obtain ⟨-, -, -, rfl⟩ := regAction_next h
    exact writeAt_legal off v hs
  | regRead off size =>
    obtain ⟨-, -, -, rfl⟩ := regAction_next h
    exact readAt_legal off hs
  | store a v =>
    obtain ⟨ha, -, rfl⟩ := memAction_next h
    exact hostStore_legal v hs ha
  | load a =>
    obtain ⟨-, -, rfl⟩ := memAction_next h
    exact hostLoad_legal a hs
  | writeBack a =>
    obtain ⟨ha, -, rfl⟩ := memAction_next h
    exact hostWriteBack_legal hs ha
  | discard a =>
    obtain ⟨-, -, rfl⟩ := memAction_next h
    exact State.legal_of_cache hs (cacheDrop_wfFrom a hs.cacheWf)
  | platformReset =>
    injection h with h
    exact h ▸ resetBlock_state_legal hs

end

/-- Settles O59: a step is the block's, one action of the host, or none; the block's step ends a command, whose body keeps the
data legal by its run of writes. -/
theorem stepKeepsLegal : Obligations.StepKeepsLegal := by
  intro s t hs h
  rcases step_cases h with ⟨-, hb, h⟩ | ⟨-, a, rest, -, h⟩ | ⟨-, -, -, rfl⟩
  · exact blockStep_legal (s := s.takeTurn) hs hb h
  · refine hostAct_legal ?_ h
    split <;> exact hs
  · exact hs

end Sys2Proof.Machine

/-! # Checks before the body, and read-back of the decoder table -/

namespace Sys2Proof.Machine

/-! ## Missing structures (R78) -/

section
variable {s : State}

theorem byteOperand_of_le (h : s.ops.arg0.toNat ≤ 255) : byteOperand s = .ok (s.ops.arg0.setWidth 8) := by
  simp [byteOperand, Nat.not_lt.2 h]

theorem codeWordOperand_of_le (h : s.ops.arg1.toNat ≤ 3) : codeWordOperand s = .ok s.ops.arg1.toNat := by
  simp [codeWordOperand, Nat.not_lt.2 h]

/-- A command that uses one buffer passes the buffer checks when its region is in DMA space (R102). -/
theorem checkBuffers_of_regionOk {i : Instr} (hi : i ≠ .compress ∧ i ≠ .decompress)
    (hs : i ∈ srcReaders → regionOk s.cfg s.ops.srcAddr s.ops.srcLen = true)
    (hd : i ∈ dstWriters → regionOk s.cfg s.ops.dstAddr s.ops.dstCap = true) : checkBuffers i s = .ok () := by
  rw [mem_srcReaders] at hs
  rw [mem_dstWriters] at hd
  refine checkBuffers_eq_ok.2 ⟨hs, hd, fun h h' => ?_⟩
  revert hi h h'
  cases i <;> simp [readsSrc, writesDst]

/-- The first missing one of one needed structure. -/
theorem find_missing_one {p q : Struct} (h : [q].find? (fun q => !s.valid q) = some p) : p = q ∧ s.valid q = false := by
  cases hq : s.valid q <;> simp [hq] at h ⊢
  exact h.symm

/-- The first missing one of two needed structures. -/
theorem find_missing_two {p q r : Struct} (h : [q, r].find? (fun q => !s.valid q) = some p) :
    (p = q ∧ s.valid q = false) ∨ (p = r ∧ s.valid q = true ∧ s.valid r = false) := by
  cases hq : s.valid q
  · simp [hq] at h
    exact .inl ⟨h.symm, rfl⟩
  · rw [List.find?_cons_of_neg (by simp [hq])] at h
    obtain ⟨rfl, hr⟩ := find_missing_one h
    exact .inr ⟨rfl, rfl, hr⟩

theorem require_missing {p : Struct} :
    (s.valid .ft = false → require s.ft p = .error ⟨.notReady, p.number⟩) ∧
    (s.valid .tree = false → require s.tree p = .error ⟨.notReady, p.number⟩) ∧
    (s.valid .lut = false → require s.lut p = .error ⟨.notReady, p.number⟩) ∧
    (s.valid .fsm = false → require s.fsm p = .error ⟨.notReady, p.number⟩) ∧
    (s.valid .bb = false → require s.bb p = .error ⟨.notReady, p.number⟩) := by
  simp only [State.valid, Option.isSome_eq_false_iff, Option.isNone_iff_eq_none]
  refine ⟨?_, ?_, ?_, ?_, ?_⟩ <;> intro h <;> rw [h, require_none]

end

/-- Settles O14: the first structure missing is the first `require` that fails, after the checks that come before it. -/
theorem missingStructureIsNotReady : Obligations.MissingStructureIsNotReady := by
  refine ⟨fun i s p hp h255 h3 hsrc hdst => endsWith_of_body ?_, rfl⟩
  have hc (hi : i ≠ .compress ∧ i ≠ .decompress) : checkBuffers i s = .ok () := checkBuffers_of_regionOk hi hsrc hdst
  obtain ⟨hft, htree, hlut, hfsm, hbb⟩ := require_missing (s := s) (p := p)
  cases i
  case freqWrite | freqRemove | freqRead =>
    obtain ⟨rfl, hv⟩ := find_missing_one hp
    simp [body, freqWriteBody, freqRemoveBody, freqReadBody, byteOperand_of_le (h255 (by decide)), hft hv]
  case treeBuild =>
    obtain ⟨rfl, hv⟩ := find_missing_one hp
    simp [body, treeBuildBody, hft hv]
  case nodeRead | encmapGen | decmapGen =>
    obtain ⟨rfl, hv⟩ := find_missing_one hp
    simp [body, nodeReadBody, encmapGenBody, decmapGenBody, htree hv]
  case lutRead =>
    obtain ⟨rfl, hv⟩ := find_missing_one hp
    simp [body, lutReadBody, byteOperand_of_le (h255 (by decide)), codeWordOperand_of_le (h3 rfl), hlut hv]
  case encode =>
    obtain ⟨rfl, hv⟩ := find_missing_one hp
    simp [body, encodeBody, hc (by decide), hlut hv]
  case fsmRead =>
    obtain ⟨rfl, hv⟩ := find_missing_one hp
    simp [body, fsmReadBody, hfsm hv]
  case bbAppendBit | bbGetBit | bbLength =>
    obtain ⟨rfl, hv⟩ := find_missing_one hp
    simp [body, bbAppendBitBody, bbGetBitBody, bbLengthBody, hbb hv]
  case bbAppendMany | bbStore =>
    obtain ⟨rfl, hv⟩ := find_missing_one hp
    simp [body, bbAppendManyBody, bbStoreBody, hc (by decide), hbb hv]
  case ctSerialize =>
    rcases find_missing_two hp with ⟨rfl, hv⟩ | ⟨rfl, hv', hv⟩
    · simp [body, ctSerializeBody, hc (by decide), hft hv]
    · obtain ⟨ft, hs⟩ := Option.isSome_iff_exists.1 hv'
      simp [body, ctSerializeBody, hc (by decide), hs, hbb hv]
  case decode =>
    rcases find_missing_two hp with ⟨rfl, hv⟩ | ⟨rfl, hv', hv⟩
    · simp [body, decodeBody, hc (by decide), hfsm hv]
    · obtain ⟨f, hs⟩ := Option.isSome_iff_exists.1 hv'
      simp [body, decodeBody, hc (by decide), hs, hbb hv]
  all_goals cases hp

/-! ## The decoder table (R66, R350) -/

/-- A byte in a word's bits 15 to 8. -/
theorem toNat_byte_shift (k : Byte) : (k.setWidth 64 <<< 8 : Word).toNat = k.toNat * 2 ^ 8 := by
  have := k.isLt
  simp only [BitVec.toNat_shiftLeft, BitVec.toNat_setWidth, Nat.shiftLeft_eq]; omega

theorem FsmEntry.word_goto (k : Byte) : (FsmEntry.goto k).word = BitVec.ofNat 64 (0 + k.toNat * 2 ^ 8) := by
  rw [Nat.zero_add, ← toNat_byte_shift, BitVec.ofNat_toNat, BitVec.setWidth_eq]; rfl

theorem FsmEntry.word_emit (v : Byte) : (FsmEntry.emit v).word = BitVec.ofNat 64 (1 + v.toNat * 2 ^ 8) := by
  have h : (1 ||| v.setWidth 64 <<< 8 : Word).toNat = 1 + v.toNat * 2 ^ 8 := by
    rw [toNat_or_disjoint 8 (by decide) (by rw [toNat_byte_shift]; omega), toNat_byte_shift]; rfl
  rw [← h, BitVec.ofNat_toNat, BitVec.setWidth_eq]; rfl

/-- Settles O33: the checks in their order, then the entries' words. -/
theorem decoderStatesAreReadBack : Obligations.DecoderStatesAreReadBack := by
  intro s
  refine ⟨fun hf => endsWith_of_body ?_, fun f hf => ⟨fun hk => endsWith_of_body ?_, fun e0 e1 he => ?_⟩⟩
  · simp [body, fsmReadBody, hf, Struct.number]
  · simp [body, fsmReadBody, hf, indexOperand, hk]
  · intro entryWord
    have hword (e : FsmEntry) : e.word = BitVec.ofNat 64 (entryWord e) := by
      cases e with
      | goto k => exact FsmEntry.word_goto k
      | emit v => exact FsmEntry.word_emit v
      | dead => rfl
    have hlt : s.ops.arg0.toNat < f.states.length := (List.getElem?_eq_some_iff.1 he).1
    have hst : f.state s.ops.arg0.toNat = (e0, e1) := by simp [Fsm.state, List.getD_eq_getElem?_getD, he]
    have hb : body .fsmRead s = .ok (s.setResults (BitVec.ofNat 64 (entryWord e0)) (BitVec.ofNat 64 (entryWord e1))) := by
      simp [body, fsmReadBody, hf, indexOperand, Nat.not_lt.2 (Nat.le_sub_one_of_lt hlt), hst, hword]
    rw [exec_of_body hb]
    rfl

end Sys2Proof.Machine

/-! # Register accesses -/

namespace Sys2Proof.Machine

/-- Every register is at an aligned offset of the window (R31). -/
theorem regAt_some {off : Nat} {r : Reg} (h : regAt off = some r) : off % 8 = 0 ∧ off < 4096 := by
  unfold regAt at h
  split at h
  case h_18 => cases h
  all_goals decide

/-- A write at the offset of a register is the write of that register. -/
theorem hostAct_write_reg {s : State} {off : Nat} {r : Reg} (v : Word) (h : regAt off = some r) :
    hostAct (.regWrite off 8 v) s = .next (writeReg r v s) :=
  hostAct_write h (regAt_some h).1 (regAt_some h).2

/-! ## Reads -/

/-- A read of a register that is not drawn returns the number its fields make. -/
theorem hostAct_read_toNat {s : State} {off n : Nat} {r : Reg} (h : regAt off = some r)
    (hd : (s.status.busy && drawnWhileBusy r) = false) (hv : (regValue s r).toNat = n) :
    ∃ v : Word, v.toNat = n ∧ hostAct (.regRead off 8) s = .next { s with hostData := v } :=
  ⟨_, hv, hostAct_read h (regAt_some h).1 (regAt_some h).2 hd⟩

/-- A read of a register whose value is unspecified while busy is a draw (R82). -/
theorem hostAct_read_drawn {s : State} {off : Nat} {r : Reg} (h : regAt off = some r)
    (hd : (s.status.busy && drawnWhileBusy r) = true) :
    hostAct (.regRead off 8) s = .next { s with hostData := Config.freeWord s.draws, draws := s.draws + 1 } := by
  rw [hostAct_regRead (regAt_some h).1 (regAt_some h).2, readAt, h]
  simp only [readReg, hd, if_true]
  rfl

/-- `CAP` holds every legal capacity (R33). -/
theorem capWord_toNat {c : Config} (h : c.wellFormed = true) : (word c.capBytes).toNat = c.capBytes := by
  simp only [Config.wellFormed, Bool.and_eq_true, decide_eq_true_eq] at h
  exact Nat.mod_eq_of_lt (by omega)

theorem ite_eq_toNat (b : Bool) : (if b then 1 else 0) = b.toNat := by cases b <;> rfl

/-- Settles O50: each register of the map with the number its word is. -/
theorem registersReadTheirFields : Obligations.RegistersReadTheirFields := by
  intro s hidle hcfg hmaps flag
  have hread {off n : Nat} {r : Reg} (h : regAt off = some r) (hv : (regValue s r).toNat = n) :
      ∃ v : Word, v.toNat = n ∧ hostAct (.regRead off 8) s = .next { s with hostData := v } :=
    hostAct_read_toNat h (by rw [hidle]; rfl) hv
  have hflag : flag = Bool.toNat := funext ite_eq_toNat
  have hstatus : (regValue s .status).toNat =
      flag s.status.done * 2 + flag s.status.err * 4 + flag s.status.ovr * 8 + s.status.errcode.toNat * 2 ^ 8 := by
    simp only [regValue, Status.word_toNat, hidle, hflag, Bool.toNat_false, Nat.zero_add]
  have hstate : (regValue s .state).toNat = flag s.ft.isSome + flag s.tree.isSome * 2 + flag s.lut.isSome * 4 +
      flag s.fsm.isSome * 8 + flag s.bb.isSome * 16 + s.nleaf * 2 ^ 32 := by
    rw [hflag]; exact State.stateWord_toNat (nleaf_lt hmaps)
  have hirq : (regValue s .irqEn).toNat = flag s.irqEn.doneIe + flag s.irqEn.errIe * 2 := by
    rw [hflag]; exact IrqEnable.word_toNat _
  simp only [List.forall_mem_cons]
  exact ⟨hread (r := .id) rfl (Config.idWord_toNat hcfg), hread (r := .cap) rfl (capWord_toNat hcfg),
    hread (r := .ctrl) rfl rfl, hread (r := .cmd) rfl rfl, hread (r := .status) rfl hstatus,
    hread (r := .state) rfl hstate, hread (r := .irqEn) rfl hirq, hread (r := .srcAddr) rfl rfl,
    hread (r := .srcLen) rfl rfl, hread (r := .dstAddr) rfl rfl, hread (r := .dstCap) rfl rfl,
    hread (r := .arg0) rfl rfl, hread (r := .arg1) rfl rfl, hread (r := .outLen) rfl rfl,
    hread (r := .result0) rfl rfl, hread (r := .result1) rfl rfl, hread (r := .errInfo) rfl rfl,
    fun _ h => nomatch h⟩

/-- Settles O53: the drawn registers by the draw, the others by the numbers their words are. -/
theorem busyReadsAreDraws : Obligations.BusyReadsAreDraws := by
  intro s hbusy
  refine ⟨?_, fun hcfg => ?_⟩
  · have hdraw {off : Nat} {r : Reg} (h : regAt off = some r) (hr : drawnWhileBusy r = true) :
        hostAct (.regRead off 8) s = .next { s with hostData := Config.freeWord s.draws, draws := s.draws + 1 } :=
      hostAct_read_drawn h (by rw [hbusy, hr]; rfl)
    simp only [List.forall_mem_cons]
    exact ⟨hdraw (r := .state) rfl rfl, hdraw (r := .outLen) rfl rfl, hdraw (r := .result0) rfl rfl,
      hdraw (r := .result1) rfl rfl, hdraw (r := .errInfo) rfl rfl, fun _ h => nomatch h⟩
  · intro flag
    have hflag : flag = Bool.toNat := funext ite_eq_toNat
    have hstatus : (regValue s .status).toNat = 1 + flag s.status.done * 2 + flag s.status.err * 4 +
        flag s.status.ovr * 8 + s.status.errcode.toNat * 2 ^ 8 := by
      simp only [regValue, Status.word_toNat, hbusy, hflag, Bool.toNat_true]
    have hirq : (regValue s .irqEn).toNat = flag s.irqEn.doneIe + flag s.irqEn.errIe * 2 := by
      rw [hflag]; exact IrqEnable.word_toNat _
    have hread {off n : Nat} {r : Reg} (h : regAt off = some r) (hr : drawnWhileBusy r = false)
        (hv : (regValue s r).toNat = n) :
        ∃ v : Word, v.toNat = n ∧ hostAct (.regRead off 8) s = .next { s with hostData := v } :=
      hostAct_read_toNat h (by rw [hr, Bool.and_false]) hv
    simp only [List.forall_mem_cons]
    exact ⟨hread (r := .id) rfl rfl (Config.idWord_toNat hcfg), hread (r := .cap) rfl rfl (capWord_toNat hcfg),
      hread (r := .cmd) rfl rfl rfl, hread (r := .status) rfl rfl hstatus, hread (r := .irqEn) rfl rfl hirq,
      fun _ h => nomatch h⟩

/-! ## Offsets outside the map -/

theorem hostAct_read_reserved {s : State} {off : Nat} (h : 0x088 ≤ off) (h' : off ≤ 0xFF8) (h8 : off % 8 = 0) :
    hostAct (.regRead off 8) s = .next { s with hostData := 0 } := by
  rw [hostAct_regRead h8 (by omega), readAt, regAt_reserved h]

theorem hostAct_write_reserved {s : State} {off : Nat} {v : Word} (h : 0x088 ≤ off) (h' : off ≤ 0xFF8) (h8 : off % 8 = 0) :
    hostAct (.regWrite off 8 v) s = .next s := by
  rw [hostAct_regWrite h8 (by omega), writeAt, regAt_reserved h]

/-- An access of another size or alignment, or outside the window, is refused (R46). -/
theorem regAction_refused {off size : Nat} (t : State) (h : size ≠ 8 ∨ off % 8 ≠ 0 ∨ 4096 ≤ off) :
    regAction off size t = .refused (.registerAccess off size) := by
  have hf : accessWellFormed off size = false := by
    rw [← Bool.not_eq_true, accessWellFormed, Bool.and_eq_true, Bool.and_eq_true, decide_eq_true_iff, decide_eq_true_iff,
      decide_eq_true_iff]
    omega
  simp [regAction, hf]

/-- Settles O51. -/
theorem accessesOutsideTheMap : Obligations.AccessesOutsideTheMap := fun _ _ _ _ =>
  ⟨fun h h' h8 => ⟨hostAct_read_reserved h h' h8, hostAct_write_reserved h h' h8⟩,
    fun h => ⟨regAction_refused _ h, regAction_refused _ h⟩⟩

/-! ## Writes -/

/-- A write of a register that takes effect only while idle is dropped while busy and sets `OVR` (R49). -/
theorem writeReg_busy {s : State} {r : Reg} {v : Word} (hb : s.status.busy = true)
    (hr : r ∈ [.cmd, .irqEn, .srcAddr, .srcLen, .dstAddr, .dstCap, .arg0, .arg1]) :
    writeReg r v s = { s with status := { s.status with ovr := true } } := by
  cases r
  case cmd | irqEn | srcAddr | srcLen | dstAddr | dstCap | arg0 | arg1 => exact whenIdle_busy hb
  all_goals exact absurd hr (by decide)

/-- Settles O52: register by register, a dropped write by `writeReg_busy`. -/
theorem busyWritesAreDropped : Obligations.BusyWritesAreDropped := by
  intro s v
  have hwrite {off : Nat} {r : Reg} {t : State} (h : regAt off = some r) (ht : writeReg r v s = t) :
      hostAct (.regWrite off 8 v) s = .next t := ht ▸ hostAct_write_reg v h
  refine ⟨fun hb => ?_, ?_, fun off h h' h8 => hostAct_write_reserved h h' h8, fun hv => ?_, fun hv => ?_,
    hwrite (r := .status) rfl rfl, fun hb => ?_⟩
  · have hdrop {off : Nat} {r : Reg} (h : regAt off = some r)
        (hr : r ∈ [.cmd, .irqEn, .srcAddr, .srcLen, .dstAddr, .dstCap, .arg0, .arg1]) :
        hostAct (.regWrite off 8 v) s = .next { s with status := { s.status with ovr := true } } :=
      hwrite h (writeReg_busy hb hr)
    simp only [List.forall_mem_cons]
    exact ⟨hdrop (r := .cmd) rfl (by decide), hdrop (r := .irqEn) rfl (by decide),
      hdrop (r := .srcAddr) rfl (by decide), hdrop (r := .srcLen) rfl (by decide),
      hdrop (r := .dstAddr) rfl (by decide), hdrop (r := .dstCap) rfl (by decide),
      hdrop (r := .arg0) rfl (by decide), hdrop (r := .arg1) rfl (by decide), fun _ h => nomatch h⟩
  · simp only [List.forall_mem_cons]
    exact ⟨hwrite (r := .id) rfl rfl, hwrite (r := .cap) rfl rfl, hwrite (r := .state) rfl rfl,
      hwrite (r := .outLen) rfl rfl, hwrite (r := .result0) rfl rfl, hwrite (r := .result1) rfl rfl,
      hwrite (r := .errInfo) rfl rfl, fun _ h => nomatch h⟩
  · exact hwrite (r := .ctrl) rfl (by simp only [writeReg, hv, Bool.false_eq_true, if_false])
  · exact ⟨resetBlock s, hwrite (r := .ctrl) rfl (by simp only [writeReg, hv, if_true]),
      by rw [resetBlock_status]; rfl, by rw [resetBlock_status]; rfl⟩
  · exact ⟨hwrite (r := .irqEn) rfl (whenIdle_idle hb), hwrite (r := .srcAddr) rfl (whenIdle_idle hb),
      hwrite (r := .srcLen) rfl (whenIdle_idle hb), hwrite (r := .dstAddr) rfl (whenIdle_idle hb),
      hwrite (r := .dstCap) rfl (whenIdle_idle hb), hwrite (r := .arg0) rfl (whenIdle_idle hb),
      hwrite (r := .arg1) rfl (whenIdle_idle hb)⟩

end Sys2Proof.Machine

/-! # The arena of a built tree -/

namespace Sys2Proof.Machine

/-! ## Runs of the merge loop -/

/-- A run of the merge loop that ends without error: the working set, the next free slot, and the nodes it makes, in order
(R283). -/
inductive MergeRun : List (Nat × Node) → Nat → List Node → Prop where
  | done (x : Nat × Node) (next : Nat) : MergeRun [x] next []
  | merge {w w₁ w₂ : List (Nat × Node)} {a b : Nat × Node} {next : Nat} {ns : List Node} :
      extractLeast w = some (a, w₁) → extractLeast w₁ = some (b, w₂) → a.2.count.toNat + b.2.count.toNat < 2 ^ 64 →
      MergeRun ((next, mergeNodes a b) :: w₂) (next + 1) ns → MergeRun w next (mergeNodes a b :: ns)

theorem mergeLoop_run {fuel next : Nat} {w : List (Nat × Node)} {ns : List Node} (hl : w.length = fuel + 1)
    (h : mergeLoop fuel w next = .ok ns) : MergeRun w next ns := by
  induction fuel generalizing w next ns with
  | zero =>
    obtain ⟨x, rfl⟩ := List.length_eq_one_iff.1 hl
    injection h with h
    exact h ▸ .done x next
  | succ fuel ih =>
    unfold mergeLoop at h
    split at h
    case h_1 ha => rw [extractLeast_none.1 ha] at hl; cases hl
    case h_2 a w₁ ha =>
      have la := extractLeast_length ha
      split at h
      case h_1 hb => rw [extractLeast_none.1 hb, List.length_nil] at la; omega
      case h_2 b w₂ hb =>
        have lb := extractLeast_length hb
        split at h
        · cases h
        · rename_i hs
          obtain ⟨rest, hrest, h⟩ := bind_eq_ok.1 h
          injection h with h
          exact h ▸ .merge ha hb (by omega) (ih (by rw [List.length_cons]; omega) hrest)

/-- The working set taken apart by two extractions. -/
theorem extract_two_perm {w w₁ w₂ : List (Nat × Node)} {a b : Nat × Node} (ha : extractLeast w = some (a, w₁))
    (hb : extractLeast w₁ = some (b, w₂)) : w.Perm (a :: b :: w₂) :=
  (extractLeast_perm ha).trans ((extractLeast_perm hb).cons a)

/-- Each merge takes one node off the working set. -/
theorem MergeRun.length {w : List (Nat × Node)} {next : Nat} {ns : List Node} (h : MergeRun w next ns) :
    w.length = ns.length + 1 := by
  induction h with
  | done x next => rfl
  | merge ha hb _ _ ih =>
    have := (extract_two_perm ha hb).length_eq
    simp only [List.length_cons] at this ih ⊢
    omega

/-- The arena holds each node of the working set at its slot. -/
def holdsSet (arena : List Node) (w : List (Nat × Node)) : Prop := ∀ p ∈ w, arena[p.1]? = some p.2

theorem holdsSet.append {arena : List Node} {w : List (Nat × Node)} (h : holdsSet arena w) (ns : List Node) :
    holdsSet (arena ++ ns) w := fun p hp => by
  obtain ⟨hlt, hp⟩ := List.getElem?_eq_some_iff.1 (h p hp)
  rw [List.getElem?_append_left hlt, List.getElem?_eq_getElem hlt, hp]

/-- The working set after a merge is held by the arena with the new node at its end. -/
theorem holdsSet.merged {arena : List Node} {w w₂ : List (Nat × Node)} {a b : Nat × Node} (h : holdsSet arena w)
    (hw : w.Perm (a :: b :: w₂)) (x : Node) : holdsSet (arena ++ [x]) ((arena.length, x) :: w₂) := by
  intro p hp
  rcases List.mem_cons.1 hp with rfl | hp
  · exact List.getElem?_concat_length
  · exact h.append [x] p (hw.mem_iff.2 (.tail _ (.tail _ hp)))

/-- Each node a run makes is the merge of two nodes at lower slots of the arena (R56, R283). -/
theorem MergeRun.made {w : List (Nat × Node)} {next : Nat} {ns arena : List Node} (h : MergeRun w next ns)
    (hn : arena.length = next) (hw : holdsSet arena w) {k : Nat} (hk : k < ns.length) :
    ∃ a b : Nat × Node, ns[k] = mergeNodes a b ∧ a.1 < next + k ∧ b.1 < next + k ∧ holdsSet (arena ++ ns) [a, b] ∧
      a.2.count.toNat + b.2.count.toNat < 2 ^ 64 := by
  induction h generalizing arena k with
  | done x next => cases hk
  | @merge w w₁ w₂ a b next ns ha hb hs _ ih =>
    have hp := extract_two_perm ha hb
    cases k with
    | zero =>
      have hab : holdsSet arena [a, b] := fun p h => hw p (hp.mem_iff.2 (List.mem_append_left w₂ h))
      have hlt (p : Nat × Node) (h : p ∈ [a, b]) : p.1 < next :=
        hn ▸ (List.getElem?_eq_some_iff.1 (hab p h)).1
      exact ⟨a, b, rfl, hlt a (by simp), hlt b (by simp), hab.append _, hs⟩
    | succ k =>
      subst hn
      obtain ⟨c, d, hcd, hc, hd, hin, hsum⟩ := ih (arena := arena ++ [mergeNodes a b]) (by simp) (hw.merged hp _)
        (Nat.lt_of_succ_lt_succ hk)
      rw [List.append_assoc] at hin
      exact ⟨c, d, hcd, by omega, by omega, hin, hsum⟩

/-- The slots of the children of a list of nodes. -/
def childSlots (ns : List Node) : List Nat := ns.flatMap fun x => [x.left.toNat, x.right.toNat]

theorem mergeNodes_children {a b : Nat × Node} (ha : a.1 < 512) (hb : b.1 < 512) :
    (mergeNodes a b).left.toNat = a.1 ∧ (mergeNodes a b).right.toNat = b.1 := by
  simp [mergeNodes, Node.left, Node.right, Nat.mod_eq_of_lt, ha, hb]

/-- The merged node has the smaller minimum byte (R56). -/
theorem mergeNodes_minByte (a b : Nat × Node) :
    (mergeNodes a b).minByte.toNat = min a.2.minByte.toNat b.2.minByte.toNat := by
  have h : (mergeNodes a b).minByte = if a.2.minByte.toNat ≤ b.2.minByte.toNat then a.2.minByte else b.2.minByte := rfl
  rw [h]
  split <;> omega

/-- Of the slots a run starts with or makes, each but one becomes the child of exactly one node it makes. -/
theorem MergeRun.children_perm {w : List (Nat × Node)} {next : Nat} {ns : List Node} (h : MergeRun w next ns)
    (hw : ∀ p ∈ w, p.1 < 512) (hn : next + ns.length ≤ 512) :
    ∃ last, (w.map Prod.fst ++ List.range' next ns.length).Perm (childSlots ns ++ [last]) := by
  induction h with
  | done x next => exact ⟨x.1, .refl _⟩
  | @merge w w₁ w₂ a b next ns ha hb _ _ ih =>
    have hp := extract_two_perm ha hb
    rw [List.length_cons] at hn
    have hw₂ : ∀ p ∈ (next, mergeNodes a b) :: w₂, p.1 < 512 := by
      intro p h
      rcases List.mem_cons.1 h with rfl | h
      · simp only; omega
      · exact hw p (hp.mem_iff.2 (.tail _ (.tail _ h)))
    obtain ⟨last, hlast⟩ := ih hw₂ (by omega)
    obtain ⟨hl, hr⟩ := mergeNodes_children (hw a (hp.mem_iff.2 (.head _))) (hw b (hp.mem_iff.2 (.tail _ (.head _))))
    have hc : childSlots (mergeNodes a b :: ns) = a.1 :: b.1 :: childSlots ns := by
      rw [childSlots, List.flatMap_cons, hl, hr]; rfl
    refine ⟨last, ?_⟩
    rw [hc, List.length_cons, List.range'_succ]
    calc (w.map Prod.fst ++ next :: List.range' (next + 1) ns.length).Perm
          (a.1 :: b.1 :: w₂.map Prod.fst ++ next :: List.range' (next + 1) ns.length) := (hp.map Prod.fst).append_right _
      _ |>.Perm (a.1 :: b.1 :: (next :: w₂.map Prod.fst ++ List.range' (next + 1) ns.length)) :=
          (List.perm_middle.cons b.1).cons a.1
      _ |>.Perm (a.1 :: b.1 :: (childSlots ns ++ [last])) := (hlast.cons b.1).cons a.1

/-! ## The built tree -/

section
variable {ft : FreqTable} {t : Tree}

/-- A built tree is the leaves of the table and the nodes of a run of the merge loop from them (R283, R285). -/
theorem build_run (h : build ft = .ok (some t)) :
    FreqTable.size ft ≠ 0 ∧ ∃ ns, t = ⟨FreqTable.size ft, seedLeaves ft ++ ns⟩ ∧
      MergeRun (withSlots (seedLeaves ft)) (FreqTable.size ft) ns := by
  simp only [build, seedLeaves_length] at h
  split at h
  · cases h
  · rename_i h0
    obtain ⟨ns, hns, h⟩ := bind_eq_ok.1 h
    injection h with h
    injection h with h
    exact ⟨h0, ns, h.symm, mergeLoop_run (by rw [withSlots_length, seedLeaves_length]; omega) hns⟩

/-- The nodes from the leaf count on are the run's. -/
theorem build_run_drop (h : build ft = .ok (some t)) :
    MergeRun (withSlots (seedLeaves ft)) t.nleaf (t.nodes.drop t.nleaf) := by
  obtain ⟨-, ns, rfl, hr⟩ := build_run h
  rwa [List.drop_left' (seedLeaves_length ft)]

theorem build_nleaf_range (h : build ft = .ok (some t)) : 1 ≤ t.nleaf ∧ t.nleaf ≤ 256 := by
  obtain ⟨h0, -⟩ := build_run h
  have := FreqTable.size_le ft
  rw [build_nleaf h]; omega

/-- A tree of `n` leaves has `2n - 1` slots (R285). -/
theorem build_length (h : build ft = .ok (some t)) : t.nodes.length = 2 * t.nleaf - 1 := by
  obtain ⟨-, ns, rfl, hr⟩ := build_run h
  have := hr.length
  rw [withSlots_length] at this
  simp only [List.length_append, seedLeaves_length] at this ⊢
  omega

theorem withSlots_fst (l : List Node) : (withSlots l).map Prod.fst = List.range l.length := by
  rw [withSlots, List.map_map, List.range_eq_range', ← List.zipIdx_map_snd]; rfl

theorem holdsSet_withSlots (l : List Node) : holdsSet l (withSlots l) := by
  intro p hp
  obtain ⟨q, hq, rfl⟩ := List.mem_map.1 hp
  exact List.mem_zipIdx_iff_getElem?.1 hq

theorem Tree.node_of_getElem? {i : Nat} {x : Node} (h : t.nodes[i]? = some x) : t.node i = x := by
  rw [Tree.node, List.getD_eq_getElem?_getD, h]; rfl

/-- Slot `j` below the leaf count is the leaf of entry `j` of the table (R281). -/
theorem build_leaf (h : build ft = .ok (some t)) {j : Nat} (hj : j < (FreqTable.entries ft).length) :
    t.node j = .leaf (FreqTable.entries ft)[j].1 (FreqTable.entries ft)[j].2 := by
  obtain ⟨-, ns, rfl, -⟩ := build_run h
  have hj' : j < (seedLeaves ft).length := by rwa [seedLeaves_length]
  refine Tree.node_of_getElem? ?_
  rw [List.getElem?_append_left hj', List.getElem?_eq_getElem hj']
  simp [seedLeaves]

/-- Each slot from the leaf count on is the merge of two lower slots (R56, R283). -/
theorem build_internal (h : build ft = .ok (some t)) {k : Nat} (hk : t.nleaf ≤ k) (hk' : k < 2 * t.nleaf - 1) :
    ∃ i j, i < k ∧ j < k ∧ t.node k = mergeNodes (i, t.node i) (j, t.node j) ∧
      (t.node i).count.toNat + (t.node j).count.toNat < 2 ^ 64 := by
  have hlen := build_length h
  obtain ⟨-, ns, rfl, hr⟩ := build_run h
  simp only [List.length_append, seedLeaves_length] at hlen hk hk'
  obtain ⟨a, b, hab, ha, hb, hin, hsum⟩ := hr.made (k := k - FreqTable.size ft) (seedLeaves_length ft)
    (holdsSet_withSlots _) (by omega)
  have hna : Tree.node ⟨FreqTable.size ft, seedLeaves ft ++ ns⟩ a.1 = a.2 := Tree.node_of_getElem? (hin a (by simp))
  have hnb : Tree.node ⟨FreqTable.size ft, seedLeaves ft ++ ns⟩ b.1 = b.2 := Tree.node_of_getElem? (hin b (by simp))
  refine ⟨a.1, b.1, by omega, by omega, ?_, by rwa [hna, hnb]⟩
  rw [hna, hnb, ← hab]
  refine Tree.node_of_getElem? ?_
  rw [List.getElem?_append_right (by rwa [seedLeaves_length]), seedLeaves_length, List.getElem?_eq_getElem]

/-- The children of a slot from the leaf count on are two different lower slots, whose counts and bytes make its own (R56). -/
theorem build_children (h : build ft = .ok (some t)) {k : Nat} (hk : t.nleaf ≤ k) (hk' : k < 2 * t.nleaf - 1) :
    ∃ l r c m, t.node k = .internal l r c m ∧ l.toNat < k ∧ r.toNat < k ∧
      c.toNat = (t.node l.toNat).count.toNat + (t.node r.toNat).count.toNat ∧
      m.toNat = min (t.node l.toNat).minByte.toNat (t.node r.toNat).minByte.toNat := by
  obtain ⟨-, hn⟩ := build_nleaf_range h
  obtain ⟨i, j, hi, hj, hnode, hsum⟩ := build_internal h hk hk'
  have hl : (BitVec.ofNat 9 i).toNat = i := Nat.mod_eq_of_lt (by omega)
  have hr : (BitVec.ofNat 9 j).toNat = j := Nat.mod_eq_of_lt (by omega)
  refine ⟨_, _, _, _, hnode, hl.symm ▸ hi, hr.symm ▸ hj, ?_, ?_⟩ <;> rw [hl, hr]
  · exact Nat.mod_eq_of_lt hsum
  · exact mergeNodes_minByte (i, t.node i) (j, t.node j)

/-- `c` is a child of slot `k`. -/
def Tree.childOf (t : Tree) (k c : Nat) : Prop := (t.node k).left.toNat = c ∨ (t.node k).right.toNat = c

theorem build_child_lt (h : build ft = .ok (some t)) {k c : Nat} (hk : t.nleaf ≤ k) (hk' : k < 2 * t.nleaf - 1)
    (hc : t.childOf k c) : c < k := by
  obtain ⟨l, r, _, _, hnode, hl, hr, -, -⟩ := build_children h hk hk'
  rw [Tree.childOf, hnode] at hc
  rcases hc with rfl | rfl
  · exact hl
  · exact hr

theorem mem_childSlots {c : Nat} {ns : List Node} : c ∈ childSlots ns ↔ ∃ x ∈ ns, x.left.toNat = c ∨ x.right.toNat = c := by
  simp [childSlots, eq_comm]

/-- The nodes from the leaf count on, by slot. -/
theorem Tree.node_drop {i : Nat} (n : Nat) (hi : i < (t.nodes.drop n).length) : (t.nodes.drop n)[i] = t.node (n + i) := by
  rw [List.length_drop] at hi
  rw [List.getElem_drop, Tree.node, List.getD_eq_getElem _ _ (by omega)]

theorem mem_childSlots_drop (h : build ft = .ok (some t)) {c : Nat} :
    c ∈ childSlots (t.nodes.drop t.nleaf) ↔ ∃ k, t.nleaf ≤ k ∧ k < 2 * t.nleaf - 1 ∧ t.childOf k c := by
  have hlen := build_length h
  rw [mem_childSlots]
  constructor
  · rintro ⟨x, hx, hc⟩
    obtain ⟨i, hi, rfl⟩ := List.getElem_of_mem hx
    rw [Tree.node_drop] at hc
    rw [List.length_drop] at hi
    exact ⟨t.nleaf + i, by omega, by omega, hc⟩
  · rintro ⟨k, hk, hk', hc⟩
    have hi : k - t.nleaf < (t.nodes.drop t.nleaf).length := by rw [List.length_drop]; omega
    refine ⟨_, List.getElem_mem hi, ?_⟩
    rwa [Tree.node_drop, Nat.add_sub_cancel' hk]

/-- The children of the internal nodes are the slots below the root, each once. -/
theorem build_childSlots_perm (h : build ft = .ok (some t)) :
    (childSlots (t.nodes.drop t.nleaf)).Perm (List.range (2 * t.nleaf - 2)) := by
  obtain ⟨h1, h256⟩ := build_nleaf_range h
  have hlen := build_length h
  obtain ⟨last, hp⟩ := (build_run_drop h).children_perm (fun p hp => by
      have := (List.getElem?_eq_some_iff.1 (holdsSet_withSlots _ p hp)).1
      rw [seedLeaves_length, ← build_nleaf h] at this
      omega) (by rw [List.length_drop]; omega)
  have hslots : List.range t.nleaf ++ List.range' t.nleaf (t.nodes.length - t.nleaf) =
      List.range (2 * t.nleaf - 2) ++ [2 * t.nleaf - 2] := by
    have := List.range'_append_1 (s := 0) (m := t.nleaf) (n := t.nodes.length - t.nleaf)
    rw [Nat.zero_add] at this
    rw [← List.range_succ, List.range_eq_range', this, List.range_eq_range']
    congr 1; omega
  rw [withSlots_fst, seedLeaves_length, ← build_nleaf h, List.length_drop, hslots] at hp
  have hlast : 2 * t.nleaf - 2 = last := by
    rcases List.mem_append.1 (hp.mem_iff.1 (List.mem_append_right _ (.head _))) with hc | hc
    · obtain ⟨k, hk, hk', hc⟩ := (mem_childSlots_drop h).1 hc
      have := build_child_lt h hk hk' hc
      omega
    · exact List.mem_singleton.1 hc
  subst hlast
  exact ((List.perm_append_right_iff _).1 hp).symm

/-- No slot is the child of two nodes. -/
theorem build_parent_unique (h : build ft = .ok (some t)) {c k k' : Nat} (hk : t.nleaf ≤ k) (hkk : k < k')
    (hk' : k' < 2 * t.nleaf - 1) (hc : t.childOf k c) : ¬ t.childOf k' c := by
  intro hc'
  have hlen := build_length h
  have hnd : (childSlots (t.nodes.drop t.nleaf)).Nodup := (build_childSlots_perm h).nodup_iff.2 List.nodup_range
  have hdis := List.pairwise_iff_getElem.1 (List.nodup_flatMap.1 hnd).2 (k - t.nleaf) (k' - t.nleaf)
    (by rw [List.length_drop]; omega) (by rw [List.length_drop]; omega) (by omega)
  rw [Function.onFun, Tree.node_drop, Tree.node_drop, Nat.add_sub_cancel' hk, Nat.add_sub_cancel' (by omega)] at hdis
  have hin {k} (hc : t.childOf k c) : c ∈ [(t.node k).left.toNat, (t.node k).right.toNat] := by
    rcases hc with rfl | rfl <;> simp
  exact hdis (hin hc) (hin hc')

/-- The two children of a node differ. -/
theorem build_children_ne (h : build ft = .ok (some t)) {k : Nat} (hk : t.nleaf ≤ k) (hk' : k < 2 * t.nleaf - 1) :
    (t.node k).left ≠ (t.node k).right := by
  have hlen := build_length h
  have hi : k - t.nleaf < (t.nodes.drop t.nleaf).length := by rw [List.length_drop]; omega
  have hnd : (childSlots (t.nodes.drop t.nleaf)).Nodup := (build_childSlots_perm h).nodup_iff.2 List.nodup_range
  have := (List.nodup_flatMap.1 hnd).1 _ (List.getElem_mem hi)
  rw [Tree.node_drop, Nat.add_sub_cancel' hk] at this
  intro he
  simp [he] at this

end

/-- Settles O24: the leaves are the table's entries, and the rest is a run of the merge loop. -/
theorem arenaOfABuiltTree : Obligations.ArenaOfABuiltTree := by
  intro ft t h
  obtain ⟨h1, h256⟩ := build_nleaf_range h
  have hsize : (FreqTable.entries ft).length = t.nleaf := (build_nleaf h).symm
  refine ⟨build_nleaf h, h1, h256, build_length h, rfl, fun j hj => ⟨_, _, build_leaf h (hsize ▸ hj)⟩,
    fun b c => ?_, fun j k hjk hk => ?_, fun k hk hk' => ?_, fun j hj => ?_⟩
  · rw [← FreqTable.mem_entries]
    constructor
    · rintro ⟨j, hj, hnode⟩
      rw [build_leaf h (hsize ▸ hj)] at hnode
      injection hnode with hb hc
      exact hb ▸ hc ▸ List.getElem_mem (hsize ▸ hj)
    · intro hm
      obtain ⟨j, hj, he⟩ := List.getElem_of_mem hm
      exact ⟨j, hsize ▸ hj, by rw [build_leaf h hj, he]⟩
  · rw [build_leaf h (hsize ▸ hjk.trans hk), build_leaf h (hsize ▸ hk)]
    exact List.pairwise_iff_getElem.1 (FreqTable.entries_sorted ft) j k _ _ hjk
  · obtain ⟨l, r, c, m, hnode, hl, hr, hc, hm⟩ := build_children h hk hk'
    have hne := build_children_ne h hk hk'
    rw [hnode] at hne
    exact ⟨l, r, c, m, hnode, hl, hr, hne, hc, hm⟩
  · have hj' : j ∈ childSlots (t.nodes.drop t.nleaf) := (build_childSlots_perm h).mem_iff.2 (List.mem_range.2 hj)
    obtain ⟨k, hk, hk', hc⟩ := (mem_childSlots_drop h).1 hj'
    refine ⟨k, ⟨hk, hk', hc⟩, fun k' hl hl' hc' => ?_⟩
    rcases Nat.lt_trichotomy k' k with hlt | heq | hgt
    · exact absurd hc (build_parent_unique h hl hlt hk' hc')
    · exact heq
    · exact absurd hc' (build_parent_unique h hk hgt hl' hc)

end Sys2Proof.Machine

/-! # The buffers before any access -/

namespace Sys2Proof.Machine

section
variable {i : Instr} {s : State}

/-- The source region is checked first (R102). -/
theorem checkBuffers_source (hi : i ∈ srcReaders) (h : regionOk s.cfg s.ops.srcAddr s.ops.srcLen = false) :
    checkBuffers i s = .error ⟨.memFault, s.ops.srcAddr⟩ := by
  rw [mem_srcReaders] at hi
  simp [checkBuffers, check, hi, h]

/-- The destination region is checked next (R102). -/
theorem checkBuffers_dest (hi : i ∈ dstWriters)
    (hs : i ∈ srcReaders → regionOk s.cfg s.ops.srcAddr s.ops.srcLen = true)
    (h : regionOk s.cfg s.ops.dstAddr s.ops.dstCap = false) :
    checkBuffers i s = .error ⟨.memFault, s.ops.dstAddr⟩ := by
  rw [mem_srcReaders] at hs
  rw [mem_dstWriters] at hi
  cases hr : readsSrc i
  · simp [checkBuffers, check, hi, hr, h]
  · simp [checkBuffers, check, hi, hr, h, hs hr]

/-- The overlap of the two buffers is checked last (R109). -/
theorem checkBuffers_overlap (hi : i ∈ srcReaders) (hi' : i ∈ dstWriters)
    (hs : regionOk s.cfg s.ops.srcAddr s.ops.srcLen = true) (hd : regionOk s.cfg s.ops.dstAddr s.ops.dstCap = true)
    (h : buffersOverlap s.ops = true) : checkBuffers i s = .error ⟨.overlap, s.ops.dstAddr⟩ := by
  rw [mem_srcReaders] at hi
  rw [mem_dstWriters] at hi'
  simp [checkBuffers, check, hi, hi', hs, hd, h]

theorem regionOk_eq_false_iff {c : Config} {addr len : Word} :
    regionOk c addr len = false ↔ len ≠ 0 ∧ 2 ^ c.addrW < addr.toNat + len.toNat := by
  rw [← Bool.not_eq_true, regionOk_iff, not_or, Nat.not_le, ne_eq, ← BitVec.toNat_inj]
  exact Iff.rfl

/-- Two buffers that share a byte overlap (R109). -/
theorem buffersOverlap_of_shared {a : Nat} (hs : s.ops.srcAddr.toNat ≤ a ∧ a < s.ops.srcAddr.toNat + s.ops.srcLen.toNat)
    (hd : inDest s a) : buffersOverlap s.ops = true := by
  simp only [buffersOverlap, Bool.and_eq_true, decide_eq_true_eq]
  omega

end

/-- Settles O15: the three checks of the buffers, in their order. -/
theorem buffersAreCheckedFirst : Obligations.BuffersAreCheckedFirst := by
  intro i s
  refine ⟨fun hi hlen hend => ?_, fun hi hsrc hcap hend => ?_, fun hi hsrc hdst ⟨a, h1, h2, h3, h4⟩ => ?_⟩
  · exact endsWith_of_body (body_of_checkBuffers (.inl hi)
      (checkBuffers_source hi (regionOk_eq_false_iff.2 ⟨hlen, hend⟩)))
  · refine endsWith_of_body (body_of_checkBuffers (.inr hi)
      (checkBuffers_dest hi (fun hi' => regionOk_iff.2 ?_) (regionOk_eq_false_iff.2 ⟨hcap, hend⟩)))
    exact (hsrc hi').imp_left fun h => by rw [h]; rfl
  · have hboth : i ∈ srcReaders ∧ i ∈ dstWriters := by rcases hi with rfl | rfl <;> decide
    exact endsWith_of_body (body_of_checkBuffers (.inl hboth.1)
      (checkBuffers_overlap hboth.1 hboth.2 (regionOk_iff.2 (.inr hsrc)) (regionOk_iff.2 (.inr hdst))
        (buffersOverlap_of_shared ⟨h1, h2⟩ ⟨h3, h4⟩)))

end Sys2Proof.Machine

/-! # Host accesses to memory -/

namespace Sys2Proof.Machine

section
variable {a : Nat} {w : Bool} {s t : State}

/-- An address outside DMA space has no byte (R101). -/
theorem memAction_outside (h : 2 ^ s.cfg.addrW ≤ a) : memAction a w s t = .fault (.noSuchAddress a) := if_pos h

/-- The host has no write to a buffer of a running command (R189). -/
theorem memAction_busyBuffer (h : a < 2 ^ s.cfg.addrW) (hb : busyBuffer s a = true) :
    memAction a true s t = .refused (.bufferWriteWhileBusy a) := by
  rw [memAction, Config.space, if_neg (Nat.not_le.2 h), hb]; rfl

theorem memAction_read (h : a < 2 ^ s.cfg.addrW) : memAction a false s t = .next t := by
  rw [memAction, Config.space, if_neg (Nat.not_le.2 h)]; rfl

theorem memAction_idle (h : a < 2 ^ s.cfg.addrW) (hb : s.status.busy = false) : memAction a w s t = .next t := by
  rw [memAction, Config.space, if_neg (Nat.not_le.2 h), if_neg (by simp [busyBuffer, hb])]

theorem inBuffer_iff {addr len : Word} : inBuffer addr len a = true ↔ addr.toNat ≤ a ∧ a < addr.toNat + len.toNat := by
  simp [inBuffer]

theorem busyBuffer_of_mem (hb : s.status.busy = true)
    (h : inDest s a ∨ (s.ops.srcAddr.toNat ≤ a ∧ a < s.ops.srcAddr.toNat + s.ops.srcLen.toNat)) :
    busyBuffer s a = true := by
  rw [busyBuffer, hb, Bool.true_and, Bool.or_eq_true, inBuffer_iff, inBuffer_iff]
  exact h.symm

/-- A load of a destination byte of a running command is a free value (R189). -/
theorem hostLoad_busyDest (hb : s.status.busy = true) (h : inDest s a) :
    hostLoad a s = State.drew { s with hostData := (Config.freeByte s.draws a).setWidth 64 } 1 := by
  rw [hostLoad, hb, inBuffer_iff.2 h]; rfl

theorem hostLoad_coherent (hb : s.status.busy = false) (hc : s.cfg.coherent = true) :
    hostLoad a s = { s with hostData := (s.mem.read a).setWidth 64 } := by
  simp [hostLoad, hb, hc]

/-- Without a cached copy a load answers the byte of memory (R118). -/
theorem hostLoad_uncached (hb : s.status.busy = false) (hc : cacheFind s.cache a = none) :
    (hostLoad a s).hostData = (s.mem.read a).setWidth 64 := by
  cases h : s.cfg.coherent <;> simp [hostLoad, hb, hc, h]

theorem hostStore_coherent (v : Byte) (hc : s.cfg.coherent = true) :
    hostStore a v s = { s with mem := s.mem.write a v } := by
  simp [hostStore, hc]

theorem hostStore_cached (v : Byte) (hc : s.cfg.coherent = false) :
    hostStore a v s = { s with cache := cacheInsert s.cache { addr := a, val := v, dirty := true } } := by
  simp [hostStore, hc]

/-- A store followed by its write-back leaves the byte in memory (R118). -/
theorem hostWriteBack_hostStore (v : Byte) (hc : s.cfg.coherent = false) :
    ∃ cs, hostWriteBack a (hostStore a v s) = { s with mem := s.mem.write a v, cache := cs } := by
  have hf : cacheFind (cacheInsert s.cache ⟨a, v, true⟩) a = some ⟨a, v, true⟩ := cacheFind_insert
  rw [hostStore_cached v hc]
  exact ⟨cacheInsert (cacheInsert s.cache ⟨a, v, true⟩) ⟨a, v, false⟩, by simp [hostWriteBack, hf]⟩

end

/-- Settles O57: each action of the host, by the agent that is running and the platform's coherence. -/
theorem hostStoresReachMemory : Obligations.HostStoresReachMemory := by
  intro s a v hwf
  refine ⟨fun ha act hact => ?_, fun ha => ⟨fun hb => ⟨fun hc => ⟨?_, ?_⟩, fun hc _ => ⟨?_, ?_⟩⟩, fun hb => ⟨?_, ?_⟩⟩⟩
  · simp only [List.mem_cons, List.not_mem_nil, or_false] at hact
    rcases hact with rfl | rfl | rfl | rfl <;> exact memAction_outside ha
  · refine ⟨{ s with mem := s.mem.write a v }, ?_, rfl, Memory.read_write_same a v hwf,
      fun b hba => Memory.read_write_other v hba⟩
    rw [hostAct, memAction_idle ha hb, hostStore_coherent v hc]
  · rw [hostAct, memAction_idle ha hb, hostLoad_coherent hb hc]
  · obtain ⟨cs, hcs⟩ := hostWriteBack_hostStore (a := a) v hc
    refine ⟨hostStore a v s, { s with mem := s.mem.write a v, cache := cs }, memAction_idle ha hb, ?_, ?_, rfl,
      Memory.read_write_same a v hwf, fun b hba => Memory.read_write_other v hba⟩
    · rw [hostStore_cached v hc]
    · rw [hostAct, hcs]
      rw [hostStore_cached v hc]
      exact memAction_idle ha hb
  · exact ⟨hostDiscard a s, _, memAction_idle ha hb, rfl, memAction_idle ha hb,
      hostLoad_uncached hb (cacheFind_drop s.cache a)⟩
  · intro hd
    rw [hostAct, memAction_read ha, hostLoad_busyDest hb hd]; rfl
  · exact fun h => memAction_busyBuffer ha (busyBuffer_of_mem hb h)

end Sys2Proof.Machine

/-! # The codes of a built tree -/

namespace Sys2Proof.Machine

/-! ## Paths from a slot -/

section
variable {t : Tree}

/-- The codes collected under a slot are the branch sequences to its leaves that are shorter than the fuel (R320). -/
theorem mem_pathsFrom {fuel i : Nat} {p q : List Bool} {b : Byte} :
    (b, q) ∈ pathsFrom t fuel i p ↔
      ∃ r c, q = p ++ r ∧ t.follow i r = some (.leaf b c) ∧ r.length < fuel := by
  induction fuel generalizing i p with
  | zero => simp [pathsFrom]
  | succ fuel ih =>
    cases hn : t.node i with
    | leaf b' c' =>
      simp only [pathsFrom, hn, List.mem_singleton, Prod.mk.injEq]
      constructor
      · rintro ⟨rfl, rfl⟩
        exact ⟨[], c', by simp, by rw [Tree.follow, hn], Nat.succ_pos _⟩
      · rintro ⟨r, c, rfl, hf, -⟩
        cases r with
        | nil => rw [Tree.follow, hn] at hf; cases hf; exact ⟨rfl, List.append_nil p⟩
        | cons d r => rw [Tree.follow, hn] at hf; cases hf
    | internal l r c m =>
      simp only [pathsFrom, hn, List.mem_append, ih]
      constructor
      · rintro (⟨r, c, rfl, hf, hlt⟩ | ⟨r, c, rfl, hf, hlt⟩)
        · exact ⟨false :: r, c, by simp, by rw [Tree.follow, hn]; exact hf, Nat.succ_lt_succ hlt⟩
        · exact ⟨true :: r, c, by simp, by rw [Tree.follow, hn]; exact hf, Nat.succ_lt_succ hlt⟩
      · rintro ⟨r, c, rfl, hf, hlt⟩
        cases r with
        | nil => rw [Tree.follow, hn] at hf; cases hf
        | cons d r =>
          rw [Tree.follow, hn] at hf
          cases d
          · exact .inl ⟨r, c, by simp, hf, Nat.lt_of_succ_lt_succ hlt⟩
          · exact .inr ⟨r, c, by simp, hf, Nat.lt_of_succ_lt_succ hlt⟩

/-- The bytes of the leaves under a slot, left to right. -/
def Tree.leafBytes (t : Tree) (fuel i : Nat) : List Byte := (pathsFrom t fuel i []).map Prod.fst

theorem pathsFrom_fst {fuel i : Nat} (p : List Bool) : (pathsFrom t fuel i p).map Prod.fst = t.leafBytes fuel i := by
  unfold Tree.leafBytes
  generalize ([] : List Bool) = q
  induction fuel generalizing i p q with
  | zero => rfl
  | succ fuel ih =>
    cases hn : t.node i with
    | leaf b c => simp [pathsFrom, hn]
    | internal l r c m =>
      simp only [pathsFrom, hn, List.map_append]
      rw [ih (p ++ [false]) (q ++ [false]), ih (p ++ [true]) (q ++ [true])]

theorem Tree.leafBytes_leaf {fuel i : Nat} {b : Byte} {c : Word} (hn : t.node i = .leaf b c) :
    t.leafBytes (fuel + 1) i = [b] := by
  simp [Tree.leafBytes, pathsFrom, hn]

theorem Tree.leafBytes_internal {fuel i : Nat} {l r : BitVec 9} {c : Word} {m : Byte} (hn : t.node i = .internal l r c m) :
    t.leafBytes (fuel + 1) i = t.leafBytes fuel l.toNat ++ t.leafBytes fuel r.toNat := by
  simp only [Tree.leafBytes, pathsFrom, hn, List.map_append]
  rw [pathsFrom_fst, pathsFrom_fst]; rfl

/-- The children of each internal node are at lower slots. -/
def Tree.descends (t : Tree) : Prop :=
  ∀ i l r c m, t.node i = .internal l r c m → l.toNat < i ∧ r.toNat < i

/-- Fuel above a slot's number reaches all leaves under it. -/
theorem Tree.leafBytes_fuel (hd : t.descends) {fuel i : Nat} (hi : i < fuel) :
    t.leafBytes fuel i = t.leafBytes (i + 1) i := by
  suffices H : ∀ fuel i, i < fuel → t.leafBytes (fuel + 1) i = t.leafBytes fuel i by
    induction fuel with
    | zero => omega
    | succ fuel ih =>
      by_cases h : i = fuel
      · rw [h]
      · rw [H fuel i (by omega), ih (by omega)]
  intro fuel
  induction fuel with
  | zero => intro i hi; omega
  | succ fuel ih =>
    intro i hi
    cases hn : t.node i with
    | leaf b c => rw [Tree.leafBytes_leaf hn, Tree.leafBytes_leaf hn]
    | internal l r c m =>
      obtain ⟨hl, hr⟩ := hd i l r c m hn
      rw [Tree.leafBytes_internal hn, Tree.leafBytes_internal hn, ih _ (by omega), ih _ (by omega)]

end

/-! ## The leaves of a built tree -/

/-- A run of the merge loop gathers the leaves under its working set below its last node. -/
theorem MergeRun.leafBytes_perm {t : Tree} (hd : t.descends) {w : List (Nat × Node)} {next : Nat} {ns : List Node}
    (h : MergeRun w next ns) (hw : ∀ p ∈ w, t.node p.1 = p.2 ∧ p.1 < 512)
    (hns : ∀ k (hk : k < ns.length), t.node (next + k) = ns[k]) (hn : next + ns.length ≤ 512) (hne : ns ≠ []) :
    (w.flatMap fun p => t.leafBytes (p.1 + 1) p.1).Perm
      (t.leafBytes (next + ns.length) (next + ns.length - 1)) := by
  induction h with
  | done x next => exact absurd rfl hne
  | @merge w w₁ w₂ a b next ns ha hb _ hrun ih =>
    have hp := extract_two_perm ha hb
    rw [List.length_cons] at hn
    have hnode : t.node next = mergeNodes a b := hns 0 (Nat.succ_pos _)
    obtain ⟨hna, ha512⟩ := hw a (hp.mem_iff.2 (.head _))
    obtain ⟨hnb, hb512⟩ := hw b (hp.mem_iff.2 (.tail _ (.head _)))
    have hla : (BitVec.ofNat 9 a.1).toNat = a.1 := Nat.mod_eq_of_lt ha512
    have hlb : (BitVec.ofNat 9 b.1).toNat = b.1 := Nat.mod_eq_of_lt hb512
    obtain ⟨hlt, hrt⟩ := hd _ _ _ _ _ hnode
    have hmerged : t.leafBytes (next + 1) next = t.leafBytes (a.1 + 1) a.1 ++ t.leafBytes (b.1 + 1) b.1 := by
      rw [Tree.leafBytes_internal hnode, Tree.leafBytes_fuel hd hlt, Tree.leafBytes_fuel hd hrt, hla, hlb]
    have hset : (w.flatMap fun p => t.leafBytes (p.1 + 1) p.1).Perm
        (((next, mergeNodes a b) :: w₂).flatMap fun p => t.leafBytes (p.1 + 1) p.1) := by
      rw [List.flatMap_cons, hmerged]
      have := hp.flatMap_right fun p : Nat × Node => t.leafBytes (p.1 + 1) p.1
      rwa [List.flatMap_cons, List.flatMap_cons, ← List.append_assoc] at this
    by_cases hns0 : ns = []
    · subst hns0
      have hw₂ : w₂ = [] := by
        have := hrun.length
        simpa using this
      subst hw₂
      simpa using hset
    · refine hset.trans ?_
      have := ih (fun p hp' => ?_) (fun k hk => ?_) (by omega) hns0
      · rwa [List.length_cons, show next + (ns.length + 1) = next + 1 + ns.length by omega]
      · rcases List.mem_cons.1 hp' with rfl | hp'
        · exact ⟨hnode, by simp only; omega⟩
        · exact hw p (hp.mem_iff.2 (.tail _ (.tail _ hp')))
      · have := hns (k + 1) (Nat.succ_lt_succ hk)
        rwa [List.getElem_cons_succ, show next + (k + 1) = next + 1 + k by omega] at this

section
variable {ft : FreqTable} {t : Tree}

/-- A slot of a built tree is a leaf exactly below the leaf count (R281, R285). -/
theorem build_node_cases (h : build ft = .ok (some t)) (i : Nat) :
    (i < t.nleaf ∧ ∃ b c, t.node i = .leaf b c) ∨
    (t.nleaf ≤ i ∧ i < 2 * t.nleaf - 1 ∧ ∃ l r c m, t.node i = .internal l r c m ∧ l.toNat < i ∧ r.toNat < i) ∨
    (2 * t.nleaf - 1 ≤ i ∧ t.node i = .leaf 0 0) := by
  have hsize : (FreqTable.entries ft).length = t.nleaf := (build_nleaf h).symm
  rcases Nat.lt_or_ge i t.nleaf with hi | hi
  · exact .inl ⟨hi, _, _, build_leaf h (hsize ▸ hi)⟩
  rcases Nat.lt_or_ge i (2 * t.nleaf - 1) with hi' | hi'
  · obtain ⟨l, r, c, m, hn, hl, hr, -, -⟩ := build_children h hi hi'
    exact .inr (.inl ⟨hi, hi', l, r, c, m, hn, hl, hr⟩)
  · refine .inr (.inr ⟨hi', ?_⟩)
    rw [Tree.node, List.getD_eq_default _ _ (by rw [build_length h]; exact hi')]

theorem build_descends (h : build ft = .ok (some t)) : t.descends := by
  intro i l r c m hn
  rcases build_node_cases h i with ⟨-, _, _, hn'⟩ | ⟨-, -, _, _, _, _, hn', hl, hr⟩ | ⟨-, hn'⟩
  · rw [hn'] at hn; cases hn
  · rw [hn'] at hn; cases hn; exact ⟨hl, hr⟩
  · rw [hn'] at hn; cases hn

/-- The leaves of the table's entries, as the slots the merge loop starts from (R281). -/
theorem build_seed_leafBytes (h : build ft = .ok (some t)) :
    (∀ p ∈ withSlots (seedLeaves ft), t.node p.1 = p.2 ∧ p.1 < 512) ∧
    ((withSlots (seedLeaves ft)).flatMap fun p => t.leafBytes (p.1 + 1) p.1) = (FreqTable.entries ft).map Prod.fst := by
  have hsize := FreqTable.size_le ft
  have hslot : ∀ p ∈ withSlots (seedLeaves ft), p.1 < FreqTable.size ft ∧ (∃ b c, p.2 = .leaf b c) ∧ t.node p.1 = p.2 := by
    intro p hp
    obtain ⟨hlt, hp⟩ := List.getElem?_eq_some_iff.1 (holdsSet_withSlots _ p hp)
    rw [seedLeaves_length] at hlt
    have hleaf : p.2 = .leaf (FreqTable.entries ft)[p.1].1 (FreqTable.entries ft)[p.1].2 :=
      hp.symm.trans (List.getElem_map _)
    exact ⟨hlt, ⟨_, _, hleaf⟩, by rw [build_leaf h hlt, hleaf]⟩
  refine ⟨fun p hp => ⟨(hslot p hp).2.2, by have := (hslot p hp).1; omega⟩, ?_⟩
  have hbytes : ∀ p ∈ withSlots (seedLeaves ft), t.leafBytes (p.1 + 1) p.1 = [p.2.minByte] := by
    intro p hp
    obtain ⟨-, ⟨b, c, hbc⟩, hn⟩ := hslot p hp
    rw [Tree.leafBytes_leaf (hn.trans hbc), hbc]; rfl
  rw [List.flatMap_congr hbytes, ← List.map_eq_flatMap, withSlots, List.map_map]
  calc (seedLeaves ft).zipIdx.map ((fun p : Nat × Node => p.2.minByte) ∘ fun p => (p.2, p.1))
      = ((seedLeaves ft).zipIdx.map Prod.fst).map Node.minByte := by rw [List.map_map]; rfl
    _ = (FreqTable.entries ft).map Prod.fst := by rw [List.zipIdx_map_fst, seedLeaves, List.map_map]; rfl

/-- The codes list the bytes of the table's entries, each once (R322). -/
theorem codes_fst_perm (h : build ft = .ok (some t)) :
    ((codes t).map Prod.fst).Perm ((FreqTable.entries ft).map Prod.fst) := by
  obtain ⟨h1, h256⟩ := build_nleaf_range h
  obtain ⟨hseed, hbytes⟩ := build_seed_leafBytes h
  have hsize : (FreqTable.entries ft).length = t.nleaf := (build_nleaf h).symm
  unfold codes
  split
  · rename_i h1
    obtain ⟨e, he⟩ := List.length_eq_one_iff.1 (hsize.trans h1)
    have hn : t.node 0 = .leaf e.1 e.2 := by
      rw [build_leaf h (j := 0) (by omega)]; simp [he]
    simp [he, hn, Node.minByte]
  · have hlen := build_length h
    have hdrop : (t.nodes.drop t.nleaf).length = t.nleaf - 1 := by rw [List.length_drop]; omega
    have hperm := (build_run_drop h).leafBytes_perm (build_descends h) hseed
      (fun k hk => (Tree.node_drop _ hk).symm) (by omega) (fun h0 => by rw [h0, List.length_nil] at hdrop; omega)
    rw [hbytes, show t.nleaf + (t.nodes.drop t.nleaf).length = t.nodes.length by omega,
      show t.nodes.length - 1 = t.root by rw [Tree.root]; omega] at hperm
    rw [pathsFrom_fst]
    exact hperm.symm

theorem codes_nodup (h : build ft = .ok (some t)) : ((codes t).map Prod.fst).Nodup := by
  refine (codes_fst_perm h).nodup_iff.2 (List.pairwise_map.2 ?_)
  exact (FreqTable.entries_sorted ft).imp fun hlt he => by rw [he] at hlt; omega

end

/-! ## The code of a byte -/

/-- In an association list without a repeated key, looking up is membership. -/
theorem lookup_eq_some_iff_mem {β : Type} {l : List (Byte × β)} (h : (l.map Prod.fst).Nodup) {v : Byte} {x : β} :
    l.lookup v = some x ↔ (v, x) ∈ l := by
  induction l with
  | nil => simp
  | cons e l ih =>
    obtain ⟨w, y⟩ := e
    rw [List.map_cons, List.nodup_cons] at h
    by_cases hv : v = w
    · subst hv
      have : (v, x) ∉ l := fun hm => h.1 (List.mem_map.2 ⟨_, hm, rfl⟩)
      simp [this, eq_comm]
    · simp [List.lookup_cons, beq_eq_false_iff_ne.2 hv, hv, ih h.2]

section
variable {ft : FreqTable} {t : Tree} {b : Byte} {p : List Bool}

theorem codeOf_eq_some_iff (h : build ft = .ok (some t)) : codeOf t b = some p ↔ (b, p) ∈ codes t :=
  lookup_eq_some_iff_mem (codes_nodup h)

/-- Exactly the present bytes have a code (R322). -/
theorem codeOf_isSome (h : build ft = .ok (some t)) : (codeOf t b).isSome = (FreqTable.entry ft b).isSome := by
  rw [Bool.eq_iff_iff, Option.isSome_iff_exists, Option.isSome_iff_exists]
  simp only [codeOf_eq_some_iff h, ← FreqTable.mem_entries]
  have := (codes_fst_perm h).mem_iff (a := b)
  simpa only [List.mem_map, Prod.exists, exists_and_right, exists_eq_right] using this

/-- The branches from a slot to a leaf pass through different internal nodes, so they are no more than those up to it. -/
theorem follow_length (h : build ft = .ok (some t)) {i : Nat} {c : Word} (hf : t.follow i p = some (.leaf b c)) :
    p.length ≤ i + 1 - t.nleaf := by
  induction p generalizing i with
  | nil => exact Nat.zero_le _
  | cons d p ih =>
    rw [Tree.follow] at hf
    rcases build_node_cases h i with ⟨-, _, _, hn⟩ | ⟨hi, -, l, r, _, _, hn, hl, hr⟩ | ⟨-, hn⟩
    · rw [hn] at hf; cases hf
    · rw [hn] at hf
      have := ih hf
      rw [List.length_cons]
      cases d <;> simp only [Bool.false_eq_true, if_false, if_true] at this <;> omega
    · rw [hn] at hf; cases hf

/-- The code of the one byte of a single leaf (R321). -/
theorem codeOf_single (h : build ft = .ok (some t)) (h1 : t.nleaf = 1) :
    codeOf t b = some p ↔ b = (t.node 0).minByte ∧ p = [false] := by
  rw [codeOf_eq_some_iff h, codes, if_pos h1, List.mem_singleton, Prod.mk.injEq]

/-- With two or more leaves a code is the branch sequence from the root to the leaf of its byte (R320). -/
theorem codeOf_eq_follow (h : build ft = .ok (some t)) (h2 : 2 ≤ t.nleaf) :
    codeOf t b = some p ↔ ∃ c, t.follow t.root p = some (.leaf b c) := by
  rw [codeOf_eq_some_iff h, codes, if_neg (by omega), mem_pathsFrom]
  constructor
  · rintro ⟨r, c, rfl, hf, -⟩
    exact ⟨c, hf⟩
  · rintro ⟨c, hf⟩
    refine ⟨p, c, rfl, hf, ?_⟩
    have := follow_length h hf
    rw [build_length h]
    rw [Tree.root] at this
    omega

/-- A code has at least one bit and at most one for each internal node (R322). -/
theorem codeOf_length (h : build ft = .ok (some t)) (hp : codeOf t b = some p) :
    1 ≤ p.length ∧ p.length ≤ max 1 (t.nleaf - 1) := by
  obtain ⟨hpos, -⟩ := build_nleaf_range h
  by_cases h1 : t.nleaf = 1
  · rw [((codeOf_single h h1).1 hp).2]; simp
  · obtain ⟨c, hf⟩ := (codeOf_eq_follow h (by omega)).1 hp
    have := follow_length h hf
    rw [Tree.root] at this
    refine ⟨?_, by omega⟩
    cases p with
    | cons d p => simp
    | nil =>
      rcases build_node_cases h t.root with ⟨hi, -⟩ | ⟨-, -, _, _, _, _, hn, -⟩ | ⟨hi, -⟩
      · rw [Tree.root] at hi; omega
      · rw [Tree.follow, hn] at hf; cases hf
      · rw [Tree.root] at hi; omega

theorem codeOf_length_le (h : build ft = .ok (some t)) (hp : codeOf t b = some p) : p.length ≤ 255 := by
  obtain ⟨-, h256⟩ := build_nleaf_range h
  have := (codeOf_length h hp).2
  omega

end

end Sys2Proof.Machine

/-! # The look-up table of a built tree -/

namespace Sys2Proof.Machine

/-! ## Codes as entries -/

/-- The bits of a sequence as a number. -/
theorem testBit_bitsNat (p : List Bool) (j : Nat) : (bitsNat p).testBit j = p.getD j false := by
  induction p generalizing j with
  | nil => simp [bitsNat]
  | cons b p ih =>
    cases j with
    | zero => cases b <;> simp [bitsNat, Nat.testBit_zero]
    | succ j =>
      have : ((if b then 1 else 0) + 2 * bitsNat p) / 2 = bitsNat p := by split <;> omega
      rw [bitsNat, Nat.testBit_succ, this, ih, List.getD_cons_succ]

section
variable {p : List Bool}

theorem LutEntry.ofCode_len (h : p.length ≤ 255) : (LutEntry.ofCode p).len.toNat = p.length :=
  Nat.mod_eq_of_lt (by omega)

/-- An entry holds its code and zeros after it (R60). -/
theorem LutEntry.ofCode_getLsbD (h : p.length ≤ 255) (j : Nat) : (LutEntry.ofCode p).code.getLsbD j = p.getD j false := by
  rw [LutEntry.ofCode, BitVec.getLsbD_ofNat, testBit_bitsNat]
  by_cases hj : j < 255
  · simp [hj]
  · rw [List.getD_eq_default _ _ (by omega), Bool.and_false]

theorem LutEntry.ofCode_bits (h : p.length ≤ 255) : (LutEntry.ofCode p).bits = p := by
  apply List.ext_getElem
  · simp [LutEntry.bits, LutEntry.ofCode_len h]
  · intro j h1 h2
    simp [LutEntry.bits, LutEntry.ofCode_getLsbD h, h2]

end

/-! ## The table -/

theorem Lut.entry_set (l : Lut) (v w : Byte) (e : LutEntry) :
    Lut.entry (l.set w.toNat e w.isLt) v = if v = w then e else Lut.entry l v := by
  unfold Lut.entry
  rw [Vector.getElem_set]
  simp only [BitVec.toNat_inj, eq_comm]

/-- Setting the entries of an association list without a repeated byte. -/
theorem Lut.entry_foldl_set {cs : List (Byte × List Bool)} (h : (cs.map Prod.fst).Nodup) (l : Lut) (v : Byte) :
    Lut.entry (cs.foldl (fun l p => l.set p.1.toNat (LutEntry.ofCode p.2) p.1.isLt) l) v =
      ((cs.lookup v).map LutEntry.ofCode).getD (Lut.entry l v) := by
  induction cs generalizing l with
  | nil => rfl
  | cons e cs ih =>
    obtain ⟨w, p⟩ := e
    rw [List.map_cons, List.nodup_cons] at h
    rw [List.foldl_cons, ih h.2, Lut.entry_set, List.lookup_cons]
    by_cases hv : v = w
    · subst hv
      have : cs.lookup v = none := Option.eq_none_iff_forall_ne_some.2 fun x hx =>
        h.1 (List.mem_map.2 ⟨_, (lookup_eq_some_iff_mem h.2).1 hx, rfl⟩)
      simp [this]
    · simp [hv, beq_eq_false_iff_ne.2 hv]

section
variable {ft : FreqTable} {t : Tree}

/-- The entry of a byte is its code, or no code (R325). -/
theorem genLut_entry (h : build ft = .ok (some t)) (v : Byte) :
    Lut.entry (genLut t) v = ((codeOf t v).map LutEntry.ofCode).getD LutEntry.absent := by
  rw [genLut, Lut.entry_foldl_set (codes_nodup h)]
  congr 1
  simp [Lut.entry]

/-- The length and the bits of an entry are those of the code, none where there is no code (R60, R325). -/
theorem genLut_code (h : build ft = .ok (some t)) (v : Byte) :
    (Lut.entry (genLut t) v).len.toNat = ((codeOf t v).getD []).length ∧
    (Lut.entry (genLut t) v).bits = (codeOf t v).getD [] := by
  rw [genLut_entry h]
  cases hc : codeOf t v with
  | none => exact ⟨rfl, rfl⟩
  | some p =>
    have hp := codeOf_length_le h hc
    exact ⟨LutEntry.ofCode_len hp, LutEntry.ofCode_bits hp⟩

theorem genLut_len_ne_zero (h : build ft = .ok (some t)) {v : Byte} (hv : (codeOf t v).isSome) :
    (Lut.entry (genLut t) v).len ≠ 0 := by
  obtain ⟨p, hp⟩ := Option.isSome_iff_exists.1 hv
  intro h0
  have hlen := (genLut_code h v).1
  rw [h0, hp] at hlen
  have := (codeOf_length h hp).1
  rw [Option.getD_some] at hlen
  exact absurd hlen (by rw [show (0 : BitVec 8).toNat = 0 from rfl]; omega)

end

/-- A list of numbers is bounded by its maximum, which is in it unless it is empty. -/
theorem foldr_max_spec (ns : List Nat) : (∀ n ∈ ns, n ≤ ns.foldr max 0) ∧ (ns ≠ [] → ns.foldr max 0 ∈ ns) := by
  induction ns with
  | nil => simp
  | cons n ns ih =>
    obtain ⟨hle, hmem⟩ := ih
    rw [List.foldr_cons]
    refine ⟨fun m hm => ?_, fun _ => ?_⟩
    · rcases List.mem_cons.1 hm with rfl | hm
      · exact Nat.le_max_left _ _
      · exact (hle m hm).trans (Nat.le_max_right _ _)
    · by_cases hn : ns.foldr max 0 ≤ n
      · rw [max_eq_left hn]; exact .head _
      · have hne : ns ≠ [] := by rintro rfl; exact hn (Nat.zero_le n)
        rw [max_eq_right (by omega)]; exact .tail _ (hmem hne)

/-- No entry is longer than the longest code, which is the length of some entry (R325). -/
theorem Lut.longest_spec (l : Lut) :
    (∀ v, (Lut.entry l v).len.toNat ≤ Lut.longest l) ∧ ∃ v, (Lut.entry l v).len.toNat = Lut.longest l := by
  have hmem (v : Byte) : (Lut.entry l v).len.toNat ∈ l.toList.map fun e => e.len.toNat :=
    List.mem_map.2 ⟨_, by simp [Lut.entry], rfl⟩
  obtain ⟨hle, hin⟩ := foldr_max_spec (l.toList.map fun e => e.len.toNat)
  rw [Lut.longest, foldl_max_eq_foldr]
  refine ⟨fun v => hle _ (hmem v), ?_⟩
  obtain ⟨e, he, hlen⟩ := List.mem_map.1 (hin (List.ne_nil_of_mem (hmem 0)))
  obtain ⟨i, hi, rfl⟩ := List.getElem_of_mem he
  rw [Vector.length_toList] at hi
  exact ⟨BitVec.ofNat 8 i, by rw [← hlen]; simp [Lut.entry, Nat.mod_eq_of_lt hi]⟩

end Sys2Proof.Machine

/-! # `COMPRESS` -/

namespace Sys2Proof.Machine

/-! ## The counts of a source -/

theorem FreqTable.size_eq_zero_iff {ft : FreqTable} : FreqTable.size ft = 0 ↔ ∀ v, FreqTable.entry ft v = none := by
  simp only [FreqTable.size, List.length_eq_zero_iff, List.eq_nil_iff_forall_not_mem, Prod.forall, FreqTable.mem_entries,
    Option.eq_none_iff_forall_ne_some, ne_eq]

/-- The table of a byte string lists the bytes that occur, each once (R252). -/
theorem FreqTable.entries_ofBytes_perm (bs : List Byte) :
    ((FreqTable.entries (FreqTable.ofBytes bs)).map Prod.fst).Perm bs.dedup := by
  have hnodup : ((FreqTable.entries (FreqTable.ofBytes bs)).map Prod.fst).Nodup :=
    List.pairwise_map.2 ((FreqTable.entries_sorted _).imp fun hlt he => by rw [he] at hlt; omega)
  refine (List.perm_ext_iff_of_nodup hnodup (List.nodup_dedup bs)).2 fun b => ?_
  simp [FreqTable.mem_entries, FreqTable.entry_ofBytes]

/-- The counts of a byte string sum to no more than its length. -/
theorem totalCount_ofBytes_le (bs : List Byte) : totalCount (FreqTable.ofBytes bs) ≤ bs.length := by
  have hcount : ∀ e ∈ FreqTable.entries (FreqTable.ofBytes bs), e.2.toNat ≤ bs.count e.1 := by
    rintro ⟨b, c⟩ he
    rw [FreqTable.mem_entries, FreqTable.entry_ofBytes] at he
    split at he
    · injection he with he; subst he; exact Nat.mod_le _ _
    · cases he
  calc totalCount (FreqTable.ofBytes bs)
      ≤ ((FreqTable.entries (FreqTable.ofBytes bs)).map fun e => bs.count e.1).sum := List.sum_le_sum hcount
    _ = (((FreqTable.entries (FreqTable.ofBytes bs)).map Prod.fst).map fun b => bs.count b).sum := by
        rw [List.map_map]; rfl
    _ = (bs.dedup.map fun b => bs.count b).sum := ((FreqTable.entries_ofBytes_perm bs).map _).sum_eq
    _ = bs.length := List.sum_map_count_dedup_eq_length bs

/-- A non-empty byte string has a tree (R288). -/
theorem build_ofBytes {bs : List Byte} (hne : bs ≠ []) (hlen : bs.length < 2 ^ 64) :
    ∃ t, build (FreqTable.ofBytes bs) = .ok (some t) := by
  obtain ⟨b, bs', rfl⟩ := List.exists_cons_of_ne_nil hne
  have hsize : FreqTable.size (FreqTable.ofBytes (b :: bs')) ≠ 0 := by
    rw [ne_eq, FreqTable.size_eq_zero_iff]
    intro h
    have := h b
    rw [FreqTable.entry_ofBytes, if_pos (.head _)] at this
    cases this
  obtain ⟨t, ht, -⟩ := build_fits hsize ((totalCount_ofBytes_le _).trans_lt hlen)
  exact ⟨t, ht⟩

/-- Counting ends at the first source byte that cannot be read (R103, R252). -/
theorem freqCountBody_hole {s : State} {k : Nat} (hk : k < s.ops.srcLen.toNat) (h : sourceReadableTo s k)
    (he : Config.memOK s.cfg (s.ops.srcAddr.toNat + k) = false) :
    freqCountBody s = .error ⟨.memFault, word (s.ops.srcAddr.toNat + k)⟩ := by
  have hpre := forSrc_readableTo h (fun _ v t => .ok (FreqTable.bump t v)) FreqTable.empty
  rw [overBytes_bump] at hpre
  rw [freqCountBody, forSrc_stops hk hpre (.inl (srcByte_hole he)), error_bind]

/-! ## The payload encoder -/

theorem appendBits_append (c : Config) (ts us : List Bool) (b : BitBuffer) :
    appendBits c (ts ++ us) b = (appendBits c ts b >>= appendBits c us) := by
  induction ts generalizing b with
  | nil => rfl
  | cons t ts ih =>
    simp only [List.cons_append, appendBits]
    cases appendBit c t b with
    | error e => rfl
    | ok b' => exact ih b'

/-- A bit sequence that does not fit ends with `BB_OVERFLOW` (R211). -/
theorem appendBits_overflow {c : Config} {ts : List Bool} {b : BitBuffer} (hb : b.n ≤ 8 * c.capBytes)
    (h : 8 * c.capBytes < b.n + ts.length) : appendBits c ts b = .error ⟨.bbOverflow, word (8 * c.capBytes)⟩ := by
  induction ts generalizing b with
  | nil => simp only [List.length_nil] at h; omega
  | cons t ts ih =>
    rw [List.length_cons] at h
    rw [appendBits]
    by_cases hfull : 8 * c.capBytes ≤ b.n
    · rw [appendBit, if_pos hfull, error_bind]
    · rw [appendBit_room (by omega), ok_bind]
      exact ih (by rw [BitBuffer.push_n]; omega) (by rw [BitBuffer.push_n]; omega)

/-- The encoder over bytes that all have a code appends their codes (R450). -/
theorem overBytes_encodeByte {c : Config} {l : Lut} {bs : List Byte} (h : ∀ v ∈ bs, (Lut.entry l v).len ≠ 0) (i : Nat)
    (b : BitBuffer) :
    overBytes (encodeByte c l) i bs b = appendBits c (bs.flatMap fun v => (Lut.entry l v).bits) b := by
  induction bs generalizing i b with
  | nil => rfl
  | cons v bs ih =>
    rw [List.flatMap_cons, appendBits_append, overBytes, encodeByte, if_neg (h v (.head _))]
    congr 1
    funext b'
    exact ih (fun w hw => h w (.tail _ hw)) (i + 1) b'

/-- The encoder with the look-up table of a built tree appends the payload of a source whose bytes are all in the tree
(R450). -/
theorem encodeBody_genLut {s s' : State} {ft : FreqTable} {t : Tree} (h : build ft = .ok (some t))
    (hl : s'.lut = some (genLut t)) (hc : s'.cfg = s.cfg) (ho : s'.ops = s.ops) (hm : s'.mem = s.mem)
    (hr : sourceReadable s) (hcode : ∀ v ∈ sourceBytes s, (codeOf t v).isSome) :
    encodeBody s' = (do
      let b ← appendBits s.cfg (payloadBits t (sourceBytes s)) .empty
      .ok ((s'.setBb (some b)).setResult0 (word b.n))) := by
  have hbits : ((sourceBytes s).flatMap fun v => (Lut.entry (genLut t) v).bits) = payloadBits t (sourceBytes s) :=
    List.flatMap_congr fun v _ => (genLut_code h v).2
  have hr' : sourceReadable s' := by rw [sourceReadable, hc, ho]; exact hr
  have henc := overBytes_encodeByte (c := s.cfg) (fun v hv => genLut_len_ne_zero h (hcode v hv)) 0 .empty
  rw [encodeBody, hl, require_some, ok_bind, forSrc_readable hr' _ _ (by omega), Nat.add_zero, hc, ho, hm, ← hbits, ← henc]
  rfl

/-! ## The parts of an entry point -/

section
variable {s : State} {ft : FreqTable} {t : Tree}

theorem treeBuildBody_some (hft : s.ft = some ft) (h : build ft = .ok (some t)) :
    treeBuildBody s = .ok ((s.setTree (some t)).setResults (word t.nleaf) (word t.root)) := by
  simp [treeBuildBody, hft, h]

theorem treeBuildBody_none (hft : s.ft = some ft) (h : build ft = .ok none) :
    treeBuildBody s = .ok ((s.setTree none).setResults 0 0) := by
  simp [treeBuildBody, hft, h]

theorem encmapGenBody_some (ht : s.tree = some t) :
    encmapGenBody s = .ok ((s.setLut (some (genLut t))).setResults (word t.nleaf) (word (Lut.longest (genLut t)))) := by
  simp [encmapGenBody, ht]

theorem ctSerializeBody_some {b : BitBuffer} (hft : s.ft = some ft) (hb : s.bb = some b) :
    ctSerializeBody s = emit s (containerBytes ft b) := by
  simp [ctSerializeBody, hft, hb]

/-- What an emission writes depends on the parameters and the operands alone. -/
theorem dstPuts_congr {s' : State} (hc : s'.cfg = s.cfg) (ho : s'.ops = s.ops) (vs : List Byte) (o : Output) :
    dstPuts s' vs o = dstPuts s vs o := by
  induction vs generalizing o with
  | nil => rfl
  | cons v vs ih =>
    have hput : dstPut s' v o = dstPut s v o := by rw [dstPut, dstPut, hc, ho]
    rw [dstPuts, dstPuts, hput]
    exact congrArg _ (funext ih)

/-- The states of two emissions of the same bytes from states that agree on the parameters, operands and memory. -/
theorem emit_bind_congr {s' : State} (hc : s'.cfg = s.cfg) (ho : s'.ops = s.ops) (hm : s'.mem = s.mem) (vs : List Byte)
    {g g' : State → Except CmdError State} (hg : ∀ o, g' (s'.withOutput o) = g (s.withOutput o)) :
    (emit s' vs >>= g') = (emit s vs >>= g) := by
  simp only [emit, bind_assoc, ok_bind, dstPuts_congr hc ho, hm, hg]

end

/-! ## The entry point -/

/-- The state in which `COMPRESS` serializes, with its results: the table and tree of the source, its look-up table and
payload (R470). -/
def State.compressed (s : State) (ft : FreqTable) (t : Tree) (b : BitBuffer) : State :=
  { s with
    ft := some ft, tree := some t, lut := some (genLut t), fsm := none, bb := some b
    res := { s.res with result0 := word b.n, result1 := word (Lut.longest (genLut t)) } }

/-- `COMPRESS` of a readable source with a built tree: the encoder, then the serializer (R470). -/
theorem compressBody_readable {s : State} {t : Tree} (hr : sourceReadable s)
    (h : build (FreqTable.ofBytes (sourceBytes s)) = .ok (some t)) :
    compressBody s = (do
      let b ← appendBits s.cfg (payloadBits t (sourceBytes s)) .empty
      emit (s.compressed (FreqTable.ofBytes (sourceBytes s)) t b)
        (containerBytes (FreqTable.ofBytes (sourceBytes s)) b)) := by
  have hcode : ∀ v ∈ sourceBytes s, (codeOf t v).isSome := fun v hv => by
    rw [codeOf_isSome h, FreqTable.entry_ofBytes, if_pos hv]; rfl
  rw [compressBody, freqCountBody_readable hr, ok_bind, treeBuildBody_some rfl h, ok_bind]
  simp only [State.setFt, State.setResult0, State.setTree, State.setResults]
  rw [encmapGenBody_some rfl, ok_bind, encodeBody_genLut h rfl ?_ ?_ ?_ hr hcode, bind_assoc]
  · refine congrArg _ (funext fun b => ?_)
    simp only [State.setLut, State.setBb, State.setResult0, State.setResults]
    rw [ok_bind, ctSerializeBody_some rfl rfl, ← bind_pure (emit (s.compressed _ t b) _)]
    refine emit_bind_congr ?_ ?_ ?_ _ fun o => ?_ <;> rfl
  all_goals rfl

/-- The buffers of `COMPRESS` and `DECOMPRESS` pass their checks (R102, R109). -/
theorem checkBuffers_disjoint (i : Instr) {s : State} (hs : regionOk s.cfg s.ops.srcAddr s.ops.srcLen = true)
    (hd : regionOk s.cfg s.ops.dstAddr s.ops.dstCap = true) (h : disjointBuffers s) : checkBuffers i s = .ok () :=
  checkBuffers_eq_ok.2 ⟨fun _ => hs, fun _ => hd, fun _ _ => disjoint_iff.2 h⟩

/-- `COMPRESS` of an empty source counts nothing and stops after the tree (R470). -/
theorem compressBody_empty {s : State} (h : s.ops.srcLen = 0) :
    compressBody s = .ok { s with
      ft := some FreqTable.empty, tree := none, lut := none, fsm := none
      res := { s.res with outLen := 0, result0 := 0, result1 := 0 } } := by
  have hlen : s.ops.srcLen.toNat = 0 := by rw [h]; rfl
  have hb : build FreqTable.empty = .ok none := build_empty (FreqTable.size_eq_zero_iff.2 FreqTable.entry_empty)
  have hc : freqCountBody s = .ok ((s.setFt (some FreqTable.empty)).setResult0 (word (FreqTable.size FreqTable.empty))) := by
    rw [freqCountBody, hlen]; rfl
  rw [compressBody, hc, ok_bind, treeBuildBody_none rfl hb, ok_bind]
  simp only [State.setFt, State.setResult0, State.setTree, State.setResults, State.emptyOutput, State.setOutLen]

/-- Settles O45: the counts have a tree, whose codes the encoder appends, and the serializer's emission ends as every
emission does. -/
theorem compressWritesTheContainer : Obligations.CompressWritesTheContainer := by
  intro s hsrc hdst hdis hwf
  have hcheck := checkBuffers_disjoint .compress hsrc hdst hdis
  have hbody : body .compress s = compressBody s := by rw [body, hcheck, ok_bind]
  refine ⟨fun h0 => ?_, fun k hk hto he => ?_, fun h0 hr => ?_⟩
  · rw [exec_of_body (hbody.trans (compressBody_empty h0))]; rfl
  · refine endsWith_of_body (hbody.trans ?_)
    rw [compressBody, freqCountBody_hole hk hto he, error_bind]
  · have hlen := sourceBytes_length s
    obtain ⟨t, ht⟩ := build_ofBytes (bs := sourceBytes s)
      (List.ne_nil_of_length_pos (by rw [hlen]; exact Nat.pos_of_ne_zero fun h => h0 (BitVec.eq_of_toNat_eq h)))
      (by rw [hlen]; exact s.ops.srcLen.isLt)
    have hbody := hbody.trans (compressBody_readable hr ht)
    refine ⟨_, t, ht, FreqTable.entry_ofBytes _, fun hover => endsWith_of_body ?_, fun hfit => ?_⟩
    · rw [hbody, appendBits_overflow (Nat.zero_le _) (by rw [show BitBuffer.empty.n = 0 from rfl]; omega), error_bind]
    obtain ⟨b, happ, hbits, -⟩ := appendBits_room BitBuffer.empty_shaped
      (show 0 + (payloadBits t (sourceBytes s)).length ≤ 8 * s.cfg.capBytes by omega)
    have hlegal := appendBits_legal happ (BitBuffer.empty_legal s.cfg)
    rw [happ, ok_bind, containerBytes_eq hlegal.2] at hbody
    refine ⟨b, hbits, hlegal, fun hw => ?_, fun hcap hto => ?_, fun k hk hcap hto he => ?_⟩
    · obtain ⟨u, hu⟩ := emit_writable (s := s.compressed (FreqTable.ofBytes (sourceBytes s)) t b) hw
      obtain ⟨hu', -, hwrote⟩ := emit_ok hu hwf
      obtain ⟨hle, v, hv⟩ := Lut.longest_spec (genLut t)
      refine ⟨_, genLut t, Lut.longest (genLut t), exec_of_body (hbody.trans hu), hwrote, fun v => ?_, ⟨v, ?_⟩, ?_⟩
      · exact ⟨(genLut_code ht v).2, (genLut_code ht v).1 ▸ hle v⟩
      · rw [← hv, (genLut_code ht v).1]
      · rw [hu']; rfl
    · exact endsWith_of_body (hbody.trans (emit_overflow hcap hto))
    · exact endsWith_of_body (hbody.trans (emit_hole hk hcap hto he))

end Sys2Proof.Machine

/-! # Written containers are well formed, and well-formed containers are loaded -/

namespace Sys2Proof.Machine

/-! ## Byte strings by position -/

theorem getD_of_drop {c rest : List Byte} {k : Nat} {x : Byte} (h : c.drop k = x :: rest) : c.getD k 0 = x := by
  have := congrArg (fun l => l[0]?) h
  simp only [List.getElem?_drop, Nat.add_zero, List.getElem?_cons_zero] at this
  rw [List.getD_eq_getElem?_getD, this]; rfl

/-- Records of one length, from record `j` on. -/
theorem drop_flatMap_records {α : Type} {g : α → List Byte} {m : Nat} (hg : ∀ e, (g e).length = m) (es : List α) (j : Nat) :
    (es.flatMap g).drop (j * m) = (es.drop j).flatMap g := by
  induction j generalizing es with
  | zero => simp
  | succ j ih =>
    cases es with
    | nil => simp
    | cons e es =>
      rw [List.flatMap_cons, Nat.succ_mul, Nat.add_comm, ← List.drop_drop, List.drop_left' (hg e), ih, List.drop_succ_cons]

/-! ## The fields of a written container -/

section
variable (ft : FreqTable) (b : BitBuffer)

/-- The entries of a written container, one record each (R404). -/
def entryRecord (w : Nat) (e : Byte × Word) : List Byte := e.1 :: packBytes e.2 w

theorem entryRecord_length (w : Nat) (e : Byte × Word) : (entryRecord w e).length = 1 + w := by
  simp [entryRecord]; omega

/-- The bytes of a written container after its table section (R405). -/
def bitsSection : List Byte :=
  BitVec.ofNat 8 (minWidth (word b.n)) :: (packBytes (word b.n) (minWidth (word b.n)) ++ b.st)

/-- The table length of a written container (R402). -/
def writtenLength : Nat := 1 + FreqTable.size ft * (1 + entryWidth (FreqTable.entries ft))

theorem containerOf_eq :
    containerOf ft b = packBytes (word (writtenLength ft)) 2 ++
      (BitVec.ofNat 8 (entryWidth (FreqTable.entries ft)) ::
        ((FreqTable.entries ft).flatMap (entryRecord (entryWidth (FreqTable.entries ft))) ++ bitsSection b)) := by
  have hw : entryWidth (FreqTable.entries ft) = ((FreqTable.entries ft).map fun e => minWidth e.2).foldr max 1 := by
    rw [entryWidth, foldl_max_eq_foldr]
  rw [hw, writtenLength, hw, containerOf, bitsSection]
  simp only [List.append_assoc, List.cons_append, List.nil_append]
  rfl

theorem writtenLength_range : 1 ≤ writtenLength ft ∧ writtenLength ft < 2 ^ 16 := by
  have hsize := FreqTable.size_le ft
  have hw := (entryWidth_le (FreqTable.entries ft)).2
  have := Nat.mul_le_mul hsize (show 1 + entryWidth (FreqTable.entries ft) ≤ 9 by omega)
  unfold writtenLength
  omega

theorem tableLength_containerOf : tableLength (containerOf ft b) = writtenLength ft := by
  have := (writtenLength_range ft).2
  rw [tableLength, containerOf_eq, List.take_left' (packBytes_length _ _), leNat_packBytes, word, BitVec.toNat_ofNat,
    Nat.mod_mod_of_dvd _ (by decide), Nat.mod_eq_of_lt this]

theorem containerOf_drop_table :
    (containerOf ft b).drop 2 = BitVec.ofNat 8 (entryWidth (FreqTable.entries ft)) ::
      ((FreqTable.entries ft).flatMap (entryRecord (entryWidth (FreqTable.entries ft))) ++ bitsSection b) := by
  rw [containerOf_eq, List.drop_left' (packBytes_length _ _)]

theorem countWidth_containerOf : countWidth (containerOf ft b) = entryWidth (FreqTable.entries ft) := by
  have := (entryWidth_le (FreqTable.entries ft)).2
  rw [countWidth, getD_of_drop (containerOf_drop_table ft b), BitVec.toNat_ofNat, Nat.mod_eq_of_lt (by omega)]

theorem entryCount_containerOf : entryCount (containerOf ft b) = FreqTable.size ft := by
  rw [entryCount, tableLength_containerOf, countWidth_containerOf, writtenLength, Nat.add_sub_cancel_left,
    Nat.mul_div_cancel _ (by omega)]

/-- From the record of entry `j` on. -/
theorem containerOf_drop_entry (j : Nat) (hj : j ≤ FreqTable.size ft) :
    (containerOf ft b).drop (entryOffset (containerOf ft b) j) =
      ((FreqTable.entries ft).drop j).flatMap (entryRecord (entryWidth (FreqTable.entries ft))) ++ bitsSection b := by
  have hrec := drop_flatMap_records (entryRecord_length (entryWidth (FreqTable.entries ft))) (FreqTable.entries ft) j
  rw [entryOffset, ← List.drop_drop, containerOf_drop_table, Nat.add_comm 1, List.drop_succ_cons, countWidth_containerOf,
    List.drop_append_of_le_length, hrec]
  rw [List.length_flatMap, List.map_congr_left fun e _ => entryRecord_length _ e, List.map_const', List.sum_replicate]
  exact Nat.mul_le_mul_right _ hj

/-- The byte value and the count of entry `j` are those of the table's entry (R404). -/
theorem entry_containerOf {j : Nat} (hj : j < (FreqTable.entries ft).length) :
    entryByte (containerOf ft b) j = (FreqTable.entries ft)[j].1 ∧
    word (entryValue (containerOf ft b) j) = (FreqTable.entries ft)[j].2 := by
  have hdrop := containerOf_drop_entry ft b j (Nat.le_of_lt hj)
  rw [List.drop_eq_getElem_cons hj, List.flatMap_cons, entryRecord, List.append_assoc, List.cons_append] at hdrop
  refine ⟨getD_of_drop hdrop, ?_⟩
  have hle : 8 * minWidth (FreqTable.entries ft)[j].2 ≤ 8 * entryWidth (FreqTable.entries ft) :=
    Nat.mul_le_mul_left 8 (minWidth_le_entryWidth (List.getElem_mem hj))
  have hfit : (FreqTable.entries ft)[j].2.toNat < 2 ^ (8 * entryWidth (FreqTable.entries ft)) :=
    (minWidth_spec _).2.2.1.trans_le (Nat.pow_le_pow_right (by decide) hle)
  rw [entryValue, countWidth_containerOf, ← List.drop_drop, hdrop, List.drop_one, List.tail_cons,
    List.take_left' (packBytes_length _ _), leNat_packBytes, Nat.mod_eq_of_lt hfit, word, BitVec.ofNat_toNat,
    BitVec.setWidth_eq]

theorem containerOf_drop_bits : (containerOf ft b).drop (2 + tableLength (containerOf ft b)) = bitsSection b := by
  have h := containerOf_drop_entry ft b (FreqTable.size ft) (Nat.le_refl _)
  rw [FreqTable.size, List.drop_length, List.flatMap_nil, List.nil_append] at h
  rw [← h, entryOffset, countWidth_containerOf, tableLength_containerOf]; rfl

theorem bitCountWidth_containerOf : bitCountWidth (containerOf ft b) = minWidth (word b.n) := by
  have := (minWidth_spec (word b.n)).2.1
  rw [bitCountWidth, getD_of_drop (containerOf_drop_bits ft b), BitVec.toNat_ofNat, Nat.mod_eq_of_lt (by omega)]

theorem containerOf_drop_count :
    (containerOf ft b).drop (3 + tableLength (containerOf ft b)) = packBytes (word b.n) (minWidth (word b.n)) ++ b.st := by
  rw [show 3 + tableLength (containerOf ft b) = 2 + tableLength (containerOf ft b) + 1 by omega, ← List.drop_drop,
    containerOf_drop_bits]
  rfl

theorem bitCount_containerOf (hn : b.n < 2 ^ 64) : bitCount (containerOf ft b) = b.n := by
  have hw : (word b.n).toNat = b.n := Nat.mod_eq_of_lt hn
  rw [bitCount, containerOf_drop_count, bitCountWidth_containerOf, List.take_left' (packBytes_length _ _), leNat_packBytes,
    Nat.mod_eq_of_lt (minWidth_spec _).2.2.1, hw]

theorem containerOf_drop_payload : (containerOf ft b).drop (payloadOffset (containerOf ft b)) = b.st := by
  rw [payloadOffset, ← List.drop_drop, containerOf_drop_count, bitCountWidth_containerOf,
    List.drop_left' (packBytes_length _ _)]

theorem containerOf_length :
    (containerOf ft b).length = payloadOffset (containerOf ft b) + b.st.length := by
  have h := congrArg List.length (containerOf_drop_count ft b)
  have hw := (minWidth_spec (word b.n)).1
  rw [List.length_drop, List.length_append, packBytes_length] at h
  rw [payloadOffset, bitCountWidth_containerOf]
  omega

end

theorem BitBuffer.getBit_of_lt {b : BitBuffer} {i : Nat} (h : i < b.n) :
    b.getBit i = some ((b.st.getD (i / 8) 0).getLsbD (i % 8)) := by
  rw [BitBuffer.getBit, if_neg (Nat.not_le.2 h)]

/-- The container of a table and a bit buffer is a well-formed container of them (R410). -/
theorem holdsContainer_containerOf (ft : FreqTable) {b : BitBuffer} (hb : b.shaped) (hn : b.n < 2 ^ 64) :
    holdsContainer (containerOf ft b) ft b := by
  have hlen := containerOf_length ft b
  have hcount := entryCount_containerOf ft b
  have hbits := bitCount_containerOf ft b hn
  have hL := tableLength_containerOf ft b
  have hpos := (writtenLength_range ft).1
  have hsw := bitCountWidth_containerOf ft b
  have hsw8 := (minWidth_spec (word b.n)).2.1
  have hoff : payloadOffset (containerOf ft b) = 3 + tableLength (containerOf ft b) + bitCountWidth (containerOf ft b) := rfl
  have hmod : (tableLength (containerOf ft b) - 1) % (1 + countWidth (containerOf ft b)) = 0 := by
    rw [hL, countWidth_containerOf, writtenLength, Nat.add_sub_cancel_left, Nat.mul_mod_left]
  have hdistinct : entriesDistinct (containerOf ft b) (entryCount (containerOf ft b)) := by
    intro j hj i hi he
    rw [hcount] at hj
    rw [(entry_containerOf ft b (hi.trans hj)).1, (entry_containerOf ft b hj).1] at he
    have := List.pairwise_iff_getElem.1 (FreqTable.entries_sorted ft) i j (hi.trans hj) hj hi
    rw [he] at this
    omega
  refine ⟨⟨⟨by omega, ⟨by omega, by omega, ?_, hmod⟩, hdistinct⟩, by omega, by omega, by omega⟩, ?_, fun v n => ?_,
    hbits.symm, fun i hi => ?_⟩
  · rw [countWidth_containerOf]; exact (entryWidth_le _).2
  · rw [hbits, hlen, hb.1]; rfl
  · rw [← FreqTable.mem_entries, hcount]
    constructor
    · intro hm
      obtain ⟨j, hj, he⟩ := List.getElem_of_mem hm
      exact ⟨j, hj, by rw [(entry_containerOf ft b hj).1, he], by rw [(entry_containerOf ft b hj).2, he]⟩
    · rintro ⟨j, hj, hv, hn⟩
      rw [(entry_containerOf ft b hj).1] at hv
      rw [(entry_containerOf ft b hj).2] at hn
      exact hv ▸ hn ▸ List.getElem_mem hj
  · rw [BitBuffer.getBit_of_lt (hbits ▸ hi)]
    congr 2
    rw [List.getD_eq_getElem?_getD, List.getD_eq_getElem?_getD, ← List.getElem?_drop, containerOf_drop_payload]

/-! ## Loading -/

/-- Clearing the pad bits changes no bit below the bit count (R426). -/
theorem getBit_clearPad {nb : Nat} {st : List Byte} (h : st.length = ceil8 nb) {i : Nat} (hi : i < nb) :
    BitBuffer.getBit { n := nb, st := clearPad nb st } i = some ((st.getD (i / 8) 0).getLsbD (i % 8)) := by
  rw [BitBuffer.getBit_of_lt hi]
  simp only [clearPad]
  split
  · rfl
  · rename_i hr
    have hc : ceil8 nb - 1 = nb / 8 := by unfold ceil8; omega
    have hq : nb / 8 ≤ st.length := by rw [h]; unfold ceil8; omega
    rw [hc, setByte_getD _ hq]
    split
    · rename_i he
      rw [BitVec.getLsbD_and, BitVec.getLsbD_ofNat, Nat.testBit_two_pow_sub_one, he]
      have hlt : i % 8 < nb % 8 := by omega
      have hlt8 : i % 8 < 8 := by omega
      simp [hlt, hlt8]
    · rfl

/-- A bit buffer in the form of R70 and R71 is given by its bits. -/
theorem BitBuffer.eq_of_getBit {b b' : BitBuffer} (hb : b.shaped) (hb' : b'.shaped) (hn : b.n = b'.n)
    (h : ∀ i < b.n, b.getBit i = b'.getBit i) : b = b' := by
  have hpad : ∀ {b : BitBuffer}, b.shaped → ∀ k j, j < 8 → b.n ≤ 8 * k + j → (b.st.getD k 0).getLsbD j = false := by
    intro b hb k j hj hle
    by_cases hk : k < b.st.length
    · rw [hb.1] at hk
      have hk' : b.n / 8 = k ∧ b.n % 8 ≠ 0 ∧ b.n % 8 ≤ j := by unfold ceil8 at hk; omega
      have := congrArg (fun x => x.getLsbD (j - b.n % 8)) (hb.2 hk'.2.1)
      simpa [hk'.1, Nat.add_sub_cancel' hk'.2.2] using this
    · rw [List.getD_eq_default _ _ (Nat.not_lt.1 hk)]; simp
  have hst : b.st = b'.st := by
    apply List.ext_getElem (by rw [hb.1, hb'.1, hn])
    intro k h1 h2
    have hbit : ∀ j < 8, (b.st.getD k 0).getLsbD j = (b'.st.getD k 0).getLsbD j := by
      intro j hj
      by_cases hlt : 8 * k + j < b.n
      · have := h _ hlt
        rw [BitBuffer.getBit_of_lt hlt, BitBuffer.getBit_of_lt (hn ▸ hlt)] at this
        simpa [show (8 * k + j) / 8 = k by omega, show (8 * k + j) % 8 = j by omega] using this
      · rw [hpad hb k j hj (by omega), hpad hb' k j hj (by omega)]
    rw [List.getD_eq_getElem _ _ h1, List.getD_eq_getElem _ _ h2] at hbit
    exact BitVec.eq_of_getLsbD_eq hbit
  obtain ⟨n, st⟩ := b
  exact congr (congrArg BitBuffer.mk hn) hst

/-- A readable source that is a well-formed container of a table and a legal bit buffer loads as them (R420, R426, R427). -/
theorem deserialize_holdsContainer {s : State} {ft : FreqTable} {b : BitBuffer} (hr : sourceReadable s)
    (hb : b.legal s.cfg) (h : holdsContainer (sourceBytes s) ft b) : deserialize s = .ok (ft, b) := by
  obtain ⟨⟨htab, h3, h8, hoff⟩, hend, hft, hn, hbit⟩ := h
  generalize hc : sourceBytes s = c at *
  have hlen : c.length = s.ops.srcLen.toNat := hc ▸ sourceBytes_length s
  have hto {k : Nat} (hk : k ≤ c.length) : sourceReadableTo s k := fun j hj => hr.2 j (by omega)
  obtain ⟨u, hu, hentries⟩ := readTable_readable htab
  have hu' : u = ft := FreqTable.ext_entry fun v => Option.ext fun n => by rw [hentries, hft]
  have hcap : ceil8 (bitCount c) ≤ s.cfg.capBytes := by
    have := hb.1
    rw [hn] at this
    unfold ceil8; omega
  have hend' : payloadOffset c + ceil8 (bitCount c) = c.length := hend
  have hstl : ((c.drop (payloadOffset c)).take (ceil8 (bitCount c))).length = ceil8 (bitCount c) := by
    rw [List.length_take, List.length_drop]; omega
  have hload : (⟨bitCount c, clearPad (bitCount c) ((c.drop (payloadOffset c)).take (ceil8 (bitCount c)))⟩ : BitBuffer) = b := by
    refine BitBuffer.eq_of_getBit (clearPad_shaped hstl) hb.2 hn.symm fun i hi => ?_
    have hi : i < bitCount c := hi
    rw [getBit_clearPad hstl hi, hbit i hi]
    congr 2
    rw [List.getD_eq_getElem?_getD, List.getD_eq_getElem?_getD, ← List.getElem?_drop, List.getElem?_take, if_pos]
    unfold ceil8; omega
  rw [deserialize_section hc (hto htab.2.1.1) htab.2.1.1, hu, ok_bind,
    deserializePayload_header hc (hto hoff) h3 h8 hoff, room_fits (by rw [hc]; omega), ok_bind]
  have htake : takeSrc s (payloadOffset c) (ceil8 (bitCount c)) =
      .ok ((c.drop (payloadOffset c)).take (ceil8 (bitCount c))) := by
    have := takeSrc_readableTo (s := s) (c := payloadOffset c) (k := ceil8 (bitCount c)) (hto (by omega)) (by rw [hc]; omega)
    rwa [hc] at this
  simp only [check, hend', hcap, decide_true, if_true, ok_bind, htake, hload, hu']

end Sys2Proof.Machine

/-! # The decoder's machine -/

namespace Sys2Proof.Machine

/-! ## Runs -/

section
variable (f : Fsm)

@[simp] theorem Fsm.run_nil (q : Option Nat) : Fsm.run f q [] = (q, []) := by cases q <;> rfl

@[simp] theorem Fsm.run_none (ts : List Bool) : Fsm.run f none ts = (none, []) := by cases ts <;> rfl

/-- A run on two sequences is the run on the first and then, from the state it ends in, on the second. -/
theorem Fsm.run_append (q : Option Nat) (ts us : List Bool) :
    Fsm.run f q (ts ++ us) =
      ((Fsm.run f (Fsm.run f q ts).1 us).1, (Fsm.run f q ts).2 ++ (Fsm.run f (Fsm.run f q ts).1 us).2) := by
  induction ts generalizing q with
  | nil => simp
  | cons t ts ih =>
    cases q with
    | none => simp
    | some q =>
      rw [List.cons_append, Fsm.run, Fsm.run]
      cases f.entry q t with
      | emit v => simp only [ih, List.cons_append]
      | goto j => exact ih _
      | dead => simp

/-- What a run puts out begins with what it has put out after `k` bits. -/
theorem Fsm.run_take_prefix (q : Option Nat) (ts : List Bool) (k : Nat) :
    (Fsm.run f q (ts.take k)).2 <+: (Fsm.run f q ts).2 := by
  conv_rhs => rw [← List.take_append_drop k ts, Fsm.run_append]
  exact List.prefix_append _ _

/-- `first` is the number of bits up to the last output of a run (R460). -/
def Fsm.lastOutput (q : Option Nat) (ts : List Bool) (first : Nat) : Prop :=
  (Fsm.run f q (ts.take first)).2 = (Fsm.run f q ts).2 ∧
    ∀ k < first, (Fsm.run f q (ts.take k)).2.length < (Fsm.run f q ts).2.length

theorem Fsm.lastOutput_exists (q : Option Nat) (ts : List Bool) : ∃ first, f.lastOutput q ts first := by
  classical
  have hex : ∃ k, (Fsm.run f q (ts.take k)).2 = (Fsm.run f q ts).2 := ⟨ts.length, by rw [List.take_length]⟩
  refine ⟨Nat.find hex, Nat.find_spec hex, fun k hk => ?_⟩
  have hp := Fsm.run_take_prefix f q ts k
  exact lt_of_le_of_ne hp.length_le fun he => Nat.find_min hex hk (hp.eq_of_length he)

variable {f}

/-- A run that puts out nothing has its last output before the first bit. -/
theorem Fsm.lastOutput.eq_zero {q : Option Nat} {ts : List Bool} {first : Nat} (h : f.lastOutput q ts first)
    (h0 : (Fsm.run f q ts).2 = []) : first = 0 := by
  by_contra hne
  have := h.2 0 (Nat.pos_of_ne_zero hne)
  rw [h0] at this
  exact Nat.not_lt_zero _ this

/-- After a bit that puts out a byte, the last output is that bit or a later one. -/
theorem Fsm.lastOutput.of_emit {q : Nat} {t : Bool} {v : Byte} {ts : List Bool} {first : Nat} (he : f.entry q t = .emit v)
    (h : f.lastOutput (some q) (t :: ts) first) :
    ∃ k, first = k + 1 ∧ f.lastOutput (some f.start) ts k := by
  obtain ⟨heq, hlt⟩ := h
  cases first with
  | zero => simp [Fsm.run, he] at heq
  | succ k =>
    refine ⟨k, rfl, by simpa [Fsm.run, he] using heq, fun j hj => ?_⟩
    simpa [Fsm.run, he] using hlt (j + 1) (Nat.succ_lt_succ hj)

/-- After a bit that puts out nothing, the last output is before it or after it. -/
theorem Fsm.lastOutput.of_goto {q : Nat} {t : Bool} {q' : Byte} {ts : List Bool} {first : Nat} (he : f.entry q t = .goto q')
    (h : f.lastOutput (some q) (t :: ts) first) :
    (first = 0 ∧ f.lastOutput (some q'.toNat) ts 0) ∨
      ∃ k, first = k + 1 ∧ k ≠ 0 ∧ f.lastOutput (some q'.toNat) ts k := by
  obtain ⟨heq, hlt⟩ := h
  cases first with
  | zero => exact .inl ⟨rfl, by simpa [Fsm.run, he] using heq, fun j hj => absurd hj (Nat.not_lt_zero j)⟩
  | succ k =>
    have hlast : f.lastOutput (some q'.toNat) ts k :=
      ⟨by simpa [Fsm.run, he] using heq, fun j hj => by simpa [Fsm.run, he] using hlt (j + 1) (Nat.succ_lt_succ hj)⟩
    refine .inr ⟨k, rfl, ?_, hlast⟩
    rintro rfl
    have h0 := hlt 0 (Nat.succ_pos 0)
    rw [← heq] at h0
    simp [Fsm.run, he] at h0

end

/-! ## The payload decoder -/

theorem BitBuffer.bits_drop {b : BitBuffer} {i k : Nat} (h : i + (k + 1) = b.n) :
    b.bits.drop i = (b.getBit i).getD false :: b.bits.drop (i + 1) := by
  rw [List.drop_eq_getElem_cons (by rw [BitBuffer.bits_length]; omega)]
  simp [BitBuffer.bits]

/-- The loop puts out what the machine puts out on the bits left, and then ends without error in the start state and else
with the index after the last bit that put out a byte (R460). -/
theorem decodeLoop_eq (s : State) (f : Fsm) {b : BitBuffer} {k i : Nat} (hk : i + k = b.n) (q : Option Nat) (start : Nat)
    (o : Output) {first : Nat} (h : f.lastOutput q (b.bits.drop i) first) :
    decodeLoop s f b k i q start o = (do
      let o' ← dstPuts s (Fsm.run f q (b.bits.drop i)).2 o
      if (Fsm.run f q (b.bits.drop i)).1 = some f.start then .ok o'
      else .error ⟨.decodeIncomplete, word (if first = 0 then start else i + first)⟩) := by
  induction k generalizing i q start o first with
  | zero =>
    have hnil : b.bits.drop i = [] := List.drop_eq_nil_of_le (by rw [BitBuffer.bits_length]; omega)
    rw [hnil] at h ⊢
    rw [h.eq_zero (by simp), Fsm.run_nil]
    rfl
  | succ k ih =>
    have hbits := BitBuffer.bits_drop hk
    cases q with
    | none =>
      have hrun := ih (i := i + 1) (by omega) none start o (first := 0) ⟨by simp, by simp⟩
      rw [h.eq_zero (by simp), decodeLoop, hrun]
      simp
    | some q =>
      rw [hbits] at h ⊢
      rw [decodeLoop, Fsm.run]
      cases he : f.entry q ((b.getBit i).getD false) with
      | emit v =>
        obtain ⟨m, rfl, hm⟩ := h.of_emit he
        have hinfo : (if m = 0 then i + 1 else i + 1 + m) = i + (m + 1) := by split <;> omega
        simp only [dstPuts, bind_assoc, if_neg (Nat.succ_ne_zero m), ← hinfo]
        exact congrArg _ (funext fun o' => ih (by omega) _ _ o' hm)
      | goto j =>
        simp only
        rcases h.of_goto he with ⟨rfl, hm⟩ | ⟨m, rfl, hm0, hm⟩
        · rw [ih (by omega) _ _ o hm]; rfl
        · rw [ih (by omega) _ _ o hm, if_neg hm0, if_neg (Nat.succ_ne_zero m), show i + 1 + m = i + (m + 1) by omega]
      | dead =>
        have h0 : (Fsm.run f (some q) ((b.getBit i).getD false :: b.bits.drop (i + 1))).2 = [] := by simp [Fsm.run, he]
        rw [h.eq_zero h0]
        simp only
        rw [ih (by omega) none start o (first := 0) ⟨by simp, by simp⟩]
        simp

/-- `DECODE`'s body emits what the machine puts out on the bits of the buffer, and then ends without error in the start state
and else with the number of bits up to the last output (R460, R462). -/
theorem decodeBody_eq {s : State} {f : Fsm} {b : BitBuffer} (hf : s.fsm = some f) (hb : s.bb = some b) {first : Nat}
    (h : f.lastOutput (some f.start) b.bits first) :
    decodeBody s = (do
      let t ← emit s (Fsm.run f (some f.start) b.bits).2
      if (Fsm.run f (some f.start) b.bits).1 = some f.start then .ok t
      else .error ⟨.decodeIncomplete, word first⟩) := by
  have hloop := decodeLoop_eq s f (b := b) (k := b.n) (i := 0) (by omega) (some f.start) 0 ⟨s.mem, 0⟩ h
  have hinfo : (if first = 0 then 0 else 0 + first) = first := by split <;> omega
  rw [List.drop_zero, hinfo] at hloop
  simp only [decodeBody, hf, hb, require_some, ok_bind, hloop, emit, bind_assoc]
  refine congrArg _ (funext fun o => ?_)
  split <;> rfl

/-! ## The machine of a built tree on codes -/

section
variable {ft : FreqTable} {t : Tree}

theorem buildFsm_single (h1 : t.nleaf = 1) :
    (buildFsm t).start = 0 ∧ (buildFsm t).entry 0 false = .emit (t.node 0).minByte ∧ (buildFsm t).entry 0 true = .dead := by
  rw [buildFsm, if_pos h1]
  exact ⟨rfl, rfl, rfl⟩

/-- The state of internal slot `i` branches as the slot does (R341). -/
theorem buildFsm_entry (h1 : t.nleaf ≠ 1) {i : Nat} (hi : t.nleaf ≤ i) (hi' : i < 2 * t.nleaf - 1) (d : Bool) :
    (buildFsm t).entry (i - t.nleaf) d =
      fsmEntryFor t (if d then (t.node i).right.toNat else (t.node i).left.toNat) := by
  have hk : i - t.nleaf < t.nleaf - 1 := by omega
  rw [buildFsm, if_neg h1]
  cases d <;> simp [Fsm.entry, Fsm.state, List.getD_eq_getElem?_getD, hk, Nat.add_sub_cancel' hi]

/-- From the state of internal slot `i`, the branches to a leaf put out its byte and lead to the start state (R342). -/
theorem run_follow (h : build ft = .ok (some t)) (h2 : 2 ≤ t.nleaf) {b : Byte} {c : Word} (p ts : List Bool) {i : Nat}
    (hi : t.nleaf ≤ i) (hi' : i < 2 * t.nleaf - 1) (hf : t.follow i p = some (.leaf b c)) :
    Fsm.run (buildFsm t) (some (i - t.nleaf)) (p ++ ts) =
      ((Fsm.run (buildFsm t) (some (buildFsm t).start) ts).1, b :: (Fsm.run (buildFsm t) (some (buildFsm t).start) ts).2) := by
  obtain ⟨-, h256⟩ := build_nleaf_range h
  induction p generalizing i with
  | nil =>
    obtain ⟨l, r, c', m, hn, -⟩ := build_children h hi hi'
    rw [Tree.follow, hn] at hf
    cases hf
  | cons d p ih =>
    obtain ⟨l, r, c', m, hn, hl, hr, -⟩ := build_children h hi hi'
    simp only [Tree.follow, hn] at hf
    have hentry := buildFsm_entry (by omega) hi hi' d
    rw [hn] at hentry
    simp only [Node.left, Node.right] at hentry
    generalize hj : (if d then r.toNat else l.toNat) = j at hf hentry
    have hji : j < i := by subst hj; split <;> assumption
    rw [List.cons_append, Fsm.run, hentry, fsmEntryFor]
    rcases build_node_cases h j with ⟨-, b', c'', hnj⟩ | ⟨hj', hj'', _, _, _, _, hnj, -⟩ | ⟨hj', -⟩
    · rw [hnj]
      cases p with
      | nil => rw [Tree.follow, hnj] at hf; cases hf; rfl
      | cons d' p => rw [Tree.follow, hnj] at hf; cases hf
    · rw [hnj]
      have hg : (BitVec.ofNat 8 (j - t.nleaf)).toNat = j - t.nleaf := Nat.mod_eq_of_lt (by omega)
      simp only [hg]
      exact ih hj' hj'' hf
    · omega

/-- From its start state the machine puts out the byte of each code it reads and is in its start state again (R342). -/
theorem run_code (h : build ft = .ok (some t)) {b : Byte} {p : List Bool} (hp : codeOf t b = some p) (ts : List Bool) :
    Fsm.run (buildFsm t) (some (buildFsm t).start) (p ++ ts) =
      ((Fsm.run (buildFsm t) (some (buildFsm t).start) ts).1, b :: (Fsm.run (buildFsm t) (some (buildFsm t).start) ts).2) := by
  obtain ⟨h1, -⟩ := build_nleaf_range h
  by_cases hone : t.nleaf = 1
  · obtain ⟨rfl, rfl⟩ := (codeOf_single h hone).1 hp
    obtain ⟨hstart, hemit, -⟩ := buildFsm_single hone
    rw [List.cons_append, Fsm.run, hstart, hemit, List.nil_append]
  · obtain ⟨c, hf⟩ := (codeOf_eq_follow h (by omega)).1 hp
    have hstart : (buildFsm t).start = t.root - t.nleaf := by
      rw [buildFsm, if_neg hone, Tree.root]; simp only; omega
    have := run_follow h (by omega) p ts (by rw [Tree.root]; omega) (by rw [Tree.root]; omega) hf
    rwa [← hstart] at this

/-- On the codes of a byte string the machine puts out that string first (R342). -/
theorem run_payloadBits (h : build ft = .ok (some t)) {data : List Byte} (hd : ∀ v ∈ data, (codeOf t v).isSome)
    (ts : List Bool) :
    Fsm.run (buildFsm t) (some (buildFsm t).start) (payloadBits t data ++ ts) =
      ((Fsm.run (buildFsm t) (some (buildFsm t).start) ts).1,
        data ++ (Fsm.run (buildFsm t) (some (buildFsm t).start) ts).2) := by
  induction data with
  | nil => rfl
  | cons v data ih =>
    obtain ⟨p, hp⟩ := Option.isSome_iff_exists.1 (hd v (.head _))
    have hcons : payloadBits t (v :: data) = p ++ payloadBits t data := by
      rw [payloadBits, List.flatMap_cons, hp]; rfl
    rw [hcons, List.append_assoc, run_code h hp, ih fun w hw => hd w (.tail _ hw)]
    rfl

end

end Sys2Proof.Machine

/-! # `DECOMPRESS` -/

namespace Sys2Proof.Machine

/-! ## An end with an error is that error of the body -/

/-- The error with a number of R501. -/
def ErrCode.ofNumber (n : Byte) : ErrCode :=
  [ErrCode.illegalCmd, .argRange, .notReady, .memFault, .overlap, .dstOverflow, .bbOverflow, .invalidBit, .packWidth,
    .unpackWidth, .ctTruncated, .ctTrailing, .ctBadWidth, .ctBadTable, .countOverflow, .noCode,
    .decodeIncomplete].getD (n.toNat - 1) .illegalCmd

theorem ErrCode.ofNumber_number (e : ErrCode) : ErrCode.ofNumber e.number = e := by cases e <;> rfl

section
variable {s : State}

/-- Two ends with an error in the same state have the same error (R505). -/
theorem raise_inj {l : List Struct} {d : Bool} {e e' : CmdError} (h : s.raise l d e = s.raise l d e') : e = e' := by
  have hinfo := congrArg (fun t => t.res.errInfo) h
  have hstatus := congrArg State.status h
  simp only [(raise_results s l d _).2] at hinfo
  simp only [raise_control s l d] at hstatus
  have hcode := congrArg (fun f => ErrCode.ofNumber f.errcode) hstatus
  simp only [Status.failed, ErrCode.ofNumber_number] at hcode
  obtain ⟨code, info⟩ := e
  exact congr (congrArg CmdError.mk hcode) hinfo

/-- An error draws its free results (R509 item 2). -/
theorem raise_draws (l : List Struct) (d : Bool) (e : CmdError) : s.draws < (s.raise l d e).draws := by
  have hk := (invalidateAll_keeps s l).1.draws
  cases d
  · simp [State.raise, hk]
  · simp [State.raise, hk]; omega

/-- A command ends with an error exactly when its checks and body do. -/
theorem endsWith_iff_body {i : Instr} {code : ErrCode} {info : Word} :
    endsWith i s code info ↔ body i s = .error ⟨code, info⟩ := by
  refine ⟨fun h => ?_, endsWith_of_body⟩
  rcases exec_cases h with ⟨t, ht, he⟩ | ⟨e, hb, he⟩
  · injection he with he
    have hlt := raise_draws (s := s) (writesStructs i) (writesDst i) ⟨code, info⟩
    rw [he, State.complete_draws, (body_keeps ht).draws] at hlt
    exact absurd hlt (Nat.lt_irrefl _)
  · injection he with he
    rw [hb, raise_inj he]

end

/-! ## The steps after the load -/

theorem two_le_size_of_totalCount {ft : FreqTable} (h : 2 ^ 64 ≤ totalCount ft) : 2 ≤ FreqTable.size ft := by
  unfold totalCount at h
  unfold FreqTable.size
  match hes : FreqTable.entries ft with
  | [] => rw [hes] at h; exact absurd h (by decide)
  | [e] =>
    have := e.2.isLt
    rw [hes, List.map_cons, List.map_nil, List.sum_singleton] at h
    omega
  | _ :: _ :: _ => simp

/-- The state in which `DECOMPRESS` decodes, with its results: the loaded table and buffer, their tree and machine (R480). -/
def State.decompressed (s : State) (ft : FreqTable) (t : Tree) (b : BitBuffer) : State :=
  { s with
    ft := some ft, tree := some t, lut := none, fsm := some (buildFsm t), bb := some b
    res := { s.res with result0 := word (FreqTable.size ft), result1 := word b.n } }

section
variable {s : State} {ft : FreqTable} {b : BitBuffer}

/-- `DECOMPRESS` after its load: the tree, then the output (R480). -/
theorem decompressBody_loaded (h : deserialize s = .ok (ft, b)) :
    decompressBody s = (do
      let s2 ← treeBuildBody { s with
        ft := some ft, tree := none, lut := none, fsm := none, bb := some b
        res := { s.res with result0 := word (FreqTable.size ft), result1 := word b.n } }
      let s4 ← decompressOutput s2
      .ok (s4.setResults (word (FreqTable.size ft)) (word b.n))) := by
  rw [decompressBody, ctDeserializeBody, h, ok_bind, ok_bind]
  simp only [State.setFt, State.setBb, State.setResults, require_some, ok_bind]

/-- An empty table has no tree and no output (R480). -/
theorem decompressBody_empty (h : deserialize s = .ok (ft, b)) (h0 : FreqTable.size ft = 0) :
    decompressBody s = .ok { s with
      ft := some ft, tree := none, lut := none, fsm := none, bb := some b
      res := { s.res with outLen := 0, result0 := 0, result1 := word b.n } } := by
  rw [decompressBody_loaded h, treeBuildBody_none rfl (build_empty h0), ok_bind, h0]
  simp only [State.setTree, State.setResults, decompressOutput, State.setOutLen, ok_bind]
  rfl

/-- Counts that overflow end `DECOMPRESS` (R288, R480). -/
theorem decompressBody_overflow {e : CmdError} (h : deserialize s = .ok (ft, b)) (he : build ft = .error e) :
    decompressBody s = .error e := by
  rw [decompressBody_loaded h, treeBuildBody, require_some, ok_bind, he]
  rfl

/-- With a built tree `DECOMPRESS` emits what its machine puts out on the payload, and then ends as `DECODE` does (R480). -/
theorem decompressBody_built {t : Tree} {first : Nat} (h : deserialize s = .ok (ft, b)) (ht : build ft = .ok (some t))
    (hfirst : (buildFsm t).lastOutput (some (buildFsm t).start) b.bits first) :
    decompressBody s = (do
      let u ← emit (s.decompressed ft t b) (Fsm.run (buildFsm t) (some (buildFsm t).start) b.bits).2
      if (Fsm.run (buildFsm t) (some (buildFsm t).start) b.bits).1 = some (buildFsm t).start then .ok u
      else .error ⟨.decodeIncomplete, word first⟩) := by
  rw [decompressBody_loaded h, treeBuildBody_some rfl ht, ok_bind]
  simp only [State.setTree, State.setResults, decompressOutput, decmapGenBody, require_some, ok_bind, State.setFsm]
  rw [decodeBody_eq rfl rfl hfirst, bind_assoc]
  refine emit_bind_congr ?_ ?_ ?_ _ fun o => ?_
  case refine_4 => split <;> rfl
  all_goals rfl

end

/-- Settles O46: what a well-formed container loads as, then the tree, and the machine's output as an emission. -/
theorem decompressWritesTheData : Obligations.DecompressWritesTheData := by
  intro s hsrc hdst hdis hwf hcfg
  have hbody : body .decompress s = if s.ops.srcLen.toNat = 0 then .ok s.emptyOutput else decompressBody s := by
    rw [body, checkBuffers_disjoint .decompress hsrc hdst hdis, ok_bind]
  refine ⟨fun h0 => ?_, fun h0 code info hct => endsWith_of_body ?_, fun hr ft b hb hc => ?_⟩
  · rw [exec_of_body (hbody.trans (if_pos (by rw [h0]; rfl)))]; rfl
  · have hct := endsWith_iff_body.1 hct
    rw [body, checkBuffers_of_regionOk (by decide) (fun _ => hsrc) (fun _ => hdst), ok_bind] at hct
    have hlen : s.ops.srcLen.toNat ≠ 0 := fun h => h0 (BitVec.eq_of_toNat_eq h)
    rw [hbody, if_neg hlen, decompressBody, hct, error_bind]
  have hholds : holdsContainer (sourceBytes s) ft b := by
    rcases hc with hc | hc
    · have hn := hb.1
      simp only [Config.wellFormed, Bool.and_eq_true, decide_eq_true_eq] at hcfg
      exact hc ▸ holdsContainer_containerOf ft hb.2 (by omega)
    · exact hc
  have hload := deserialize_holdsContainer hr hb hholds
  have h0 : s.ops.srcLen.toNat ≠ 0 := by
    have := hholds.1.1.1
    rw [sourceBytes_length] at this
    omega
  rw [if_neg h0] at hbody
  have hall : b.bits.take b.n = b.bits := List.take_of_length_le (by rw [BitBuffer.bits_length])
  refine ⟨fun hempty => ?_, fun hsum => ?_, fun t ht => ?_⟩
  · rw [exec_of_body (hbody.trans (decompressBody_empty hload (FreqTable.size_eq_zero_iff.2 hempty)))]; rfl
  · obtain ⟨slot, hslot, hle, hge⟩ := build_overflows hsum (two_le_size_of_totalCount hsum)
    exact ⟨slot, hle, hge, endsWith_of_body (hbody.trans (decompressBody_overflow hload hslot))⟩
  intro f run out
  simp only [run, out, hall]
  obtain ⟨first, hfirst⟩ := f.lastOutput_exists (some f.start) b.bits
  have hbuilt := hbody.trans (decompressBody_built hload ht hfirst)
  refine ⟨fun data hdata hbits => ?_, fun hw => ?_, fun hcap hto => ?_, fun k hk hcap hto he => ?_⟩
  · have := run_payloadBits ht hdata []
    rwa [List.append_nil, Fsm.run_nil, List.append_nil, ← hbits] at this
  · obtain ⟨u, hu⟩ := emit_writable (s := s.decompressed ft t b) hw
    obtain ⟨hu', -, hwrote⟩ := emit_ok hu hwf
    refine ⟨fun hend => ?_, fun hend m _ hm hmin => endsWith_of_body ?_⟩
    · rw [hu, ok_bind, if_pos hend] at hbuilt
      refine ⟨_, exec_of_body hbuilt, hwrote, ?_⟩
      rw [hu']; rfl
    · rw [hbody, decompressBody_built hload ht ⟨hm, hmin⟩, hu, ok_bind, if_neg hend]
  · refine endsWith_of_body (hbuilt.trans ?_)
    rw [emit_overflow (s := s.decompressed ft t b) hcap hto, error_bind]; rfl
  · refine endsWith_of_body (hbuilt.trans ?_)
    rw [emit_hole (s := s.decompressed ft t b) hk hcap hto he, error_bind]; rfl

end Sys2Proof.Machine

/-! # Command words

The decoder answers a command exactly on a word with a clear reserved field and that command's opcode, which is the
command's encoding (30_encoding.md R142); every other word ends the command with `ILLEGAL_CMD` (R141). -/

namespace Sys2Proof.Laws.Encoded

/-- The encodings of the commands one by one, as one fact about every command. -/
theorem statement (i : Instr) : Statement i := by
  cases i
  exacts [nop, compress, decompress, freqClear, freqCount, freqWrite, freqRemove, freqRead, treeBuild, nodeRead, encmapGen,
    lutRead, decmapGen, fsmRead, bbClear, bbAppendBit, bbAppendMany, bbGetBit, bbLength, bbStore, viMinWidth, viPack,
    viUnpack, ctSerialize, ctDeserialize, encode, decode]

end Sys2Proof.Laws.Encoded

namespace Sys2Proof.Machine

/-! ## The opcode column, in both directions -/

theorem eq_opcode_of_decodeOpcode {b : Byte} {i : Instr} (h : decodeOpcode b = some i) : b = opcode i := by
  unfold decodeOpcode at h
  split at h
  case h_28 => cases h
  all_goals
    cases h
    exact BitVec.eq_of_toNat_eq ‹_›

/-- `decodeOpcode` and `opcode` are the same column of R146. -/
theorem decodeOpcode_eq_some_iff {b : Byte} {i : Instr} : decodeOpcode b = some i ↔ b = opcode i := by
  obtain ⟨-, -, hread⟩ := Laws.Encoded.statement i
  exact ⟨eq_opcode_of_decodeOpcode, fun h => h ▸ hread⟩

/-! ## The two fields of a word -/

theorem reservedClear_iff {w : Word} : reservedClear w = true ↔ w >>> 8 = 0 := beq_iff_eq

/-- A word with a clear reserved field is its opcode field (R140). -/
theorem opcodeField_setWidth {w : Word} (h : w >>> 8 = 0) : (opcodeField w).setWidth 64 = w := by
  unfold opcodeField
  bv_omega

/-- The encoding of a command is the one word with its two fields (R140, R146). -/
theorem eq_encode_iff {w : Word} {i : Instr} : w = encode i ↔ w >>> 8 = 0 ∧ opcodeField w = opcode i := by
  constructor
  · rintro rfl
    obtain ⟨hclear, hop, -⟩ := Laws.Encoded.statement i
    exact ⟨reservedClear_iff.1 hclear, hop⟩
  · rintro ⟨hclear, hop⟩
    rw [← opcodeField_setWidth hclear, hop, encode]

/-! ## What the decoder answers -/

theorem decode_eq_ok_iff_fields {w : Word} {i : Instr} :
    decode w = .ok i ↔ w >>> 8 = 0 ∧ opcodeField w = opcode i := by
  unfold decode
  rw [← reservedClear_iff, ← decodeOpcode_eq_some_iff]
  cases reservedClear w with
  | false => simp
  | true => cases decodeOpcode (opcodeField w) <;> simp

theorem decode_eq_ok_iff {w : Word} {i : Instr} : decode w = .ok i ↔ w = encode i :=
  decode_eq_ok_iff_fields.trans eq_encode_iff.symm

theorem decode_encode (i : Instr) : decode (encode i) = .ok i := decode_eq_ok_iff.2 rfl

/-- A word that is no command's is refused (R142). -/
theorem decode_refuses {w : Word} (h : w >>> 8 ≠ 0 ∨ ∀ i, opcodeField w ≠ opcode i) : ∃ r, decode w = .error r := by
  cases hd : decode w with
  | error r => exact ⟨r, rfl⟩
  | ok i =>
    obtain ⟨hclear, hop⟩ := decode_eq_ok_iff_fields.1 hd
    exact h.elim (absurd hclear) fun hno => absurd hop (hno i)

/-- The decoder on the 8 little-endian bytes of a word (R46). -/
theorem decodeBytes_packBytes (w : Word) (rest : List Byte) :
    decodeBytes (packBytes w 8 ++ rest) = (decode w).map fun i => (i, rest) := by
  have hword : BitVec.ofNat 64 (leNat (packBytes w 8)) = w := by
    rw [leNat_packBytes, Nat.mod_eq_of_lt w.isLt, BitVec.ofNat_toNat, BitVec.setWidth_eq]
  have hlen : ¬ (packBytes w 8 ++ rest).length < 8 := by simp
  rw [decodeBytes, if_neg hlen, List.take_left' (packBytes_length w 8), List.drop_left' (packBytes_length w 8), hword]

/-! ## The statements on words and bytes -/

/-- Settles O3: the words are the encodings, which the decoder inverts. -/
theorem tableWordsDecode : Obligations.TableWordsDecode := by
  intro p hp
  have hword : encode p.2 = p.1 := by
    revert p
    decide
  exact ⟨decode_eq_ok_iff.2 hword.symm, hword⟩

/-- Settles O1: the decoder's answer by the word's two fields. -/
theorem decodeIsTheOpcodeTable : Obligations.DecodeIsTheOpcodeTable := fun _ =>
  ⟨fun _ hclear hop => decode_eq_ok_iff_fields.2 ⟨hclear, hop⟩, decode_refuses⟩

/-- Settles O2: a command's bytes are the little-endian bytes of its word, and the decoder is a left inverse of `encode`. -/
theorem decodeInvertsEncode : Obligations.DecodeInvertsEncode := by
  intro i j w rest
  refine ⟨decode_eq_ok_iff, ?_, fun h => ?_⟩
  · calc decodeBytes (encodeBytes i ++ rest)
      _ = (decode (encode i)).map fun i => (i, rest) := decodeBytes_packBytes (encode i) rest
      _ = .ok (i, rest) := by rw [decode_encode]; rfl
  · exact Except.ok.inj ((decode_encode i).symm.trans (decode_eq_ok_iff.2 h))

/-! ## An illegal word -/

/-- No command has an opcode in the reserved ranges (R147). -/
theorem opcode_not_reserved (i : Instr) :
    let b := (opcode i).toNat
    ¬ ((0x03 ≤ b ∧ b ≤ 0x0F) ∨ (0x15 ≤ b ∧ b ≤ 0x1F) ∨ (0x22 ≤ b ∧ b ≤ 0x27) ∨ b = 0x2A ∨ b = 0x2B ∨
      b = 0x2E ∨ b = 0x2F ∨ (0x36 ≤ b ∧ b ≤ 0x3F) ∨ (0x43 ≤ b ∧ b ≤ 0x4F) ∨ (0x52 ≤ b ∧ b ≤ 0x57) ∨ 0x5A ≤ b) := by
  cases i <;> decide

/-- While idle a write to `CMD` is accepted, whatever the word (R181). -/
theorem hostAct_writeCmd {s : State} (w : Word) (h : s.status.busy = false) :
    hostAct (.regWrite 0x018 8 w) s = .next (s.accept w) := by
  rw [hostAct_write_reg (r := .cmd) w rfl, writeReg, whenIdle_idle h]

theorem blockStep_illegal {s : State} (h : ∃ r, decode s.cmd = .error r) :
    blockStep s = .next (s.raise [] false ⟨.illegalCmd, s.cmd⟩) := by
  obtain ⟨r, hr⟩ := h
  rw [blockStep, hr]

/-- Settles O4: the word is refused by its fields, and an error that clears no flag and frees no byte changes the status and
the results alone. -/
theorem illegalWordsEndInIllegalCmd : Obligations.IllegalWordsEndInIllegalCmd := by
  intro s w hidle hw
  have hbad : ∃ r, decode w = .error r :=
    decode_refuses (hw.imp_right fun hr i hop => opcode_not_reserved i (hop ▸ hr))
  refine ⟨hostAct_writeCmd w hidle, _, blockStep_illegal (s := s.accept w) hbad, ?_⟩
  obtain ⟨-, hcmd, -, hops, -, -, -, -, hstatus⟩ := raise_control (s.accept w) [] false ⟨.illegalCmd, w⟩
  obtain ⟨hlen, hinfo⟩ := raise_results (s.accept w) [] false ⟨.illegalCmd, w⟩
  obtain ⟨hft, htree, hlut, hfsm, hbb⟩ := raise_structs (s.accept w) [] false ⟨.illegalCmd, w⟩
  exact ⟨hstatus, hinfo, hlen, hcmd, hops, hft, htree, hlut, hfsm, hbb, raise_mem (s.accept w) [] false ⟨.illegalCmd, w⟩⟩

end Sys2Proof.Machine

/-! # The life of a command

The block leaves idle by an accepted write to `CMD` alone, and leaves busy by the command's completion or a reset
(40_command.md R180 to R188). What one action of the host can do to `BUSY` is said once, in `hostAct_cases`. -/

namespace Sys2Proof.Machine

/-! ## The block's step -/

section
variable {s : State}

/-- The block moves when it is busy, unless the schedule gives the turn to a host that has an action left (R188). -/
theorem nextAgent_eq_block_iff :
    nextAgent s = .block ↔ s.status.busy = true ∧ (s.turns.head? ≠ some .host ∨ s.host = []) := by
  cases hb : s.status.busy with
  | false => simp [nextAgent, hb]
  | true => simp [nextAgent, hb, or_iff_not_imp_left]

theorem step_of_block (h : nextAgent s = .block) : step s = blockStep s.takeTurn := by
  rw [step, oneStep, h]

theorem blockStep_of_decode {i : Instr} (h : decode s.cmd = .ok i) : blockStep s = exec i s := by
  rw [blockStep, h]

/-- The block's step ends the command, legal or not (R183). -/
theorem blockStep_ends (s : State) : ∃ t, blockStep s = .next t ∧ t.status.busy = false := by
  rcases blockStep_cases s with ⟨i, -, h⟩ | ⟨-, h⟩ <;> rw [h]
  · exact exec_ends i s
  · obtain ⟨-, -, -, -, -, -, -, -, hst⟩ := raise_control s [] false ⟨.illegalCmd, s.cmd⟩
    exact ⟨_, rfl, by rw [hst]; rfl⟩

theorem step_of_block_ends (h : nextAgent s = .block) : ∃ t, step s = .next t ∧ t.status.busy = false :=
  step_of_block h ▸ blockStep_ends s.takeTurn

end

/-! ## What an action of the host does to `BUSY` -/

theorem regAt_eq_cmd {off : Nat} (h : regAt off = some .cmd) : off = 0x018 := by
  unfold regAt at h
  split at h
  case h_4 => rfl
  all_goals cases h

theorem regAt_eq_ctrl {off : Nat} (h : regAt off = some .ctrl) : off = 0x010 := by
  unfold regAt at h
  split at h
  case h_3 => rfl
  all_goals cases h

/-- The action is a reset: the platform's, or a write to `CTRL` with bit 0 set (R550, R553). -/
def HostAction.isReset (a : HostAction) : Prop :=
  a = .platformReset ∨ ∃ v, a = .regWrite 0x010 8 v ∧ v.getLsbD 0 = true

section
variable {s t : State}

theorem whenIdle_status_busy (h : t.status.busy = s.status.busy) : (whenIdle s t).status.busy = s.status.busy := by
  unfold whenIdle
  split
  · rfl
  · exact h

theorem whenIdle_host (h : t.host = s.host) : (whenIdle s t).host = s.host := by
  unfold whenIdle
  split
  · rfl
  · exact h

theorem resetBlock_host (s : State) : (resetBlock s).host = s.host := by rw [resetBlock_eq]

/-- Only an accepted write to `CMD` and a reset by `CTRL` change `BUSY` (R34, R36, R181). -/
theorem writeReg_busy_cases (r : Reg) (v : Word) (s : State) :
    (writeReg r v s).status.busy = s.status.busy ∨
      (r = .cmd ∧ s.status.busy = false ∧ writeReg r v s = s.accept v) ∨
      (r = .ctrl ∧ v.getLsbD 0 = true ∧ (writeReg r v s).status.busy = false) := by
  cases r with
  | ctrl =>
    cases hv : v.getLsbD 0 with
    | false => exact .inl (by rw [writeReg, hv]; rfl)
    | true => exact .inr (.inr ⟨rfl, rfl, by rw [writeReg, if_pos hv, resetBlock_status]; rfl⟩)
  | cmd =>
    cases hb : s.status.busy with
    | false => exact .inr (.inl ⟨rfl, rfl, whenIdle_idle hb⟩)
    | true => exact .inl (by rw [writeReg, whenIdle_busy hb]; exact hb)
  | irqEn | srcAddr | srcLen | dstAddr | dstCap | arg0 | arg1 => exact .inl (whenIdle_status_busy rfl)
  | status | id | cap | state | outLen | result0 | result1 | errInfo => exact .inl rfl

theorem writeReg_host (r : Reg) (v : Word) (s : State) : (writeReg r v s).host = s.host := by
  cases r with
  | ctrl =>
    rw [writeReg]
    split
    · exact resetBlock_host s
    · rfl
  | cmd | irqEn | srcAddr | srcLen | dstAddr | dstCap | arg0 | arg1 => exact whenIdle_host rfl
  | status | id | cap | state | outLen | result0 | result1 | errInfo => rfl

/-- A register read leaves `BUSY` and the actions to follow (R111). -/
theorem readAt_keeps (off : Nat) (s : State) :
    (readAt off s).host = s.host ∧ (readAt off s).status.busy = s.status.busy := by
  unfold readAt readReg
  split
  · split <;> exact ⟨rfl, rfl⟩
  · exact ⟨rfl, rfl⟩

theorem hostStore_keeps (a : Nat) (v : Byte) (s : State) :
    (hostStore a v s).host = s.host ∧ (hostStore a v s).status.busy = s.status.busy := by
  unfold hostStore
  split <;> exact ⟨rfl, rfl⟩

theorem hostLoad_keeps (a : Nat) (s : State) :
    (hostLoad a s).host = s.host ∧ (hostLoad a s).status.busy = s.status.busy := by
  unfold hostLoad
  split
  · exact ⟨rfl, rfl⟩
  · split
    · exact ⟨rfl, rfl⟩
    · split <;> exact ⟨rfl, rfl⟩

theorem hostWriteBack_keeps (a : Nat) (s : State) :
    (hostWriteBack a s).host = s.host ∧ (hostWriteBack a s).status.busy = s.status.busy := by
  unfold hostWriteBack
  split
  · split <;> exact ⟨rfl, rfl⟩
  · exact ⟨rfl, rfl⟩

/-- An action of the host that goes on touches none of the actions to follow; and it leaves `BUSY`, accepts a command on an
idle block, or resets (R180). -/
theorem hostAct_cases {a : HostAction} (h : hostAct a s = .next t) :
    t.host = s.host ∧
      (t.status.busy = s.status.busy ∨
        (∃ w, a = .regWrite 0x018 8 w ∧ s.status.busy = false ∧ t = s.accept w) ∨
        (a.isReset ∧ t.status.busy = false)) := by
  cases a with
  | regWrite off size v =>
    obtain ⟨rfl, -, -, rfl⟩ := regAction_next h
    unfold writeAt
    split
    · rename_i r hr
      refine ⟨writeReg_host r v s, ?_⟩
      rcases writeReg_busy_cases r v s with hb | ⟨rfl, hb, ht⟩ | ⟨rfl, hv, hb⟩
      · exact .inl hb
      · exact .inr (.inl ⟨v, by rw [regAt_eq_cmd hr], hb, ht⟩)
      · exact .inr (.inr ⟨.inr ⟨v, by rw [regAt_eq_ctrl hr], hv⟩, hb⟩)
    · exact ⟨rfl, .inl rfl⟩
  | platformReset =>
    injection h with h
    subst h
    exact ⟨resetBlock_host s, .inr (.inr ⟨.inl rfl, by rw [resetBlock_status]; rfl⟩)⟩
  | regRead off size =>
    obtain ⟨-, -, -, rfl⟩ := regAction_next h
    exact (readAt_keeps off s).imp_right .inl
  | store a v =>
    obtain ⟨-, -, rfl⟩ := memAction_next h
    exact (hostStore_keeps a v s).imp_right .inl
  | load a =>
    obtain ⟨-, -, rfl⟩ := memAction_next h
    exact (hostLoad_keeps a s).imp_right .inl
  | writeBack a =>
    obtain ⟨-, -, rfl⟩ := memAction_next h
    exact (hostWriteBack_keeps a s).imp_right .inl
  | discard a =>
    obtain ⟨-, -, rfl⟩ := memAction_next h
    exact ⟨rfl, .inl rfl⟩

end

/-- Settles O7: a step is the block's, one action of the host, or none, and `hostAct_cases` says what the action can be. -/
theorem idleIsLeftOnlyByAcceptance : Obligations.IdleIsLeftOnlyByAcceptance := by
  intro s t h
  refine ⟨fun hidle hbusy => ?_, fun hbusy hidle => ?_⟩
  · rcases step_cases h with ⟨-, hb, -⟩ | ⟨-, a, rest, hh, h⟩ | ⟨-, -, -, rfl⟩
    · exact nomatch hidle.symm.trans hb
    · rw [if_neg (by simp [hidle])] at h
      obtain ⟨-, hkept | ⟨w, rfl, -, ht⟩ | ⟨-, hb⟩⟩ := hostAct_cases h
      · exact nomatch hidle.symm.trans (hkept.symm.trans hbusy)
      · exact ⟨w, rest, hh, ht⟩
      · exact nomatch hbusy.symm.trans hb
    · exact nomatch hidle.symm.trans hbusy
  · rcases step_cases h with ⟨hn, -, -⟩ | ⟨-, a, rest, hh, h⟩ | ⟨-, -, hb, -⟩
    · exact .inl hn
    · rw [if_pos hbusy] at h
      obtain ⟨-, hkept | ⟨w, -, hb, -⟩ | ⟨hreset, -⟩⟩ := hostAct_cases h
      · exact nomatch hbusy.symm.trans (hkept.symm.trans hidle)
      · exact nomatch hbusy.symm.trans hb
      · exact .inr ⟨a, rest, hh, hreset⟩
    · exact nomatch hbusy.symm.trans hb

/-! ## Every command ends -/

/-- Settles O8: the body of a command keeps `STATUS` up to its completion, and an error sets the number of its code. -/
theorem everyCommandCompletes : Obligations.EveryCommandCompletes := by
  rintro i s ⟨-, hdone, herr⟩
  obtain ⟨t, ht, hidle⟩ := exec_ends i s
  obtain ⟨-, -, -, -, hovr, -⟩ := exec_keeps_control ht
  refine ⟨t, ht, hidle, hovr, ?_⟩
  rcases exec_next_cases ht with ⟨u, hu, rfl⟩ | ⟨e, rfl, -⟩
  · have k := body_keeps hu
    have hcode : u.status.errcode = s.status.errcode := congrArg Status.errcode k.status
    exact .inl ⟨rfl, (congrArg Status.err k.status).trans herr, hcode, k.errInfo⟩
  · obtain ⟨-, -, -, -, -, -, -, -, hst⟩ := raise_control s (writesStructs i) (writesDst i) e
    exact .inr (hst ▸ ⟨hdone, rfl, e.code.number_range⟩)

/-! ## A busy block becomes idle -/

section
variable {s t : State}

/-- A step of a busy machine ends the command, or takes one action off the host's list. -/
theorem step_busy_progress (hb : s.status.busy = true) (h : step s = .next t) :
    t.status.busy = false ∨ ∃ a, s.host = a :: t.host := by
  rcases step_cases h with ⟨hn, -, -⟩ | ⟨-, a, rest, hh, h⟩ | ⟨-, -, hidle, -⟩
  · obtain ⟨u, hu, hidle⟩ := step_of_block_ends hn
    rw [h] at hu
    exact .inl (Host.Outcome.next.inj hu ▸ hidle)
  · obtain ⟨hhost, -⟩ := hostAct_cases h
    exact .inr ⟨a, by rw [hh, hhost]⟩
  · exact nomatch hidle.symm.trans hb

theorem afterSteps_succ (h : step s = .next t) (k : Nat) : s.afterSteps (k + 1) = t.afterSteps k := by
  rw [State.afterSteps, h]

/-- Step by step the host runs out of actions, unless the command ends or a step stops before (R183, R581). -/
theorem busy_stops_or_reaches_idle (s : State) (hb : s.status.busy = true) :
    ∃ k ≤ s.host.length + 1, s.afterSteps k = none ∨ ∃ t, s.afterSteps k = some t ∧ t.status.busy = false := by
  cases hs : step s with
  | fault r => exact ⟨1, by omega, .inl (by rw [State.afterSteps, hs])⟩
  | refused r => exact ⟨1, by omega, .inl (by rw [State.afterSteps, hs])⟩
  | next t =>
    cases ht : t.status.busy with
    | false => exact ⟨1, by omega, .inr ⟨t, afterSteps_succ hs 0, ht⟩⟩
    | true =>
      obtain ⟨a, hhost⟩ := (step_busy_progress hb hs).resolve_left (ne_false_of_eq_true ht)
      obtain ⟨k, hk, h⟩ := busy_stops_or_reaches_idle t ht
      exact ⟨k + 1, by rw [hhost, List.length_cons]; omega, by rwa [afterSteps_succ hs]⟩
termination_by s.host.length
decreasing_by rw [hhost]; exact Nat.lt_succ_self _

end

/-- Settles O9: the block's own step ends the command, and every step of the host before it uses up one of its actions. -/
theorem busyBlockReachesIdle : Obligations.BusyBlockReachesIdle := fun s hb =>
  ⟨step_of_block_ends, busy_stops_or_reaches_idle s hb⟩

/-! ## What the block's step runs -/

/-- Settles O5: the agent by the schedule, and the block's step by what the decoder answers. -/
theorem stepRunsTheDecodedCommand : Obligations.StepRunsTheDecodedCommand := by
  intro s i
  have hload : s.withFetchWord 64 (encode i).toNat = s.loadCommand (encode i) := by
    rw [State.withFetchWord, Nat.mod_eq_of_lt (encode i).isLt, BitVec.ofNat_toNat, BitVec.setWidth_eq]
  have hturn : nextAgent (s.loadCommand (encode i)) = .block :=
    nextAgent_eq_block_iff.2 ⟨rfl, .inl (by simp [State.loadCommand])⟩
  refine ⟨fun hn hi => ?_, fun hn hbad => ?_, nextAgent_eq_block_iff, ?_⟩
  · rw [step_of_block hn]
    exact blockStep_of_decode (s := s.takeTurn) hi
  · rw [step_of_block hn]
    exact blockStep_illegal (s := s.takeTurn) hbad
  · rw [hload, step_of_block hturn]
    exact blockStep_of_decode (s := s.accept (encode i)) (decode_encode i)

/-! ## Acceptance, and commands that need nothing -/

/-- Settles O6: a write to `CMD` is accepted while idle and dropped while busy. -/
theorem commandWriteIsAccepted : Obligations.CommandWriteIsAccepted := fun _ w =>
  ⟨hostAct_writeCmd w, fun hb =>
    (hostAct_write_reg (r := .cmd) w rfl).trans (congrArg _ (writeReg_busy hb (by decide)))⟩

/-- Settles O16: the bodies of the three commands have no check. -/
theorem unconditionalCommandsComplete : Obligations.UnconditionalCommandsComplete := fun s =>
  ⟨exec_of_body (i := .nop) (s := s) rfl, exec_of_body (i := .bbClear) (s := s) rfl,
    exec_of_body (i := .freqClear) (s := s) rfl⟩

end Sys2Proof.Machine

/-! # The bit-buffer commands

Each command's checks pass into its primitive: `AppendBit` once or over the source, `GetBit`, or the emission of the storage
(41_bitbuffer.md R210 to R225). -/

namespace Sys2Proof.Machine

/-! ## Operands and source bytes as bits -/

/-- A value of 0 or 1 is its bit 0 (R144). -/
theorem getLsbD_zero_of_le_one {w : Nat} {v : BitVec (w + 1)} (h : v.toNat ≤ 1) : v.getLsbD 0 = decide (v = 1) := by
  obtain rfl | rfl : v = 0 ∨ v = 1 := by
    have h1 : (1 : BitVec (w + 1)).toNat = 1 := by simp
    rcases Nat.le_one_iff_eq_zero_or_eq_one.1 h with h | h
    · exact .inl (BitVec.eq_of_toNat_eq h)
    · exact .inr (BitVec.eq_of_toNat_eq (h.trans h1.symm))
  · simp
  · simp

theorem bitOperand_of_le {s : State} (h : s.ops.arg0.toNat ≤ 1) : bitOperand s = .ok (decide (s.ops.arg0 = 1)) := by
  rw [bitOperand, if_neg (Nat.not_lt.2 h), getLsbD_zero_of_le_one h]

theorem bitOperand_invalid {s : State} (h : 1 < s.ops.arg0.toNat) :
    bitOperand s = .error ⟨.invalidBit, s.ops.arg0⟩ := if_pos h

theorem appendSrcBit_of_le {c : Config} {i : Nat} {v : Byte} {b : BitBuffer} (h : v.toNat ≤ 1) :
    appendSrcBit c i v b = appendBit c (decide (v = 1)) b := by
  rw [appendSrcBit, if_neg (Nat.not_lt.2 h), getLsbD_zero_of_le_one h]

theorem appendSrcBit_invalid {c : Config} {i : Nat} {v : Byte} {b : BitBuffer} (h : 1 < v.toNat) :
    appendSrcBit c i v b = .error ⟨.invalidBit, word i⟩ := if_pos h

theorem appendBit_full {c : Config} {t : Bool} {b : BitBuffer} (h : 8 * c.capBytes ≤ b.n) :
    appendBit c t b = .error ⟨.bbOverflow, word (8 * c.capBytes)⟩ := if_pos h

/-- Bytes that are bits are appended as a bit sequence (R221). -/
theorem overBytes_appendSrcBit {c : Config} {vs : List Byte} (h : ∀ v ∈ vs, v.toNat ≤ 1) (i : Nat) (b : BitBuffer) :
    overBytes (appendSrcBit c) i vs b = appendBits c (vs.map fun v => decide (v = 1)) b := by
  induction vs generalizing i b with
  | nil => rfl
  | cons v vs ih =>
    rw [overBytes, List.map_cons, appendBits, appendSrcBit_of_le (h v (.head _))]
    congr 1
    funext b'
    exact ih (fun w hw => h w (.tail _ hw)) (i + 1) b'

theorem forall_mem_bytesAt {m : Memory} {a n : Nat} {P : Byte → Prop} :
    (∀ v ∈ bytesAt m a n, P v) ↔ ∀ j < n, P (m.read (a + j)) := by
  simp [bytesAt]

section
variable {s : State} {b : BitBuffer} {k : Nat}

/-- The loop of `BB_APPEND_MANY` over source bytes that can be read, are bits and fit (R221). -/
theorem forSrc_appendSrcBit (hb : b.legal s.cfg) (hr : sourceReadableTo s k)
    (hbit : ∀ v ∈ bytesAt s.mem s.ops.srcAddr.toNat k, v.toNat ≤ 1) (hfit : b.n + k ≤ 8 * s.cfg.capBytes) :
    ∃ b', forSrc s (appendSrcBit s.cfg) 0 k b = .ok b' ∧
      b'.bits = b.bits ++ (bytesAt s.mem s.ops.srcAddr.toNat k).map (fun v => decide (v = 1)) ∧
      b'.n = b.n + k ∧ b'.legal s.cfg := by
  rw [forSrc_readableTo hr, overBytes_appendSrcBit hbit]
  obtain ⟨b', happ, hbits, hn, -⟩ := appendBits_room (c := s.cfg)
    (ts := (bytesAt s.mem s.ops.srcAddr.toNat k).map fun v => decide (v = 1)) hb.2 (by simpa using hfit)
  exact ⟨b', happ, hbits, by simpa using hn, appendBits_legal happ hb⟩

/-! ## The bodies, with a buffer -/

theorem body_bbAppendBit (hb : s.bb = some b) : body .bbAppendBit s = (do
    let t ← bitOperand s
    let b' ← appendBit s.cfg t b
    .ok ((s.setBb (some b')).setResult0 (word b'.n))) := by
  rw [body, bbAppendBitBody, hb, require_some, ok_bind]

theorem body_bbAppendMany (hr : regionOk s.cfg s.ops.srcAddr s.ops.srcLen = true) (hb : s.bb = some b) :
    body .bbAppendMany s = (do
      let b' ← forSrc s (appendSrcBit s.cfg) 0 s.ops.srcLen.toNat b
      .ok ((s.setBb (some b')).setResult0 (word b'.n))) := by
  rw [body, bbAppendManyBody, checkBuffers_of_regionOk (by decide) (fun _ => hr) (fun h => absurd h (by decide)), ok_bind,
    hb, require_some, ok_bind]

theorem body_bbStore (hr : regionOk s.cfg s.ops.dstAddr s.ops.dstCap = true) (hb : s.bb = some b) :
    body .bbStore s = emit s b.storage := by
  rw [body, bbStoreBody, checkBuffers_of_regionOk (by decide) (fun h => absurd h (by decide)) (fun _ => hr), ok_bind, hb,
    require_some, ok_bind]

theorem body_bbGetBit_of_lt (hb : s.bb = some b) (h : s.ops.arg0.toNat < b.n) : body .bbGetBit s =
    .ok (s.setResults (bit ((b.st.getD (s.ops.arg0.toNat / 8) 0).getLsbD (s.ops.arg0.toNat % 8))) 1) := by
  rw [body, bbGetBitBody, hb, require_some, ok_bind, bitIndexOperand, BitBuffer.getBit_of_lt h]

/-- An index past the bit count is absent (R212). -/
theorem body_bbGetBit_of_le (hb : s.bb = some b) (h : b.n ≤ s.ops.arg0.toNat) :
    body .bbGetBit s = .ok (s.setResults 0 0) := by
  rw [body, bbGetBitBody, hb, require_some, ok_bind, bitIndexOperand, BitBuffer.getBit, if_pos h]

theorem body_bbLength (hb : s.bb = some b) : body .bbLength s = .ok (s.setResults (word b.n) (word (ceil8 b.n))) := by
  rw [body, bbLengthBody, hb, require_some, ok_bind]

/-- The storage bytes of a legal buffer are all it holds (R70). -/
theorem BitBuffer.storage_of_shaped (h : b.shaped) : b.storage = b.st :=
  List.take_of_length_le h.1.le

/-- A command that needs the bit buffer alone ends with `NOT_READY(4)` without one, once its region checks pass (R78). -/
theorem endsWith_notReady_bb {i : Instr} (hi : needs i = [.bb]) (hb : s.bb = none)
    (hs : i ∈ srcReaders → regionOk s.cfg s.ops.srcAddr s.ops.srcLen = true)
    (hd : i ∈ dstWriters → regionOk s.cfg s.ops.dstAddr s.ops.dstCap = true) : endsWith i s .notReady 4 := by
  have harg : i ∉ [.freqWrite, .freqRemove, .freqRead, .lutRead] := by revert hi; cases i <;> decide
  have hmissing : (needs i).find? (fun q => !s.valid q) = some .bb := by rw [hi]; simp [State.valid, hb]
  exact missingStructureIsNotReady.1 i s .bb hmissing (fun h => absurd h harg) (fun h => absurd (by simp [h]) harg) hs hd

end

/-! ## The statements -/

/-- Settles O17: `AppendBit` of the operand, on a buffer with room, on a full one, or not at all. -/
theorem appendBitExtendsTheBits : Obligations.AppendBitExtendsTheBits := by
  intro s
  refine ⟨fun hb => endsWith_notReady_bb rfl hb (fun h => absurd h (by decide)) (fun h => absurd h (by decide)),
    fun b hb hlegal => ⟨fun harg hroom => ?_, fun harg => endsWith_of_body ?_, fun harg hfull => endsWith_of_body ?_⟩⟩
  · have happ := appendBit_room (t := decide (s.ops.arg0 = 1)) hroom
    have hbody := body_bbAppendBit hb
    rw [bitOperand_of_le harg, ok_bind, happ, ok_bind] at hbody
    exact ⟨_, exec_of_body hbody, BitBuffer.bits_push _ hlegal.2, BitBuffer.push_n _ _, appendBit_legal happ hlegal.2⟩
  · rw [body_bbAppendBit hb, bitOperand_invalid harg, error_bind]
  · rw [body_bbAppendBit hb, bitOperand_of_le harg, ok_bind, appendBit_full hfull, error_bind]

/-- Settles O18: the loop over the first source bytes appends them, and ends at the next one if that cannot be read, is no
bit or does not fit. -/
theorem appendManyExtendsTheBits : Obligations.AppendManyExtendsTheBits := by
  intro s
  refine ⟨fun hr => endsWith_of_body (body_of_checkBuffers (.inl (by decide)) (checkBuffers_source (by decide) hr)),
    fun hr hb => endsWith_notReady_bb rfl hb (fun _ => hr) (fun h => absurd h (by decide)),
    fun b hb hlegal hr => ⟨fun hread hbit hfit => ?_, fun k hk hread hbit hfit => ?_⟩⟩
  · obtain ⟨b', happ, hbits, hn, hlegal'⟩ := forSrc_appendSrcBit hlegal hread.2 hbit hfit
    have hbody := body_bbAppendMany hr hb
    rw [happ, ok_bind] at hbody
    exact ⟨b', exec_of_body hbody, hbits, hn, hlegal'⟩
  · obtain ⟨b', happ, -, hn, -⟩ := forSrc_appendSrcBit hlegal hread (forall_mem_bytesAt.2 hbit) hfit
    have hstop {code : ErrCode} {info : Word} (he : srcByte s k = .error ⟨code, info⟩ ∨
        ∃ v, srcByte s k = .ok v ∧ appendSrcBit s.cfg k v b' = .error ⟨code, info⟩) :
        endsWith .bbAppendMany s code info := by
      refine endsWith_of_body ?_
      rw [body_bbAppendMany hr hb, forSrc_stops hk happ he, error_bind]
    refine ⟨fun hhole => hstop (.inl (srcByte_hole hhole)),
      fun hans hinv => hstop (.inr ⟨_, srcByte_answers hans, appendSrcBit_invalid hinv⟩),
      fun hans hle hfull => hstop (.inr ⟨_, srcByte_answers hans, ?_⟩)⟩
    rw [appendSrcBit_of_le hle, appendBit_full (hfull.symm.trans hn.symm).le]

/-- Settles O20: the storage bytes of a legal buffer, emitted as every byte string is. -/
theorem bitBufferIsStored : Obligations.BitBufferIsStored := by
  intro s
  refine ⟨fun hr => endsWith_of_body
      (body_of_checkBuffers (.inr (by decide)) (checkBuffers_dest (by decide) (fun h => absurd h (by decide)) hr)),
    fun hr hb => endsWith_notReady_bb rfl hb (fun h => absurd h (by decide)) (fun _ => hr),
    fun b hb hlegal hwf hr => ?_⟩
  have hbody : body .bbStore s = emit s b.st := by rw [body_bbStore hr hb, BitBuffer.storage_of_shaped hlegal.2]
  have hlen : b.st.length = (b.n + 7) / 8 := hlegal.2.1
  rw [← hlen]
  refine ⟨fun hw => ?_, fun hcap hto => ?_, fun k hk hcap hto he => ?_⟩
  · obtain ⟨u, hu⟩ := emit_writable hw
    obtain ⟨hu', -, hwrote⟩ := emit_ok hu hwf
    exact ⟨_, exec_of_body (hbody.trans hu), hwrote, by rw [hu']; rfl⟩
  · exact endsWith_of_body (hbody.trans (emit_overflow hcap hto))
  · exact endsWith_of_body (hbody.trans (emit_hole hk hcap hto he))

/-- Settles O19: `GetBit` within and past the bit count, and the two lengths. -/
theorem bitBufferReads : Obligations.BitBufferReads := by
  refine fun s => ⟨fun hb => ⟨?_, ?_⟩, fun b hb => ⟨fun h => ?_, fun h => ?_, ?_⟩⟩
  · exact endsWith_notReady_bb rfl hb (fun h => absurd h (by decide)) (fun h => absurd h (by decide))
  · exact endsWith_notReady_bb rfl hb (fun h => absurd h (by decide)) (fun h => absurd h (by decide))
  · exact exec_of_body (body_bbGetBit_of_lt hb h)
  · exact exec_of_body (body_bbGetBit_of_le hb h)
  · exact exec_of_body (body_bbLength hb)

end Sys2Proof.Machine

/-! # The frequency commands

`FREQ_COUNT` leaves the table of the source bytes; the entry commands pass their two checks and then change or read the
entry of their byte value (42_frequency.md R252 to R260). -/

namespace Sys2Proof.Machine

/-! ## Counting the source -/

/-- A counted table has as many present entries as the source has distinct bytes (R51, R252). -/
theorem FreqTable.size_ofBytes (bs : List Byte) : FreqTable.size (FreqTable.ofBytes bs) = bs.dedup.length :=
  (List.length_map _).symm.trans (FreqTable.entries_ofBytes_perm bs).length_eq

theorem body_freqCount {s : State} (hr : regionOk s.cfg s.ops.srcAddr s.ops.srcLen = true) :
    body .freqCount s = freqCountBody s := by
  rw [body, checkBuffers_of_regionOk (by decide) (fun _ => hr) (fun h => absurd h (by decide)), ok_bind]

/-- Settles O21: the region check, then the counting loop over the whole source or up to the first byte not answered. -/
theorem freqCountCountsTheSource : Obligations.FreqCountCountsTheSource := by
  intro s
  refine ⟨fun hr => endsWith_of_body (body_of_checkBuffers (.inl (by decide)) (checkBuffers_source (by decide) hr)),
    fun hread => ⟨FreqTable.ofBytes (sourceBytes s), ?_, FreqTable.entry_ofBytes _⟩,
    fun hr k hk hread hhole => endsWith_of_body ((body_freqCount hr).trans (freqCountBody_hole hk hread hhole))⟩
  have hbody := (body_freqCount hread.1).trans (freqCountBody_readable hread)
  rw [FreqTable.size_ofBytes] at hbody
  exact exec_of_body hbody

/-! ## The entry commands -/

section
variable {s : State} {ft : FreqTable}

theorem byteOperand_range (h : 255 < s.ops.arg0.toNat) : byteOperand s = .error ⟨.argRange, s.ops.arg0⟩ := if_pos h

/-- The byte value of an operand in range is the one with its number (R144). -/
theorem eq_setWidth_iff_toNat {w : Word} (h : w.toNat ≤ 255) {b : Byte} : b = w.setWidth 8 ↔ b.toNat = w.toNat := by
  rw [← BitVec.toNat_inj, BitVec.toNat_setWidth, Nat.mod_eq_of_lt (Nat.lt_succ_of_le h)]

/-- The operand's range is the first check of the entry commands (R256, R258, R260). -/
theorem endsWith_argRange_of_entry {i : Instr} (hi : i ∈ [.freqWrite, .freqRemove, .freqRead])
    (h : 255 < s.ops.arg0.toNat) : endsWith i s .argRange s.ops.arg0 := by
  refine endsWith_of_body ?_
  cases i
  case freqWrite => rw [body, freqWriteBody, byteOperand_range h, error_bind]
  case freqRemove => rw [body, freqRemoveBody, byteOperand_range h, error_bind]
  case freqRead => rw [body, freqReadBody, byteOperand_range h, error_bind]
  all_goals exact absurd hi (by decide)

/-- The presence of the table is their second check (R78). -/
theorem endsWith_notReady_of_entry {i : Instr} (hi : i ∈ [.freqWrite, .freqRemove, .freqRead])
    (h : s.ops.arg0.toNat ≤ 255) (hft : s.ft = none) : endsWith i s .notReady 0 := by
  have hi' : needs i = [.ft] ∧ i ≠ .lutRead ∧ i ∉ srcReaders ∧ i ∉ dstWriters := by revert hi; cases i <;> decide
  obtain ⟨hneeds, hlut, hsrc, hdst⟩ := hi'
  have hmissing : (needs i).find? (fun q => !s.valid q) = some .ft := by rw [hneeds]; simp [State.valid, hft]
  exact missingStructureIsNotReady.1 i s .ft hmissing (fun _ => h) (absurd · hlut) (absurd · hsrc) (absurd · hdst)

theorem body_freqWrite (h : s.ops.arg0.toNat ≤ 255) (hft : s.ft = some ft) : body .freqWrite s =
    .ok (s.setFt (some (FreqTable.put ft (s.ops.arg0.setWidth 8) (some s.ops.arg1)))) := by
  rw [body, freqWriteBody, byteOperand_of_le h, ok_bind, hft, require_some, ok_bind, countOperand]

theorem body_freqRemove (h : s.ops.arg0.toNat ≤ 255) (hft : s.ft = some ft) : body .freqRemove s =
    .ok (s.setFt (some (FreqTable.put ft (s.ops.arg0.setWidth 8) none))) := by
  rw [body, freqRemoveBody, byteOperand_of_le h, ok_bind, hft, require_some, ok_bind]

theorem body_freqRead (h : s.ops.arg0.toNat ≤ 255) (hft : s.ft = some ft) {b : Byte} (hb : b.toNat = s.ops.arg0.toNat)
    {c : Option Word} (hc : FreqTable.entry ft b = c) :
    body .freqRead s = .ok (s.setResults (c.getD 0) (bit c.isSome)) := by
  rw [body, freqReadBody, byteOperand_of_le h, ok_bind, hft, require_some, ok_bind,
    ← (eq_setWidth_iff_toNat h).2 hb, hc]

/-- Replacing the entry of an operand in range changes the entry with its number alone. -/
theorem FreqTable.entry_put_setWidth {w : Word} (h : w.toNat ≤ 255) (t : FreqTable) (c : Option Word) (b : Byte) :
    FreqTable.entry (FreqTable.put t (w.setWidth 8) c) b = if b.toNat = w.toNat then c else FreqTable.entry t b := by
  simp only [FreqTable.entry_put, eq_setWidth_iff_toNat h]

end

/-- Settles O22: the two checks in their order, then one entry put or read. -/
theorem frequencyEntriesAreSetAndRead : Obligations.FrequencyEntriesAreSetAndRead := by
  refine fun s => ⟨fun h => ⟨?_, ?_, ?_⟩, fun h => ⟨fun hft => ⟨?_, ?_, ?_⟩, fun ft hft => ⟨?_, ?_, ?_, ?_⟩⟩⟩
  · exact endsWith_argRange_of_entry (by decide) h
  · exact endsWith_argRange_of_entry (by decide) h
  · exact endsWith_argRange_of_entry (by decide) h
  · exact endsWith_notReady_of_entry (by decide) h hft
  · exact endsWith_notReady_of_entry (by decide) h hft
  · exact endsWith_notReady_of_entry (by decide) h hft
  · exact ⟨_, exec_of_body (body_freqWrite h hft), FreqTable.entry_put_setWidth h ft (some s.ops.arg1)⟩
  · exact ⟨_, exec_of_body (body_freqRemove h hft), FreqTable.entry_put_setWidth h ft none⟩
  · exact fun b c hb hc => exec_of_body (body_freqRead h hft hb hc)
  · exact fun b hb hc => exec_of_body (body_freqRead h hft hb hc)

end Sys2Proof.Machine

/-! # The tree builder's commands

`TREE_BUILD` answers the tree of the table or the overflow of its counts; each node of that tree is over the two least nodes
of the working set; `NODE_READ` reads a node's fields (43_tree.md R282 to R300). -/

namespace Sys2Proof.Machine

/-! ## `TREE_BUILD` (R288, R290) -/

theorem treeBuildBody_error {s : State} {ft : FreqTable} {e : CmdError} (hft : s.ft = some ft) (h : build ft = .error e) :
    treeBuildBody s = .error e := by
  rw [treeBuildBody, hft, require_some, ok_bind, h, error_bind]

/-- Settles O23: the body of `TREE_BUILD` for each answer of `Build()`. -/
theorem treeBuildAnswersTheTree : Obligations.TreeBuildAnswersTheTree := by
  refine fun s => ⟨fun hft => endsWith_of_body ?_, fun ft hft => ⟨fun hempty => ?_, fun hne hsum => ?_, fun hsum => ?_⟩⟩
  · rw [body, treeBuildBody, hft, require_none, error_bind, Struct.number]
  · exact exec_of_body (i := .treeBuild) (treeBuildBody_none hft (build_empty (FreqTable.size_eq_zero_iff.2 hempty)))
  · have hsize : FreqTable.size ft ≠ 0 := fun h0 => hne.elim fun b hb => hb (FreqTable.size_eq_zero_iff.1 h0 b)
    obtain ⟨t, hbuild, hleaf, -, -⟩ := build_fits hsize hsum
    refine ⟨t, hbuild, ?_⟩
    rw [← hleaf]
    exact exec_of_body (i := .treeBuild) (treeBuildBody_some hft hbuild)
  · obtain ⟨slot, hbuild, hlo, hhi⟩ := build_overflows hsum (two_le_size_of_totalCount hsum)
    exact ⟨slot, hlo, hhi, endsWith_of_body (treeBuildBody_error hft hbuild)⟩

/-! ## `NODE_READ` (R300) -/

/-- A slot index in a word from bit `n` up. -/
theorem toNat_slot_shift (x : BitVec 9) {n : Nat} (hn : n ≤ 55) :
    (x.setWidth 64 <<< n : Word).toNat = x.toNat * 2 ^ n := by
  have hpow : 2 ^ n ≤ 2 ^ 55 := Nat.pow_le_pow_right (by decide) hn
  have hlt : x.toNat * 2 ^ n < 2 ^ 64 := Nat.mul_lt_mul_of_lt_of_le (c := 2 ^ 9) x.isLt hpow (by decide)
  rw [BitVec.toNat_shiftLeft, BitVec.toNat_setWidth_of_le (by decide), Nat.shiftLeft_eq, Nat.mod_eq_of_lt hlt]

/-- The fields of the second word of a node as numbers (R300). -/
theorem Node.linkWord_eq (x : Node) : x.linkWord = BitVec.ofNat 64
    (x.isInternal.toNat + x.minByte.toNat * 2 ^ 8 + x.left.toNat * 2 ^ 16 + x.right.toNat * 2 ^ 32) := by
  have hkind : (bit x.isInternal).toNat = x.isInternal.toNat := by cases x <;> rfl
  have hbyte := toNat_byte_shift x.minByte
  have hleft := toNat_slot_shift x.left (n := 16) (by decide)
  have hright := toNat_slot_shift x.right (n := 32) (by decide)
  have := x.isInternal.toNat_le; have := x.minByte.isLt; have := x.left.isLt
  have h1 : (bit x.isInternal ||| x.minByte.setWidth 64 <<< 8).toNat = x.isInternal.toNat + x.minByte.toNat * 2 ^ 8 := by
    rw [toNat_or_disjoint 8 (by omega) (by omega), hkind, hbyte]
  have h2 : (bit x.isInternal ||| x.minByte.setWidth 64 <<< 8 ||| x.left.setWidth 64 <<< 16).toNat =
      x.isInternal.toNat + x.minByte.toNat * 2 ^ 8 + x.left.toNat * 2 ^ 16 := by
    rw [toNat_or_disjoint 16 (by omega) (by omega), h1, hleft]
  have h3 : x.linkWord.toNat =
      x.isInternal.toNat + x.minByte.toNat * 2 ^ 8 + x.left.toNat * 2 ^ 16 + x.right.toNat * 2 ^ 32 := by
    rw [linkWord, toNat_or_disjoint 32 (by omega) (by omega), h2, hright]
  rw [← h3, BitVec.ofNat_toNat, BitVec.setWidth_eq]

theorem Node.linkWord_leaf (b : Byte) (c : Word) : (Node.leaf b c).linkWord = BitVec.ofNat 64 (b.toNat * 2 ^ 8) := by
  rw [Node.linkWord_eq]
  simp [Node.isInternal, Node.minByte, Node.left, Node.right]

theorem Node.linkWord_internal (l r : BitVec 9) (c : Word) (m : Byte) : (Node.internal l r c m).linkWord =
    BitVec.ofNat 64 (1 + m.toNat * 2 ^ 8 + l.toNat * 2 ^ 16 + r.toNat * 2 ^ 32) :=
  Node.linkWord_eq _

theorem body_nodeRead {s : State} {t : Tree} (ht : s.tree = some t) :
    body .nodeRead s = (do
      let i ← indexOperand s t.root
      .ok (s.setResults (t.node i).count (t.node i).linkWord)) := by
  rw [body, nodeReadBody, ht, require_some, ok_bind]

/-- Settles O26: the two checks in their order, then the fields of a leaf and of an internal node. -/
theorem nodesAreReadBack : Obligations.NodesAreReadBack := by
  refine fun s => ⟨fun ht => endsWith_of_body ?_, fun t ht => ⟨fun hi => endsWith_of_body ?_, fun hi => ?_⟩⟩
  · rw [body, nodeReadBody, ht, require_none, error_bind, Struct.number]
  · rw [body_nodeRead ht, indexOperand, if_pos (show t.root < s.ops.arg0.toNat from hi), error_bind]
  · have hbody := body_nodeRead ht
    rw [indexOperand, if_neg (show ¬ t.root < s.ops.arg0.toNat from Nat.not_lt.2 hi), ok_bind] at hbody
    refine ⟨fun b c hnode => ?_, fun l r c m hnode => ?_⟩
    · rw [hnode, Node.linkWord_leaf] at hbody
      exact exec_of_body hbody
    · rw [hnode, Node.linkWord_internal] at hbody
      exact exec_of_body hbody

/-! ## The working set (R283, R286) -/

theorem extractLeast_before {w rest : List (Nat × Node)} {m : Nat × Node} (hb : (w.map fun p => p.2.minByte).Nodup)
    (h : extractLeast w = some (m, rest)) : ∀ x ∈ rest, Node.before m.2 x.2 = true := by
  intro x hx
  have hnd := ((extractLeast_perm h).map fun p => p.2.minByte).nodup_iff.1 hb
  have hne : m.2.minByte ≠ x.2.minByte := fun he => (List.nodup_cons.1 hnd).1 (List.mem_map.2 ⟨x, hx, he.symm⟩)
  refine (Node.before_total hne).resolve_right ?_
  rw [extractLeast_least h x hx]
  exact Bool.false_ne_true

/-- The list `w` is the working set when slot `k` is made: its slots with their nodes, with pairwise different minimum bytes
(R283, R286). -/
structure Tree.WorkingSet (t : Tree) (k : Nat) (w : List (Nat × Node)) : Prop where
  mem_iff : ∀ p : Nat × Node, p ∈ w ↔ t.inSet k p.1 ∧ t.node p.1 = p.2
  bytes_nodup : (w.map fun p => p.2.minByte).Nodup

theorem Tree.WorkingSet.eq_of_fst {t : Tree} {k : Nat} {w : List (Nat × Node)} (hw : t.WorkingSet k w) {p q : Nat × Node}
    (hp : p ∈ w) (hq : q ∈ w) (h : p.1 = q.1) : p = q :=
  Prod.ext h (by rw [← ((hw.mem_iff p).1 hp).2, ← ((hw.mem_iff q).1 hq).2, h])

/-- Slot `k` is made over the two least nodes of its working set, the least on the left (R283, R284). -/
def Tree.mergesLeastTwo (t : Tree) (k : Nat) : Prop :=
  ∃ w w₁ w₂ a b, t.WorkingSet k w ∧ extractLeast w = some (a, w₁) ∧ extractLeast w₁ = some (b, w₂) ∧
    t.node k = mergeNodes a b

section
variable {ft : FreqTable} {t : Tree}

/-- Making slot `k` takes its children out of the working set and puts the slot in (R283). -/
theorem inSet_succ (h : build ft = .ok (some t)) {k : Nat} (hk : t.nleaf ≤ k) (hk' : k < 2 * t.nleaf - 1) {j : Nat} :
    t.inSet (k + 1) j ↔ j = k ∨ (t.inSet k j ∧ ¬ t.childOf k j) := by
  simp only [Tree.inSet, Tree.childOf, ← not_or]
  constructor
  · rintro ⟨hj, hno⟩
    by_cases hjk : j = k
    · exact .inl hjk
    · exact .inr ⟨⟨by omega, fun i hi hik => hno i hi (by omega)⟩, hno k hk (by omega)⟩
  · rintro (rfl | ⟨⟨hj, hno⟩, hnk⟩)
    · refine ⟨by omega, fun i hi hij hc => ?_⟩
      have := build_child_lt h hi (by omega) hc
      omega
    · refine ⟨by omega, fun i hi hik => ?_⟩
      rcases Nat.lt_succ_iff_lt_or_eq.1 hik with hlt | rfl
      · exact hno i hi hlt
      · exact hnk

/-- The children of a merge of two nodes of the working set are their slots. -/
theorem childOf_mergeNodes (h : build ft = .ok (some t)) {k : Nat} (hk' : k < 2 * t.nleaf - 1) {a b : Nat × Node}
    (ha : t.inSet k a.1) (hb : t.inSet k b.1) (hnode : t.node k = mergeNodes a b) :
    (t.node k).left.toNat = a.1 ∧ (t.node k).right.toNat = b.1 := by
  have h256 := (build_nleaf_range h).2
  have := ha.1
  have := hb.1
  rw [hnode]
  exact mergeNodes_children (by omega) (by omega)

/-- A merge of the two least nodes keeps the working set's description (R283, R286). -/
theorem Tree.WorkingSet.merge (h : build ft = .ok (some t)) {k : Nat} (hk : t.nleaf ≤ k) (hk' : k < 2 * t.nleaf - 1)
    {w w₂ : List (Nat × Node)} {a b : Nat × Node} (hw : t.WorkingSet k w) (hp : w.Perm (a :: b :: w₂))
    (hnode : t.node k = mergeNodes a b) : t.WorkingSet (k + 1) ((k, mergeNodes a b) :: w₂) := by
  have hbytes := (hp.map fun p => p.2.minByte).nodup_iff.1 hw.bytes_nodup
  simp only [List.map_cons, List.nodup_cons, List.mem_cons, not_or] at hbytes
  obtain ⟨⟨hab, ha₂⟩, hb₂, hw₂⟩ := hbytes
  have ha : a ∈ w := hp.mem_iff.2 (.head _)
  have hb : b ∈ w := hp.mem_iff.2 (.tail _ (.head _))
  obtain ⟨hl, hr⟩ := childOf_mergeNodes h hk' ((hw.mem_iff a).1 ha).1 ((hw.mem_iff b).1 hb).1 hnode
  constructor
  · intro p
    rw [List.mem_cons, inSet_succ h hk hk', Tree.childOf, hl, hr]
    constructor
    · rintro (rfl | hp₂)
      · exact ⟨.inl rfl, hnode⟩
      · have hpw : p ∈ w := hp.mem_iff.2 (.tail _ (.tail _ hp₂))
        obtain ⟨hin, hn⟩ := (hw.mem_iff p).1 hpw
        refine ⟨.inr ⟨hin, ?_⟩, hn⟩
        have hmem : p.2.minByte ∈ w₂.map fun p => p.2.minByte := List.mem_map.2 ⟨p, hp₂, rfl⟩
        rintro (he | he)
        · exact ha₂ (hw.eq_of_fst ha hpw he ▸ hmem)
        · exact hb₂ (hw.eq_of_fst hb hpw he ▸ hmem)
    · rintro ⟨hpk | ⟨hin, hno⟩, hn⟩
      · exact .inl (Prod.ext hpk (by rw [← hn, hpk, hnode]))
      · rcases List.mem_cons.1 (hp.mem_iff.1 ((hw.mem_iff p).2 ⟨hin, hn⟩)) with rfl | hp'
        · exact absurd (.inl rfl) hno
        rcases List.mem_cons.1 hp' with rfl | hp₂
        · exact absurd (.inr rfl) hno
        · exact .inr hp₂
  · rw [List.map_cons, List.nodup_cons]
    refine ⟨?_, hw₂⟩
    have hmin : (mergeNodes a b).minByte = a.2.minByte ∨ (mergeNodes a b).minByte = b.2.minByte := ite_eq_or_eq ..
    rcases hmin with he | he <;> rw [he]
    · exact ha₂
    · exact hb₂

/-- A run that starts from a working set of the tree makes each of its slots over the two least nodes (R283). -/
theorem MergeRun.mergesLeastTwo (h : build ft = .ok (some t)) {w : List (Nat × Node)} {next : Nat} {ns : List Node}
    (hrun : MergeRun w next ns) (hlo : t.nleaf ≤ next) (hhi : next + ns.length ≤ 2 * t.nleaf - 1)
    (hns : ∀ i (hi : i < ns.length), t.node (next + i) = ns[i]) (hw : t.WorkingSet next w) {k : Nat} (hk : next ≤ k)
    (hk' : k < next + ns.length) : t.mergesLeastTwo k := by
  induction hrun with
  | done x next => simp only [List.length_nil] at hk'; omega
  | @merge w w₁ w₂ a b next ns ha hb _ _ ih =>
    rw [List.length_cons] at hhi hk'
    have hnode : t.node next = mergeNodes a b := hns 0 (Nat.succ_pos _)
    rcases Nat.eq_or_lt_of_le hk with rfl | hlt
    · exact ⟨w, w₁, w₂, a, b, hw, ha, hb, hnode⟩
    · refine ih (by omega) (by omega) (fun i hi => ?_)
        (hw.merge h hlo (by omega) (extract_two_perm ha hb) hnode) hlt (by omega)
      have := hns (i + 1) (Nat.succ_lt_succ hi)
      rwa [List.getElem_cons_succ, show next + (i + 1) = next + 1 + i by omega] at this

theorem withSlots_snd (l : List Node) : (withSlots l).map Prod.snd = l := by
  rw [withSlots, List.map_map]
  exact List.zipIdx_map_fst 0 l

theorem mem_withSlots {l : List Node} {p : Nat × Node} : p ∈ withSlots l ↔ l[p.1]? = some p.2 := by
  refine ⟨holdsSet_withSlots l p, fun hp => ?_⟩
  exact List.mem_map.2 ⟨(p.2, p.1), List.mem_zipIdx_iff_getElem?.2 hp, rfl⟩

theorem build_seed_getElem? (h : build ft = .ok (some t)) {j : Nat} (hj : j < t.nleaf) :
    (seedLeaves ft)[j]? = some (t.node j) := by
  have hj' : j < (FreqTable.entries ft).length := by rwa [build_nleaf h] at hj
  rw [build_leaf h hj', seedLeaves, List.getElem?_map, List.getElem?_eq_getElem hj']
  rfl

/-- The leaves are the working set when the first internal node is made (R281). -/
theorem workingSet_seed (h : build ft = .ok (some t)) : t.WorkingSet t.nleaf (withSlots (seedLeaves ft)) := by
  have hset (j : Nat) : t.inSet t.nleaf j ↔ j < t.nleaf := ⟨fun hj => hj.1, fun hj => ⟨hj, fun i hi hi' => by omega⟩⟩
  constructor
  · intro p
    rw [mem_withSlots, hset]
    constructor
    · intro hp
      have hlt : p.1 < t.nleaf := by
        rw [build_nleaf h, ← seedLeaves_length]
        exact (List.getElem?_eq_some_iff.1 hp).1
      rw [build_seed_getElem? h hlt] at hp
      exact ⟨hlt, Option.some.inj hp⟩
    · rintro ⟨hlt, hn⟩
      rw [build_seed_getElem? h hlt, hn]
  · have hbytes : (withSlots (seedLeaves ft)).map (fun p => p.2.minByte) = (FreqTable.entries ft).map Prod.fst := by
      calc (withSlots (seedLeaves ft)).map (fun p => p.2.minByte)
          = ((withSlots (seedLeaves ft)).map Prod.snd).map Node.minByte := by rw [List.map_map]; rfl
        _ = (FreqTable.entries ft).map Prod.fst := by rw [withSlots_snd, seedLeaves, List.map_map]; rfl
    rw [hbytes]
    exact (codes_fst_perm h).nodup_iff.1 (codes_nodup h)

/-- Every internal node of a built tree is made over the two least nodes of its working set (R283, R284). -/
theorem build_mergesLeastTwo (h : build ft = .ok (some t)) {k : Nat} (hk : t.nleaf ≤ k) (hk' : k < 2 * t.nleaf - 1) :
    t.mergesLeastTwo k := by
  have hlen := build_length h
  have hdrop : t.nleaf + (t.nodes.drop t.nleaf).length = 2 * t.nleaf - 1 := by rw [List.length_drop]; omega
  exact (build_run_drop h).mergesLeastTwo h (Nat.le_refl _) (by omega) (fun i hi => (Tree.node_drop _ hi).symm)
    (workingSet_seed h) hk (by omega)

end

/-- Settles O25: what `mergesLeastTwo` says of a slot, read off the two extractions. -/
theorem leastTwoAreMerged : Obligations.LeastTwoAreMerged := by
  refine ⟨fun p q => by rw [Node.before_iff, BitVec.toNat_inj], fun ft t h k hk hk' => ?_⟩
  obtain ⟨w, w₁, w₂, a, b, hw, ha, hb, hnode⟩ := build_mergesLeastTwo h hk hk'
  have hp := extract_two_perm ha hb
  have hmem {j : Nat} (hj : t.inSet k j) : (j, t.node j) ∈ w := (hw.mem_iff _).2 ⟨hj, rfl⟩
  obtain ⟨hina, hna⟩ := (hw.mem_iff a).1 (hp.mem_iff.2 (.head _))
  obtain ⟨hinb, hnb⟩ := (hw.mem_iff b).1 (hp.mem_iff.2 (.tail _ (.head _)))
  obtain ⟨hl, hr⟩ := childOf_mergeNodes h hk' hina hinb hnode
  have hbytes₁ := (List.nodup_cons.1 (((extractLeast_perm ha).map fun p => p.2.minByte).nodup_iff.1 hw.bytes_nodup)).2
  rw [hl, hr, hna, hnb]
  refine ⟨fun i j hi hj hij he => ?_, hina, hinb, ?_, fun j hj hja hjb => ?_⟩
  · exact hij (congrArg Prod.fst (List.inj_on_of_nodup_map hw.bytes_nodup (hmem hi) (hmem hj) he))
  · exact extractLeast_before hw.bytes_nodup ha b ((extractLeast_perm hb).mem_iff.2 (.head _))
  · refine extractLeast_before hbytes₁ hb (j, t.node j) ?_
    rcases List.mem_cons.1 (hp.mem_iff.1 (hmem hj)) with he | hj'
    · exact absurd (congrArg Prod.fst he) hja
    · exact (List.mem_cons.1 hj').resolve_left fun he => hjb (congrArg Prod.fst he)

end Sys2Proof.Machine

/-! # The encode and decode maps

The codes of a built tree are the paths to its leaves: none begins with another, and every bit sequence runs along one.
`ENCMAP_GEN` leaves them as the look-up table that `LUT_READ` reads, `DECMAP_GEN` as the machine that decodes them
(44_codemaps.md R320 to R345). -/

namespace Sys2Proof.Machine

/-! ## Codes as paths (R320 to R322) -/

/-- Settles O27: the code of a single leaf, and the paths from the root. -/
theorem codesAreRootToLeafPaths : Obligations.CodesAreRootToLeafPaths :=
  fun _ _ h _ _ => ⟨codeOf_single h, codeOf_eq_follow h⟩

section
variable {t : Tree}

/-- A path that ends in a leaf ends there: no longer path leads anywhere. -/
theorem Tree.follow_append_leaf {i : Nat} {p q : List Bool} {b : Byte} {c : Word} {x : Node}
    (hp : t.follow i p = some (.leaf b c)) (hpq : t.follow i (p ++ q) = some x) : q = [] ∧ x = .leaf b c := by
  induction p generalizing i with
  | nil =>
    rw [Tree.follow, Option.some.injEq] at hp
    cases q with
    | nil => rw [List.append_nil, Tree.follow, hp] at hpq; cases hpq; exact ⟨rfl, rfl⟩
    | cons d q => rw [List.nil_append, Tree.follow, hp] at hpq; cases hpq
  | cons d p ih =>
    rw [List.cons_append, Tree.follow] at hpq
    rw [Tree.follow] at hp
    cases hn : t.node i with
    | leaf b' c' => rw [hn] at hp; cases hp
    | internal l r c' m => rw [hn] at hp hpq; exact ih hp hpq

/-- From every slot some path to a leaf goes along a given bit sequence as far as either lasts: each child is at a lower
slot. -/
theorem Tree.follow_along (hd : t.descends) (i : Nat) (ts : List Bool) :
    ∃ p b c, t.follow i p = some (.leaf b c) ∧ (ts <+: p ∨ p <+: ts) := by
  induction i using Nat.strong_induction_on generalizing ts with
  | _ i ih =>
    cases hn : t.node i with
    | leaf b c => exact ⟨[], b, c, by rw [Tree.follow, hn], .inr List.nil_prefix⟩
    | internal l r c m =>
      obtain ⟨hl, hr⟩ := hd i l r c m hn
      cases ts with
      | nil =>
        obtain ⟨p, b, c, hp, -⟩ := ih l.toNat hl []
        exact ⟨false :: p, b, c, by rw [Tree.follow, hn]; exact hp, .inl List.nil_prefix⟩
      | cons d ts =>
        obtain ⟨p, b, c, hp, hts⟩ := ih (if d then r.toNat else l.toNat) (by split <;> assumption) ts
        exact ⟨d :: p, b, c, by rw [Tree.follow, hn]; exact hp, by simpa using hts⟩

variable {ft : FreqTable}

/-- No code begins with the code of another byte (R322). -/
theorem codeOf_prefix_eq (h : build ft = .ok (some t)) {b b' : Byte} {p p' : List Bool} (hp : codeOf t b = some p)
    (hp' : codeOf t b' = some p') (hpre : p <+: p') : b = b' := by
  obtain ⟨h1, -⟩ := build_nleaf_range h
  by_cases hone : t.nleaf = 1
  · exact ((codeOf_single h hone).1 hp).1.trans ((codeOf_single h hone).1 hp').1.symm
  · obtain ⟨c, hf⟩ := (codeOf_eq_follow h (by omega)).1 hp
    obtain ⟨c', hf'⟩ := (codeOf_eq_follow h (by omega)).1 hp'
    obtain ⟨q, rfl⟩ := hpre
    exact (Node.leaf.inj (Tree.follow_append_leaf hf hf').2).1.symm

/-- With two or more leaves some code goes along a given bit sequence as far as either lasts (R322). -/
theorem codeOf_along (h : build ft = .ok (some t)) (h2 : 2 ≤ t.nleaf) (ts : List Bool) :
    ∃ b p, codeOf t b = some p ∧ (ts <+: p ∨ p <+: ts) := by
  obtain ⟨p, b, c, hf, hts⟩ := Tree.follow_along (build_descends h) t.root ts
  exact ⟨b, p, (codeOf_eq_follow h h2).2 ⟨c, hf⟩, hts⟩

end

/-- Settles O28: the bytes listed are the table's; a path ends at its leaf, and some path goes along every bit sequence. -/
theorem codesAreACompletePrefixCode : Obligations.CodesAreACompletePrefixCode := fun _ _ h =>
  ⟨codes_nodup h, fun _ => codeOf_isSome h,
    fun _ _ hp => ⟨(codeOf_length h hp).1, (codeOf_length h hp).2, codeOf_length_le h hp⟩,
    fun _ _ _ _ hp hp' hne hpre => hne (codeOf_prefix_eq h hp hp' hpre),
    fun h2 => codeOf_along h h2⟩

/-! ## `ENCMAP_GEN` (R325) -/

section
variable {s : State}

/-- A command that needs the tree alone ends with `NOT_READY(1)` without one (R78). -/
theorem endsWith_notReady_tree {i : Instr} (hi : needs i = [.tree]) (ht : s.tree = none) : endsWith i s .notReady 1 := by
  have hother : i ∉ [.freqWrite, .freqRemove, .freqRead, .lutRead] ∧ i ∉ srcReaders ∧ i ∉ dstWriters := by
    revert hi; cases i <;> decide
  obtain ⟨harg, hsrc, hdst⟩ := hother
  have hmissing : (needs i).find? (fun q => !s.valid q) = some .tree := by rw [hi]; simp [State.valid, ht]
  exact missingStructureIsNotReady.1 i s .tree hmissing (absurd · harg) (fun h => absurd (by simp [h]) harg)
    (absurd · hsrc) (absurd · hdst)

theorem body_encmapGen {t : Tree} (ht : s.tree = some t) : body .encmapGen s =
    .ok ((s.setLut (some (genLut t))).setResults (word t.nleaf) (word (Lut.longest (genLut t)))) := by
  rw [body, encmapGenBody, ht, require_some, ok_bind]

end

/-- The bits of an entry past its code are 0 (R60, R325). -/
theorem genLut_getLsbD_past {ft : FreqTable} {t : Tree} (h : build ft = .ok (some t)) (v : Byte) {j : Nat}
    (hj : (Lut.entry (genLut t) v).len.toNat ≤ j) : (Lut.entry (genLut t) v).code.getLsbD j = false := by
  rw [(genLut_code h v).1] at hj
  rw [genLut_entry h]
  cases hc : codeOf t v with
  | none => exact BitVec.getLsbD_zero
  | some p =>
    rw [hc] at hj
    exact (LutEntry.ofCode_getLsbD (codeOf_length_le h hc) j).trans (List.getD_eq_default _ _ hj)

/-- Settles O29: the generated table and its longest code. -/
theorem encodeMapHoldsTheCodes : Obligations.EncodeMapHoldsTheCodes := by
  refine fun s => ⟨endsWith_notReady_tree rfl, fun t ht => ⟨genLut t, Lut.longest (genLut t),
    exec_of_body (body_encmapGen ht), (Lut.longest_spec _).1, (Lut.longest_spec _).2, fun ft h b => ?_⟩⟩
  obtain ⟨hlen, hbits⟩ := genLut_code h b
  exact ⟨hlen, hbits, fun _ => genLut_getLsbD_past h b⟩

/-! ## `LUT_READ` (R330) -/

/-- Bit `j` of code word `w` is code bit `64w + j`, 0 from bit 255 on (R330). -/
theorem LutEntry.codeWord_getLsbD (e : LutEntry) (w : Nat) {j : Nat} (hj : j < 64) :
    (e.codeWord w).getLsbD j = (decide (64 * w + j < 255) && e.code.getLsbD (64 * w + j)) := by
  rw [LutEntry.codeWord, BitVec.getLsbD_setWidth, BitVec.getLsbD_ushiftRight, decide_eq_true hj, Bool.true_and]
  by_cases hend : 64 * w + j < 255
  · rw [decide_eq_true hend, Bool.true_and]
  · rw [decide_eq_false hend, Bool.false_and, BitVec.getLsbD_of_ge _ _ (Nat.not_lt.1 hend)]

theorem body_lutRead {s : State} {l : Lut} (h0 : s.ops.arg0.toNat ≤ 255) (h1 : s.ops.arg1.toNat ≤ 3)
    (hl : s.lut = some l) : body .lutRead s =
      .ok (s.setResults (word (Lut.entry l (BitVec.ofNat 8 s.ops.arg0.toNat)).len.toNat)
        ((Lut.entry l (BitVec.ofNat 8 s.ops.arg0.toNat)).codeWord s.ops.arg1.toNat)) := by
  rw [body, lutReadBody, byteOperand_of_le h0, ok_bind, codeWordOperand_of_le h1, ok_bind, hl, require_some, ok_bind,
    word, BitVec.ofNat_toNat, BitVec.ofNat_toNat]

/-- Settles O30: the three checks in their order, then the length and one word of the code. -/
theorem codesAreReadBack : Obligations.CodesAreReadBack := by
  refine fun s => ⟨fun h0 => endsWith_of_body ?_, fun h0 h1 => endsWith_of_body ?_,
    fun h0 h1 => ⟨fun hl => ?_, fun l hl => ?_⟩⟩
  · rw [body, lutReadBody, byteOperand_range h0, error_bind]
  · rw [body, lutReadBody, byteOperand_of_le h0, ok_bind, codeWordOperand, if_pos h1, error_bind]
  · exact missingStructureIsNotReady.1 .lutRead s .lut (by simp [needs, State.valid, hl]) (fun _ => h0) (fun _ => h1)
      (fun h => absurd h (by decide)) (fun h => absurd h (by decide))
  · exact ⟨_, exec_of_body (body_lutRead h0 h1 hl), fun j => LutEntry.codeWord_getLsbD _ _⟩

/-! ## `DECMAP_GEN` (R341, R345) -/

theorem body_decmapGen {s : State} {t : Tree} (ht : s.tree = some t) : body .decmapGen s =
    .ok ((s.setFsm (some (buildFsm t))).setResults (word (buildFsm t).states.length) (word (buildFsm t).start)) := by
  rw [body, decmapGenBody, ht, require_some, ok_bind]

/-- The slot a branch leads to: the right child on a 1, the left on a 0 (R320). -/
def Tree.branch (t : Tree) (i : Nat) (d : Bool) : Nat := if d then (t.node i).right.toNat else (t.node i).left.toNat

section
variable {ft : FreqTable} {t : Tree}

theorem Tree.childOf_branch (t : Tree) (i : Nat) (d : Bool) : t.childOf i (t.branch i d) := by
  cases d
  · exact .inl rfl
  · exact .inr rfl

/-- From an internal slot a path goes on at the slot of its first branch. -/
theorem build_follow_cons (h : build ft = .ok (some t)) {i : Nat} (hi : t.nleaf ≤ i) (hi' : i < 2 * t.nleaf - 1) (d : Bool)
    (p : List Bool) : t.follow i (d :: p) = t.follow (t.branch i d) p := by
  obtain ⟨l, r, c, m, hn, -⟩ := build_children h hi hi'
  rw [Tree.follow, Tree.branch, hn]
  rfl

/-- Each branch of an internal slot's state puts out the byte of the leaf it leads to, or goes to the state of the internal
slot it leads to (R341). -/
theorem buildFsm_branch (h : build ft = .ok (some t)) {i : Nat} (hi : t.nleaf ≤ i) (hi' : i < 2 * t.nleaf - 1) (d : Bool) :
    (∃ b c, t.node (t.branch i d) = .leaf b c ∧ (buildFsm t).entry (i - t.nleaf) d = .emit b) ∨
    (∃ l r c m, t.node (t.branch i d) = .internal l r c m ∧ t.nleaf ≤ t.branch i d ∧ t.branch i d < i ∧
      ∃ g : Byte, (buildFsm t).entry (i - t.nleaf) d = .goto g ∧ g.toNat + t.nleaf = t.branch i d) := by
  obtain ⟨-, h256⟩ := build_nleaf_range h
  have hlt := build_child_lt h hi hi' (t.childOf_branch i d)
  have hentry : (buildFsm t).entry (i - t.nleaf) d = fsmEntryFor t (t.branch i d) := buildFsm_entry (by omega) hi hi' d
  rw [fsmEntryFor] at hentry
  rcases build_node_cases h (t.branch i d) with ⟨-, b, c, hn⟩ | ⟨hj, -, l, r, c, m, hn, -⟩ | ⟨hj, -⟩
  · rw [hn] at hentry
    exact .inl ⟨b, c, hn, hentry⟩
  · rw [hn] at hentry
    refine .inr ⟨l, r, c, m, hn, hj, hlt, _, hentry, ?_⟩
    rw [BitVec.toNat_ofNat, Nat.mod_eq_of_lt (by omega), Nat.sub_add_cancel hj]
  · omega

theorem buildFsm_start (h1 : t.nleaf ≠ 1) : (buildFsm t).start = t.nleaf - 2 := by rw [buildFsm, if_neg h1]

theorem buildFsm_states_length (h1 : t.nleaf ≠ 1) : (buildFsm t).states.length = t.nleaf - 1 := by
  rw [buildFsm, if_neg h1, List.length_map, List.length_range]

end

/-- Settles O31: the built machine, state by state. -/
theorem decodeMapIsTheTree : Obligations.DecodeMapIsTheTree := by
  refine fun s => ⟨endsWith_notReady_tree rfl, fun t ht => ⟨buildFsm t, exec_of_body (body_decmapGen ht),
    fun h1 => by rw [buildFsm, if_pos h1], fun ft h h2 => ⟨buildFsm_states_length (by omega), buildFsm_start (by omega),
      fun k hk d => ?_⟩⟩⟩
  have hbranch := buildFsm_branch h (Nat.le_add_right t.nleaf k) (by omega) d
  rw [Nat.add_sub_cancel_left] at hbranch
  rcases hbranch with ⟨b, c, hn, he⟩ | ⟨l, r, c, m, hn, -, hlt, g, he, hg⟩
  · exact ⟨fun b' n hb => by rw [he, (Node.leaf.inj (hn.symm.trans hb)).1], fun _ _ _ _ hc => nomatch hn.symm.trans hc⟩
  · exact ⟨fun _ _ hb => (nomatch hn.symm.trans hb), fun _ _ _ _ _ => ⟨g, he, hg, by omega⟩⟩

/-! ## The decoder on bits that complete no code (R323, R342) -/

section
variable {ft : FreqTable} {t : Tree}

/-- From the state of internal slot `i`, bits along which no leaf is reached put out nothing and lead to the state of an
internal slot, a lower one unless there are no bits (R342). -/
theorem run_unfinished (h : build ft = .ok (some t)) {i : Nat} (hi : t.nleaf ≤ i) (hi' : i < 2 * t.nleaf - 1)
    {ts : List Bool} (hts : ∀ p b c, t.follow i p = some (.leaf b c) → ¬ p <+: ts) :
    ∃ j, t.nleaf ≤ j ∧ j ≤ i ∧ (j = i ↔ ts = []) ∧
      Fsm.run (buildFsm t) (some (i - t.nleaf)) ts = (some (j - t.nleaf), []) := by
  induction ts generalizing i with
  | nil => exact ⟨i, hi, Nat.le_refl i, by simp, by simp⟩
  | cons d ts ih =>
    have hnext (p : List Bool) (b : Byte) (c : Word) (hp : t.follow (t.branch i d) p = some (.leaf b c)) : ¬ p <+: ts :=
      fun hpre => hts (d :: p) b c ((build_follow_cons h hi hi' d p).trans hp) ((List.prefix_cons_inj d).2 hpre)
    rcases buildFsm_branch h hi hi' d with ⟨b, c, hn, -⟩ | ⟨l, r, c, m, -, hj, hlt, g, he, hg⟩
    · exact absurd List.nil_prefix (hnext [] b c (by rw [Tree.follow, hn]))
    · obtain ⟨j, hnj, hji, -, hrun⟩ := ih hj (by omega) hnext
      refine ⟨j, hnj, by omega, ⟨fun hj => by omega, fun hnil => nomatch hnil⟩, ?_⟩
      rw [Fsm.run, he, ← hrun, ← hg, Nat.add_sub_cancel]

/-- With two or more leaves, bits that begin with no code put out nothing, and the machine is alive, and in its start state
exactly when there are none (R342). -/
theorem run_rest (h : build ft = .ok (some t)) (h2 : 2 ≤ t.nleaf) {rest : List Bool}
    (hrest : ∀ b p, codeOf t b = some p → ¬ p <+: rest) :
    ∃ q, Fsm.run (buildFsm t) (some (buildFsm t).start) rest = (some q, []) ∧ (q = (buildFsm t).start ↔ rest = []) := by
  have hstart : (buildFsm t).start = t.root - t.nleaf := by rw [buildFsm_start (by omega), Tree.root]; omega
  have hroot : t.nleaf ≤ t.root ∧ t.root < 2 * t.nleaf - 1 := by rw [Tree.root]; omega
  obtain ⟨j, hj, hji, hiff, hrun⟩ := run_unfinished h hroot.1 hroot.2
    fun p b c hf => hrest b p ((codeOf_eq_follow h h2).2 ⟨c, hf⟩)
  rw [hstart]
  exact ⟨_, hrun, by rw [← hiff]; omega⟩

/-- With one leaf, bits that do not begin with its code `[0]` put out nothing, and the machine is dead unless there are none
(R321, R342). -/
theorem run_rest_single (h : build ft = .ok (some t)) (h1 : t.nleaf = 1) {rest : List Bool}
    (hrest : ∀ b p, codeOf t b = some p → ¬ p <+: rest) :
    Fsm.run (buildFsm t) (some (buildFsm t).start) rest = (if rest = [] then some (buildFsm t).start else none, []) := by
  obtain ⟨hstart, -, hdead⟩ := buildFsm_single h1
  cases rest with
  | nil => exact Fsm.run_nil _ _
  | cons d rest =>
    cases d with
    | false => exact absurd (by simp) (hrest _ [false] ((codeOf_single h h1).2 ⟨rfl, rfl⟩))
    | true => rw [Fsm.run, hstart, hdead]; exact Fsm.run_none _ _

end

/-- Settles O32: the codes put out their string and lead back to the start state, from which the rest is read. -/
theorem decoderComputesTheDecodeMap : Obligations.DecoderComputesTheDecodeMap := by
  intro ft t h out rest hout hrest f r
  have hr : r = _ := run_payloadBits h hout rest
  obtain ⟨hpos, -⟩ := build_nleaf_range h
  by_cases hone : t.nleaf = 1
  · rw [run_rest_single h hone hrest] at hr
    rw [hr]
    by_cases hnil : rest = [] <;> simp [hnil, hone, f]
  · obtain ⟨q, hq, hiff⟩ := run_rest h (by omega) hrest
    rw [hq] at hr
    rw [hr]
    exact ⟨List.append_nil out, by simpa using hiff, fun _ => Option.some_ne_none q, fun h1 => absurd h1 hone⟩

end Sys2Proof.Machine

/-! # The integer codec's commands

`VI_MIN_WIDTH`, `VI_PACK` and `VI_UNPACK` are the three functions of the codec between their operands, the source and
destination buffers, and the result registers (45_varint.md R371 to R373, R380 to R386). -/

namespace Sys2Proof.Machine

section
variable {s : State} {v : Word} {w : Nat}

/-! ## Values and byte strings -/

theorem word_toNat (v : Word) : word v.toNat = v := by rw [word, BitVec.ofNat_toNat, BitVec.setWidth_eq]

/-- The bytes of a value that fits its width have that value (R372, R373). -/
theorem leNat_packBytes_of_lt (h : v.toNat < 2 ^ (8 * w)) : leNat (packBytes v w) = v.toNat := by
  rw [leNat_packBytes, Nat.mod_eq_of_lt h]

/-- Zero bytes at the high end leave the value (R373). -/
theorem leNat_append_zeros (bs : List Byte) (z : Nat) : leNat (bs ++ List.replicate z 0) = leNat bs := by
  rw [leNat_append, leNat_zeros, Nat.mul_zero, Nat.add_zero]

/-- At most 8 bytes have a value of 64 bits (R373). -/
theorem leNat_lt_of_length_le {bs : List Byte} (h : bs.length ≤ 8) : leNat bs < 2 ^ 64 :=
  (leNat_lt bs).trans_le (Nat.pow_le_pow_right (by decide) (Nat.mul_le_mul_left 8 h))

/-! ## The bodies, with a legal region -/

theorem body_viPack (hr : regionOk s.cfg s.ops.dstAddr s.ops.dstCap = true) :
    body .viPack s = (do
      let bs ← pack s.ops.arg0 s.ops.arg1.toNat
      emit s bs) := by
  rw [body, viPackBody, checkBuffers_of_regionOk (by decide) (fun h => absurd h (by decide)) (fun _ => hr), ok_bind,
    valueOperand, widthOperand]

theorem body_viUnpack (hr : regionOk s.cfg s.ops.srcAddr s.ops.srcLen = true) :
    body .viUnpack s = (do
      check (decide (s.ops.srcLen.toNat ≤ 8)) ⟨.unpackWidth, s.ops.srcLen⟩
      let bs ← srcBytes s 0 s.ops.srcLen.toNat
      let v ← unpack bs
      .ok (s.setResult0 v)) := by
  rw [body, viUnpackBody, checkBuffers_of_regionOk (by decide) (fun _ => hr) (fun h => absurd h (by decide)), ok_bind]

/-- A source of at most 8 bytes passes the length check (R386). -/
theorem body_viUnpack_of_le (hr : regionOk s.cfg s.ops.srcAddr s.ops.srcLen = true) (h : s.ops.srcLen.toNat ≤ 8) :
    body .viUnpack s = (do
      let bs ← srcBytes s 0 s.ops.srcLen.toNat
      let v ← unpack bs
      .ok (s.setResult0 v)) := by
  rw [body_viUnpack hr, check_ok (u := ()).2 (decide_eq_true h), ok_bind]

end

/-! ## The statements -/

/-- Settles O34: `min_width` of the operand, whose bounds are those of `minWidth_spec`. -/
theorem minWidthIsLeast : Obligations.MinWidthIsLeast := by
  intro s
  obtain ⟨hpos, hle, hlt, hleast⟩ := minWidth_spec s.ops.arg0
  have hbody : body .viMinWidth s = .ok (s.setResult0 (word (minWidth s.ops.arg0))) := rfl
  refine ⟨minWidth s.ops.arg0, exec_of_body hbody, hpos, hle, hlt, fun hv => ?_, hleast⟩
  exact Nat.le_antisymm ((minWidth_le_iff (by decide)).2 ⟨Nat.le_refl 1, Nat.lt_succ_of_le hv⟩) hpos

/-- Settles O35: the region check, then `pack`, then the emission of its bytes as of every byte string. -/
theorem packWritesTheValue : Obligations.PackWritesTheValue := by
  intro s hwf
  refine ⟨fun hr => endsWith_of_body
      (body_of_checkBuffers (.inr (by decide)) (checkBuffers_dest (by decide) (fun h => absurd h (by decide)) hr)),
    fun hr => ⟨fun hbad => endsWith_of_body ?_, fun h1 h8 hfit => ?_⟩⟩
  · rw [body_viPack hr, pack_refuses hbad, error_bind, word_toNat]
  have hbody : body .viPack s = emit s (packBytes s.ops.arg0 s.ops.arg1.toNat) := by
    rw [body_viPack hr, pack_fits h1 h8 hfit, ok_bind]
  have hlen := packBytes_length s.ops.arg0 s.ops.arg1.toNat
  refine ⟨fun hw => ?_, fun hcap hto => ?_, fun k hk hcap hto he => ?_⟩
  · obtain ⟨u, hu⟩ := emit_writable (hlen.symm ▸ hw)
    obtain ⟨hu', -, hwrote⟩ := emit_ok hu hwf
    rw [hlen, word_toNat] at hu'
    exact ⟨_, _, exec_of_body (hbody.trans hu), hwrote, hlen, leNat_packBytes_of_lt hfit, by rw [hu']; rfl⟩
  · exact endsWith_of_body (hbody.trans (emit_overflow (hlen.symm ▸ hcap) hto))
  · exact endsWith_of_body (hbody.trans (emit_hole (hlen.symm ▸ hk) hcap hto he))

/-- Settles O36: the region check, the length check, then the source bytes as a number or the first one not answered. -/
theorem unpackReadsTheValue : Obligations.UnpackReadsTheValue := by
  intro s
  refine ⟨fun hr => endsWith_of_body (body_of_checkBuffers (.inl (by decide)) (checkBuffers_source (by decide) hr)),
    fun hr => ⟨fun hlong => endsWith_of_body ?_, fun hle => ⟨fun hread => ?_, fun k hk hread hhole => ?_⟩⟩⟩
  · rw [body_viUnpack hr, check_error.2 ⟨decide_eq_false (Nat.not_le.2 hlong), rfl⟩, error_bind]
  · have hlen : (sourceBytes s).length ≤ 8 := (bytesAt_length _ _ _).trans_le hle
    have hbytes : srcBytes s 0 s.ops.srcLen.toNat = .ok (sourceBytes s) := srcBytes_readableTo hread (Nat.zero_add _).le
    have hbody : body .viUnpack s = .ok (s.setResult0 (word (leNat (sourceBytes s)))) := by
      rw [body_viUnpack_of_le hr hle, hbytes, ok_bind, unpack_short hlen, ok_bind]
    exact ⟨leNat_lt_of_length_le hlen, exec_of_body hbody⟩
  · refine endsWith_of_body ?_
    have hstop := srcBytes_hole (c := 0) hk (by simpa using hread) (by simpa using hhole)
    rw [body_viUnpack_of_le hr hle, hstop, error_bind, Nat.zero_add]

/-- Settles O37: the packed bytes have the value, which the zero bytes keep. -/
theorem unpackInvertsPack : Obligations.UnpackInvertsPack := by
  intro v w z h1 h8 hfit
  refine ⟨packBytes v w, pack_fits h1 (by omega) hfit, packBytes_length v w, ?_⟩
  rw [unpack_short (by simpa using h8), leNat_append_zeros, leNat_packBytes_of_lt hfit, word_toNat]

end Sys2Proof.Machine

/-! # The container's commands

`CT_SERIALIZE` emits the written container as every byte string is emitted. `CT_DESERIALIZE` is `Deserialize()`: each of its
checks and reads, in the pseudocode's order, with the error that ends it there (46_container.md R410 to R435). -/

namespace Sys2Proof.Machine

/-! ## Strings that agree on their first bytes -/

section
variable {c w : List Byte} {k : Nat} (h : c.take k = w.take k)
include h

theorem getD_of_take {i : Nat} (hi : i < k) : c.getD i 0 = w.getD i 0 := by
  have := congrArg (fun l => l[i]?) h
  simp only [List.getElem?_take, if_pos hi] at this
  rw [List.getD_eq_getElem?_getD, List.getD_eq_getElem?_getD, this]

theorem slice_of_take {i n : Nat} (hi : i + n ≤ k) : (c.drop i).take n = (w.drop i).take n := by
  have hslice (l : List Byte) : (l.drop i).take n = ((l.take k).drop i).take n := by
    rw [List.drop_take, List.take_take, Nat.min_eq_left (by omega)]
  rw [hslice c, hslice w, h]

theorem tableLength_of_take (hk : 2 ≤ k) : tableLength c = tableLength w :=
  congrArg leNat (slice_of_take h (i := 0) (by omega))

theorem sectionOf_of_take (hk : 2 + tableLength w ≤ k) : sectionOf c = sectionOf w := by
  rw [sectionOf, tableLength_of_take h (by omega), slice_of_take h hk, sectionOf]

theorem bitCountWidth_of_take (hk : 3 + tableLength w ≤ k) : bitCountWidth c = bitCountWidth w := by
  rw [bitCountWidth, tableLength_of_take h (by omega), getD_of_take h (by omega), bitCountWidth]

theorem payloadOffset_of_take (hk : 3 + tableLength w ≤ k) : payloadOffset c = payloadOffset w := by
  rw [payloadOffset, tableLength_of_take h (by omega), bitCountWidth_of_take h hk, payloadOffset]

theorem bitCount_of_take (hk : payloadOffset w ≤ k) : bitCount c = bitCount w := by
  unfold payloadOffset at hk
  rw [bitCount, tableLength_of_take h (by omega), bitCountWidth_of_take h (by omega), slice_of_take h hk, bitCount]

end

/-! ## The ends of `Deserialize()` before its entries are read -/

theorem sourceReadableTo_mono {s : State} {n k : Nat} (h : sourceReadableTo s n) (hk : k ≤ n) : sourceReadableTo s k :=
  fun j hj => h j (hj.trans_le hk)

section
variable {s : State} {c : List Byte} (hc : sourceBytes s = c)
include hc

theorem deserialize_short_length (h : c.length < 2) : deserialize s = .error ⟨.ctTruncated, 0⟩ := by
  subst hc
  rw [deserialize, takeSrc_short (Nat.zero_le _) (by omega)]
  rfl

theorem deserialize_hole_length {k : Nat} (h2 : 2 ≤ c.length) (hk : k < 2) (hto : sourceReadableTo s k)
    (he : Config.memOK s.cfg (s.ops.srcAddr.toNat + k) = false) :
    deserialize s = .error ⟨.memFault, word (s.ops.srcAddr.toNat + k)⟩ := by
  subst hc
  have hstop := takeSrc_hole (c := 0) (k := k) (by omega) hk (by simpa using hto) (by simpa using he)
  rw [deserialize, hstop, error_bind, Nat.zero_add]

/-- Once its two bytes are answered for, the table length is read. -/
theorem deserialize_of_length (h2 : 2 ≤ c.length) (hto : sourceReadableTo s 2) :
    deserialize s = (do
      let tb ← takeSrc s 2 (tableLength c)
      let t ← readTable tb
      deserializePayload s t (2 + tableLength c)) := by
  subst hc
  rw [deserialize, takeSrc_readableTo hto (by omega), ok_bind, List.drop_zero]
  rfl

theorem deserialize_short_table (hto : sourceReadableTo s 2) (h2 : 2 ≤ c.length) (h : c.length < 2 + tableLength c) :
    deserialize s = .error ⟨.ctTruncated, 2⟩ := by
  rw [deserialize_of_length hc h2 hto]
  subst hc
  rw [takeSrc_short h2 h]
  rfl

theorem deserialize_hole_table {k : Nat} (hlen : 2 + tableLength c ≤ c.length) (h2 : 2 ≤ k) (hk : k < 2 + tableLength c)
    (hto : sourceReadableTo s k) (he : Config.memOK s.cfg (s.ops.srcAddr.toNat + k) = false) :
    deserialize s = .error ⟨.memFault, word (s.ops.srcAddr.toNat + k)⟩ := by
  obtain ⟨k, rfl⟩ := Nat.exists_eq_add_of_le h2
  rw [deserialize_of_length hc (by omega) (sourceReadableTo_mono hto (by omega))]
  subst hc
  rw [takeSrc_hole hlen (Nat.lt_of_add_lt_add_left hk) hto he, error_bind]

/-- What refuses the table section ends the command. -/
theorem deserialize_table_error {e : CmdError} (hto : sourceReadableTo s (2 + tableLength c))
    (hlen : 2 + tableLength c ≤ c.length) (he : readTable (sectionOf c) = .error e) : deserialize s = .error e := by
  rw [deserialize_section hc hto hlen, he, error_bind]

end

/-! ## The checks of a table section -/

section
variable {c : List Byte}

theorem readTable_empty (h : tableLength c = 0) : readTable (sectionOf c) = .error ⟨.ctBadTable, 2⟩ := by
  rw [sectionOf, h]
  rfl

/-- A section that is not empty has a width, which is checked before the number of its entries (R422, R423). -/
theorem readTable_of_pos (hlen : 2 + tableLength c ≤ c.length) (h0 : 0 < tableLength c) :
    readTable (sectionOf c) = (do
      check (decide (countWidth c ≤ 8)) ⟨.ctBadWidth, 2⟩
      check (decide ((tableLength c - 1) % (1 + countWidth c) = 0)) ⟨.ctBadTable, 2⟩
      readEntries (sectionOf c) (countWidth c) (entryCount c) 1 FreqTable.empty) := by
  rw [readTable, sectionOf_length hlen, sectionOf_width h0, check_ok (u := ()).2 (decide_eq_true h0.ne'), ok_bind]
  rfl

theorem readTable_wide (hlen : 2 + tableLength c ≤ c.length) (h0 : 0 < tableLength c) (hw : 8 < countWidth c) :
    readTable (sectionOf c) = .error ⟨.ctBadWidth, 2⟩ := by
  rw [readTable_of_pos hlen h0, check_error.2 ⟨decide_eq_false (Nat.not_le.2 hw), rfl⟩, error_bind]

theorem readTable_ragged (hlen : 2 + tableLength c ≤ c.length) (h0 : 0 < tableLength c) (hw : countWidth c ≤ 8)
    (hmod : (tableLength c - 1) % (1 + countWidth c) ≠ 0) : readTable (sectionOf c) = .error ⟨.ctBadTable, 2⟩ := by
  rw [readTable_of_pos hlen h0, check_ok (u := ()).2 (decide_eq_true hw), ok_bind,
    check_error.2 ⟨decide_eq_false hmod, rfl⟩, error_bind]

end

/-! ## The ends of `Deserialize()` after its table -/

section
variable {s : State} {c : List Byte} {t : FreqTable} (hc : sourceBytes s = c) (ht : readTable (sectionOf c) = .ok t)
include hc ht

theorem deserialize_of_table (hto : sourceReadableTo s (2 + tableLength c)) (hlen : 2 + tableLength c ≤ c.length) :
    deserialize s = deserializePayload s t (2 + tableLength c) := by
  rw [deserialize_section hc hto hlen, ht, ok_bind]

theorem deserialize_no_width (hto : sourceReadableTo s (2 + tableLength c)) (hlen : c.length = 2 + tableLength c) :
    deserialize s = .error ⟨.ctTruncated, word (2 + tableLength c)⟩ := by
  rw [deserialize_of_table hc ht hto hlen.ge]
  subst hc
  rw [deserializePayload, takeSrc_short hlen.ge (by omega), error_bind]

theorem deserialize_hole_width (hlen : 3 + tableLength c ≤ c.length) (hto : sourceReadableTo s (2 + tableLength c))
    (he : Config.memOK s.cfg (s.ops.srcAddr.toNat + (2 + tableLength c)) = false) :
    deserialize s = .error ⟨.memFault, word (s.ops.srcAddr.toNat + (2 + tableLength c))⟩ := by
  rw [deserialize_of_table hc ht hto (by omega)]
  subst hc
  have hstop := takeSrc_hole (c := 2 + tableLength (sourceBytes s)) (k := 0) (n := 1) (by omega) Nat.zero_lt_one hto he
  rw [deserializePayload, hstop, error_bind, Nat.add_zero]

section
variable (h3 : 3 + tableLength c ≤ c.length)
include h3

theorem deserialize_wide_count (hto : sourceReadableTo s (3 + tableLength c)) (hw : 8 < bitCountWidth c) :
    deserialize s = .error ⟨.ctBadWidth, word (2 + tableLength c)⟩ := by
  rw [deserialize_of_table hc ht (sourceReadableTo_mono hto (by omega)) (by omega), deserializePayload_width hc hto h3,
    check_error.2 ⟨decide_eq_false (Nat.not_le.2 hw), rfl⟩, error_bind]

theorem deserialize_short_count (hto : sourceReadableTo s (3 + tableLength c)) (hw : bitCountWidth c ≤ 8)
    (h : c.length < payloadOffset c) : deserialize s = .error ⟨.ctTruncated, word (3 + tableLength c)⟩ := by
  rw [deserialize_of_table hc ht (sourceReadableTo_mono hto (by omega)) (by omega), deserializePayload_width hc hto h3,
    check_ok (u := ()).2 (decide_eq_true hw), ok_bind]
  subst hc
  rw [takeSrc_short h3 h, error_bind]

theorem deserialize_hole_count {k : Nat} (hw : bitCountWidth c ≤ 8) (hp : payloadOffset c ≤ c.length)
    (hk3 : 3 + tableLength c ≤ k) (hk : k < payloadOffset c) (hto : sourceReadableTo s k)
    (he : Config.memOK s.cfg (s.ops.srcAddr.toNat + k) = false) :
    deserialize s = .error ⟨.memFault, word (s.ops.srcAddr.toNat + k)⟩ := by
  obtain ⟨k, rfl⟩ := Nat.exists_eq_add_of_le hk3
  rw [deserialize_of_table hc ht (sourceReadableTo_mono hto (by omega)) (by omega),
    deserializePayload_width hc (sourceReadableTo_mono hto (by omega)) h3, check_ok (u := ()).2 (decide_eq_true hw), ok_bind]
  subst hc
  rw [takeSrc_hole hp (Nat.lt_of_add_lt_add_left hk) hto he, error_bind]

section
variable (hw : bitCountWidth c ≤ 8) (hp : payloadOffset c ≤ c.length) (hto : sourceReadableTo s (payloadOffset c))
include hw hp hto

/-- Once the bit count is read, what is left are the checks of the payload's length and its read. -/
theorem deserialize_of_header :
    deserialize s = (do
      room s (payloadOffset c) (ceil8 (bitCount c))
      check (decide (payloadOffset c + ceil8 (bitCount c) = c.length))
        ⟨.ctTrailing, word (payloadOffset c + ceil8 (bitCount c))⟩
      check (decide (ceil8 (bitCount c) ≤ s.cfg.capBytes)) ⟨.bbOverflow, word (8 * s.cfg.capBytes)⟩
      let st ← takeSrc s (payloadOffset c) (ceil8 (bitCount c))
      .ok (t, { n := bitCount c, st := clearPad (bitCount c) st })) := by
  have hoff : 3 + tableLength c ≤ payloadOffset c := Nat.le_add_right _ _
  rw [deserialize_of_table hc ht (sourceReadableTo_mono hto (by omega)) (by omega), deserializePayload_header hc hto h3 hw hp]

theorem deserialize_short_payload (h : c.length < payloadOffset c + ceil8 (bitCount c)) :
    deserialize s = .error ⟨.ctTruncated, word (payloadOffset c)⟩ := by
  rw [deserialize_of_header hc ht h3 hw hp hto]
  subst hc
  rw [room_short hp h, error_bind]

theorem deserialize_trailing (h : payloadOffset c + ceil8 (bitCount c) < c.length) :
    deserialize s = .error ⟨.ctTrailing, word (payloadOffset c + ceil8 (bitCount c))⟩ := by
  rw [deserialize_of_header hc ht h3 hw hp hto, room_fits (by rw [hc]; exact h.le), ok_bind,
    check_error.2 ⟨decide_eq_false h.ne, rfl⟩, error_bind]

/-- A payload that ends the source passes the checks of its length. -/
theorem deserialize_of_end (hend : payloadOffset c + ceil8 (bitCount c) = c.length) :
    deserialize s = (do
      check (decide (ceil8 (bitCount c) ≤ s.cfg.capBytes)) ⟨.bbOverflow, word (8 * s.cfg.capBytes)⟩
      let st ← takeSrc s (payloadOffset c) (ceil8 (bitCount c))
      .ok (t, { n := bitCount c, st := clearPad (bitCount c) st })) := by
  rw [deserialize_of_header hc ht h3 hw hp hto, room_fits (by rw [hc]; exact hend.le), ok_bind,
    check_ok (u := ()).2 (decide_eq_true hend), ok_bind]

theorem deserialize_over_capacity (hend : payloadOffset c + ceil8 (bitCount c) = c.length)
    (h : s.cfg.capBytes < ceil8 (bitCount c)) : deserialize s = .error ⟨.bbOverflow, word (8 * s.cfg.capBytes)⟩ := by
  rw [deserialize_of_end hc ht h3 hw hp hto hend, check_error.2 ⟨decide_eq_false (Nat.not_le.2 h), rfl⟩, error_bind]

end

theorem deserialize_hole_payload {k : Nat} (hw : bitCountWidth c ≤ 8)
    (hend : payloadOffset c + ceil8 (bitCount c) = c.length) (hcap : ceil8 (bitCount c) ≤ s.cfg.capBytes)
    (hkp : payloadOffset c ≤ k) (hk : k < c.length) (hto : sourceReadableTo s k)
    (he : Config.memOK s.cfg (s.ops.srcAddr.toNat + k) = false) :
    deserialize s = .error ⟨.memFault, word (s.ops.srcAddr.toNat + k)⟩ := by
  obtain ⟨k, rfl⟩ := Nat.exists_eq_add_of_le hkp
  rw [deserialize_of_end hc ht h3 hw (by omega) (sourceReadableTo_mono hto (by omega)) hend,
    check_ok (u := ()).2 (decide_eq_true hcap), ok_bind]
  rw [← hend] at hk
  subst hc
  rw [takeSrc_hole hend.le (Nat.lt_of_add_lt_add_left hk) hto he, error_bind]

end

end

/-! ## Written containers, cut or extended -/

section
variable {s : State} {ft : FreqTable} {b : BitBuffer}

/-- A written container cut short parses to the same lengths up to the part that the cut falls in, which
does not fit (R421, R428). -/
theorem deserialize_cut (hr : sourceReadable s) (hb : b.shaped) (hn : b.n < 2 ^ 64)
    (hpre : sourceBytes s <+: containerOf ft b) (hcut : sourceBytes s ≠ containerOf ft b) :
    ∃ off, deserialize s = .error ⟨.ctTruncated, off⟩ := by
  obtain ⟨⟨htab, -, hw8, -⟩, hend, -⟩ := holdsContainer_containerOf ft hb hn
  obtain ⟨t, ht, -⟩ := readTable_readable htab
  have hlt : (sourceBytes s).length < (containerOf ft b).length :=
    lt_of_le_of_ne hpre.length_le fun h => hcut (hpre.eq_of_length h)
  have h : (sourceBytes s).take (sourceBytes s).length = (containerOf ft b).take (sourceBytes s).length := by
    rw [List.take_length, ← List.prefix_iff_eq_take.1 hpre]
  generalize hc : sourceBytes s = c at h hlt
  generalize containerOf ft b = w at *
  have hto {k : Nat} (hk : k ≤ c.length) : sourceReadableTo s k :=
    sourceReadableTo_mono hr.2 (by rwa [← sourceBytes_length, hc])
  have hoff : payloadOffset w = 3 + tableLength w + bitCountWidth w := rfl
  by_cases h2 : c.length < 2
  · exact ⟨_, deserialize_short_length hc h2⟩
  have hL := tableLength_of_take h (by omega)
  by_cases htl : c.length < 2 + tableLength w
  · exact ⟨_, deserialize_short_table hc (hto (by omega)) (by omega) (by rwa [hL])⟩
  rw [← sectionOf_of_take h (by omega)] at ht
  by_cases hsw : c.length = 2 + tableLength w
  · rw [← hL] at hsw
    exact ⟨_, deserialize_no_width hc ht (hto hsw.ge) hsw⟩
  have hS := bitCountWidth_of_take h (by omega)
  have hP := payloadOffset_of_take h (by omega)
  by_cases hcount : c.length < payloadOffset w
  · exact ⟨_, deserialize_short_count hc ht (by omega) (hto (by omega)) (by omega) (by omega)⟩
  · have hB := bitCount_of_take h (by omega)
    refine ⟨_, deserialize_short_payload hc ht (by omega) (by omega) (by omega) (hto (by omega)) ?_⟩
    rw [hP, hB]
    exact hlt.trans_eq hend.symm

/-- Bytes after a written container are left over when its parts have been read (R424, R428). -/
theorem deserialize_extended (hr : sourceReadable s) (hb : b.shaped) (hn : b.n < 2 ^ 64)
    (hpre : containerOf ft b <+: sourceBytes s) (hne : sourceBytes s ≠ containerOf ft b) :
    deserialize s = .error ⟨.ctTrailing, word (containerOf ft b).length⟩ := by
  obtain ⟨⟨htab, h3, hw8, hp⟩, hend, -⟩ := holdsContainer_containerOf ft hb hn
  obtain ⟨t, ht, -⟩ := readTable_readable htab
  have hlt : (containerOf ft b).length < (sourceBytes s).length :=
    lt_of_le_of_ne hpre.length_le fun h => hne (hpre.eq_of_length h).symm
  have h : (sourceBytes s).take (containerOf ft b).length = (containerOf ft b).take (containerOf ft b).length := by
    rw [List.take_length, ← List.prefix_iff_eq_take.1 hpre]
  generalize hc : sourceBytes s = c at h hlt
  generalize containerOf ft b = w at *
  have hL := tableLength_of_take h (by omega)
  have hS := bitCountWidth_of_take h h3
  have hP := payloadOffset_of_take h h3
  have hB := bitCount_of_take h hp
  have hend : payloadOffset c + ceil8 (bitCount c) = w.length := by rw [hP, hB]; exact hend
  rw [← sectionOf_of_take h (by omega)] at ht
  rw [← hend]
  refine deserialize_trailing hc ht (by omega) (by omega) (by omega) (sourceReadableTo_mono hr.2 ?_) (by omega)
  rw [← sourceBytes_length, hc]
  omega

end

/-! ## Well-formed containers -/

/-- A table lists no byte value twice (R404). -/
theorem FreqTable.entries_nodup (t : FreqTable) : ((FreqTable.entries t).map Prod.fst).Nodup :=
  List.pairwise_map.2 ((FreqTable.entries_sorted t).imp fun hlt he => by rw [he] at hlt; omega)

/-- The bit buffer a container loads: the payload's bytes with clear pad bits (R426). -/
def payloadBuffer (c : List Byte) : BitBuffer :=
  { n := bitCount c, st := clearPad (bitCount c) (c.drop (payloadOffset c)) }

/-- A string that parses is a well-formed container of some table and of its payload's bits (R420, R423, R427). -/
theorem holdsContainer_of_parses {c : List Byte} (hh : headerReadable c)
    (hend : payloadOffset c + (bitCount c + 7) / 8 = c.length) :
    (payloadBuffer c).shaped ∧ ∃ ft, holdsContainer c ft (payloadBuffer c) := by
  obtain ⟨ft, -, hft⟩ := readTable_readable hh.1
  have hlen : (c.drop (payloadOffset c)).length = ceil8 (bitCount c) := by
    rw [List.length_drop, ← hend, Nat.add_sub_cancel_left, ceil8]
  refine ⟨clearPad_shaped hlen, ft, hh, hend, hft, rfl, fun i hi => ?_⟩
  rw [payloadBuffer, getBit_clearPad hlen hi, List.getD_eq_getElem?_getD, List.getElem?_drop, ← List.getD_eq_getElem?_getD]

/-- The table of a well-formed container has as many entries as the container (R422, R435). -/
theorem holdsContainer_size {c : List Byte} {ft : FreqTable} {b : BitBuffer} (h : holdsContainer c ft b) :
    FreqTable.size ft = entryCount c := by
  obtain ⟨⟨⟨-, -, hdistinct⟩, -⟩, -, hft, -⟩ := h
  have hinj : ∀ i ∈ List.range (entryCount c), ∀ j ∈ List.range (entryCount c), entryByte c i = entryByte c j → i = j := by
    intro i hi j hj he
    rw [List.mem_range] at hi hj
    rcases Nat.lt_trichotomy i j with hij | rfl | hij
    · exact absurd he (hdistinct j hj i hij)
    · rfl
    · exact absurd he.symm (hdistinct i hi j hij)
  have hperm : ((FreqTable.entries ft).map Prod.fst).Perm ((List.range (entryCount c)).map (entryByte c)) := by
    refine (List.perm_ext_iff_of_nodup (FreqTable.entries_nodup ft) (List.nodup_range.map_on hinj)).2 fun v => ?_
    simp [FreqTable.mem_entries, hft]
  simpa [FreqTable.size] using hperm.length_eq

/-- A legal bit buffer's bit count is a register value (R13, R70). -/
theorem BitBuffer.n_lt_of_legal {c : Config} {b : BitBuffer} (hc : c.wellFormed = true) (hb : b.legal c) : b.n < 2 ^ 64 := by
  have hn := hb.1
  simp only [Config.wellFormed, Bool.and_eq_true, decide_eq_true_eq] at hc
  omega

/-! ## The bodies, with legal regions -/

section
variable {s : State} {ft : FreqTable} {b : BitBuffer}

theorem body_ctSerialize (hr : regionOk s.cfg s.ops.dstAddr s.ops.dstCap = true) (hft : s.ft = some ft)
    (hb : s.bb = some b) : body .ctSerialize s = emit s (containerBytes ft b) := by
  rw [body, checkBuffers_of_regionOk (by decide) (fun h => absurd h (by decide)) (fun _ => hr), ok_bind,
    ctSerializeBody_some hft hb]

theorem body_ctDeserialize (hr : regionOk s.cfg s.ops.srcAddr s.ops.srcLen = true) :
    body .ctDeserialize s = ctDeserializeBody s := by
  rw [body, checkBuffers_of_regionOk (by decide) (fun _ => hr) (fun h => absurd h (by decide)), ok_bind]

/-- An error of `Deserialize()` ends `CT_DESERIALIZE` (R435). -/
theorem endsWith_ctDeserialize {code : ErrCode} {info : Word} (hr : regionOk s.cfg s.ops.srcAddr s.ops.srcLen = true)
    (h : deserialize s = .error ⟨code, info⟩) : endsWith .ctDeserialize s code info :=
  endsWith_of_body (by rw [body_ctDeserialize hr, ctDeserializeBody, h, error_bind])

/-- An error of `Deserialize()` ends `DECOMPRESS` of a source that is not empty (R480). -/
theorem endsWith_decompress {code : ErrCode} {info : Word} (hs : regionOk s.cfg s.ops.srcAddr s.ops.srcLen = true)
    (hd : regionOk s.cfg s.ops.dstAddr s.ops.dstCap = true) (hdis : disjointBuffers s) (hne : sourceBytes s ≠ [])
    (h : deserialize s = .error ⟨code, info⟩) : endsWith .decompress s code info := by
  have hlen : s.ops.srcLen.toNat ≠ 0 := by rwa [← sourceBytes_length, ne_eq, List.length_eq_zero_iff]
  refine endsWith_of_body ?_
  rw [body, checkBuffers_disjoint .decompress hs hd hdis, ok_bind, if_neg hlen, decompressBody, ctDeserializeBody, h,
    error_bind, error_bind]

/-- What `Deserialize()` answers is loaded (R435). -/
theorem exec_ctDeserialize (hr : regionOk s.cfg s.ops.srcAddr s.ops.srcLen = true) (h : deserialize s = .ok (ft, b)) :
    exec .ctDeserialize s = .next { s with
      ft := some ft, tree := none, lut := none, fsm := none, bb := some b
      res := { s.res with result0 := word (FreqTable.size ft), result1 := word b.n }
      status := doneStatus s } := by
  have hbody : body .ctDeserialize s =
      .ok (((s.setFt (some ft)).setBb (some b)).setResults (word (FreqTable.size ft)) (word b.n)) := by
    rw [body_ctDeserialize hr, ctDeserializeBody, h, ok_bind]
  exact exec_of_body hbody

/-- The first structure missing ends `CT_SERIALIZE` (R415). -/
theorem endsWith_ctSerialize_missing {p : Struct} (hr : regionOk s.cfg s.ops.dstAddr s.ops.dstCap = true)
    (hp : [Struct.ft, .bb].find? (fun q => !s.valid q) = some p) : endsWith .ctSerialize s .notReady p.number :=
  missingStructureIsNotReady.1 .ctSerialize s p hp (fun h => absurd h (by decide)) (fun h => by cases h)
    (fun h => absurd h (by decide)) (fun _ => hr)

end

/-! ## The statements -/

/-- Settles O38: the checks in their order, then the emission of the written container, which ends as every emission does. -/
theorem containerIsWritten : Obligations.ContainerIsWritten := by
  intro s hwf
  refine ⟨fun hr => endsWith_of_body
      (body_of_checkBuffers (.inr (by decide)) (checkBuffers_dest (by decide) (fun h => absurd h (by decide)) hr)),
    fun hr hft => endsWith_ctSerialize_missing (p := .ft) hr (by simp [State.valid, hft]),
    fun ft hft hr => ⟨fun hb => endsWith_ctSerialize_missing (p := .bb) hr (by simp [State.valid, hft, hb]),
      fun b hb hlegal => ?_⟩⟩
  have hbody : body .ctSerialize s = emit s (containerOf ft b) := by
    rw [body_ctSerialize hr hft hb, containerBytes_eq hlegal.2]
  refine ⟨fun hw => ?_, fun hcap hto => ?_, fun k hk hcap hto he => ?_⟩
  · obtain ⟨u, hu⟩ := emit_writable hw
    obtain ⟨hu', -, hwrote⟩ := emit_ok hu hwf
    exact ⟨_, exec_of_body (hbody.trans hu), hwrote, by rw [hu']; rfl⟩
  · exact endsWith_of_body (hbody.trans (emit_overflow hcap hto))
  · exact endsWith_of_body (hbody.trans (emit_hole hk hcap hto he))

/-- Settles O39: each check of `Deserialize()` with its error, and each read with the first byte of it not answered for. -/
theorem malformedContainersAreRefused : Obligations.MalformedContainersAreRefused := by
  intro s hr
  have ends {code : ErrCode} {info : Word} := endsWith_ctDeserialize (code := code) (info := info) hr
  refine ⟨fun h => ends (deserialize_short_length rfl h),
    fun hto h2 => ⟨fun h => ends (deserialize_short_table rfl hto h2 h), fun h0 => ?_⟩,
    fun hto hlen h0 => ⟨fun hw => ?_, fun hw hmod => ?_, fun hs j hj hd hrep => ?_, fun htab h => ?_⟩,
    fun hto htab h3 => ?_, fun hto hh => ?_, fun k hto he hk => ends ?_⟩
  · exact ends (deserialize_table_error rfl (by rwa [h0]) (by rwa [h0]) (readTable_empty h0))
  · exact ends (deserialize_table_error rfl hto hlen (readTable_wide hlen h0 hw))
  · exact ends (deserialize_table_error rfl hto hlen (readTable_ragged hlen h0 hw hmod))
  · exact ends (deserialize_table_error rfl hto hlen (readTable_repeats hs hj hd hrep))
  · obtain ⟨t, ht, -⟩ := readTable_readable htab
    exact ends (deserialize_no_width rfl ht hto h)
  · obtain ⟨t, ht, -⟩ := readTable_readable htab
    exact ⟨fun hw => ends (deserialize_wide_count rfl ht h3 hto hw),
      fun hw h => ends (deserialize_short_count rfl ht h3 hto hw h)⟩
  · obtain ⟨htab, h3, hw, hp⟩ := hh
    obtain ⟨t, ht, -⟩ := readTable_readable htab
    exact ⟨fun h => ends (deserialize_short_payload rfl ht h3 hw hp hto h),
      fun h => ends (deserialize_trailing rfl ht h3 hw hp hto h),
      fun hend h => ends (deserialize_over_capacity rfl ht h3 hw hp hto hend h)⟩
  · rcases hk with ⟨hk, h2⟩ | ⟨h2, hk, hlen⟩ | ⟨rfl, htab, h3⟩ | ⟨hk3, hk, htab, h3, hw, hp⟩ |
      ⟨hkp, hk, ⟨htab, h3, hw, -⟩, hend, hcap⟩
    · exact deserialize_hole_length rfl h2 hk hto he
    · exact deserialize_hole_table rfl hlen h2 hk hto he
    · obtain ⟨t, ht, -⟩ := readTable_readable htab
      exact deserialize_hole_width rfl ht h3 hto he
    · obtain ⟨t, ht, -⟩ := readTable_readable htab
      exact deserialize_hole_count rfl ht h3 hw hp hk3 hk hto he
    · obtain ⟨t, ht, -⟩ := readTable_readable htab
      exact deserialize_hole_payload rfl ht h3 hw hend hcap hkp hk hto he

/-- Settles O40: a source that parses is a well-formed container, which is loaded. -/
theorem wellFormedContainersAreLoaded : Obligations.WellFormedContainersAreLoaded := by
  intro s hr c hh hend hcap
  obtain ⟨hshaped, ft, hholds⟩ := holdsContainer_of_parses hh hend
  have hlegal : (payloadBuffer c).legal s.cfg := ⟨show bitCount c ≤ _ by omega, hshaped⟩
  have hexec := exec_ctDeserialize hr.1 (deserialize_holdsContainer hr hlegal hholds)
  rw [holdsContainer_size hholds] at hexec
  obtain ⟨-, -, hft, hn, hbits⟩ := hholds
  exact ⟨ft, payloadBuffer c, hexec, hft, hn, hlegal, hbits⟩

/-- Settles O41: a written container is a well-formed container of its table and buffer. -/
theorem deserializeInvertsSerialize : Obligations.DeserializeInvertsSerialize := by
  intro s ft b hcfg hb hr hsrc
  have hholds := holdsContainer_containerOf ft hb.2 (BitBuffer.n_lt_of_legal hcfg hb)
  exact exec_ctDeserialize hr.1 (deserialize_holdsContainer hr hb (hsrc ▸ hholds))

/-- Settles O42: `Deserialize()` refuses both, and its error ends both commands. -/
theorem cutOrExtendedContainersAreRefused : Obligations.CutOrExtendedContainersAreRefused := by
  intro s ft b hb hn hr hd hdis i hi
  have ends {code : ErrCode} {info : Word} (hne : sourceBytes s ≠ []) (h : deserialize s = .error ⟨code, info⟩) :
      endsWith i s code info := by
    simp only [List.mem_cons, List.not_mem_nil, or_false] at hi
    rcases hi with rfl | rfl
    · exact endsWith_ctDeserialize hr.1 h
    · exact endsWith_decompress hr.1 hd hdis hne h
  refine ⟨fun hne hpre hcut => ?_, fun hpre hmore => ends ?_ (deserialize_extended hr hb.2 hn hpre hmore)⟩
  · obtain ⟨off, h⟩ := deserialize_cut hr hb.2 hn hpre hcut
    exact ⟨off, ends hne h⟩
  · intro hnil
    exact hmore (hnil.trans (List.prefix_nil.1 (hnil ▸ hpre)).symm)

end Sys2Proof.Machine

/-! # The payload encoder and decoder

`ENCODE` appends the codes of the source bytes one after the other. `DECODE` emits what the machine puts out on the bits of
the buffer (47_pipeline.md R450 to R462). -/

namespace Sys2Proof.Machine

/-! ## `ENCODE` (R450, R452) -/

section
variable {s : State} {l : Lut} {b : BitBuffer} {k : Nat}

/-- The codes of the first `k` source bytes, in order (R450). -/
def sourceCodes (s : State) (l : Lut) (k : Nat) : List Bool :=
  (bytesAt s.mem s.ops.srcAddr.toNat k).flatMap fun v => (Lut.entry l v).bits

theorem sourceCodes_succ (s : State) (l : Lut) (k : Nat) :
    sourceCodes s l (k + 1) = sourceCodes s l k ++ (Lut.entry l (sourceByte s k)).bits := by
  simp [sourceCodes, bytesAt, List.range_succ, sourceByte]

theorem LutEntry.bits_length (e : LutEntry) : e.bits.length = e.len.toNat := by simp [LutEntry.bits]

theorem encodeByte_noCode {c : Config} {i : Nat} {v : Byte} (h : (Lut.entry l v).len = 0) :
    encodeByte c l i v b = .error ⟨.noCode, word i⟩ := if_pos h

/-- A code that does not fit ends with `BB_OVERFLOW`; a byte whose entry has no bits never gets that far (R450). -/
theorem encodeByte_overflow {c : Config} {i : Nat} {v : Byte} (hb : b.n ≤ 8 * c.capBytes)
    (h : 8 * c.capBytes < b.n + (Lut.entry l v).bits.length) :
    encodeByte c l i v b = .error ⟨.bbOverflow, word (8 * c.capBytes)⟩ := by
  have hcode : (Lut.entry l v).len ≠ 0 := fun h0 => by
    have hlen : (Lut.entry l v).len.toNat = 0 := congrArg BitVec.toNat h0
    rw [LutEntry.bits_length, hlen] at h
    omega
  rw [encodeByte, if_neg hcode, appendBits_overflow hb h]

/-- The encoder's loop over source bytes that can be read, have codes and fit (R450). -/
theorem forSrc_encodeByte (hr : sourceReadableTo s k)
    (hcode : ∀ v ∈ bytesAt s.mem s.ops.srcAddr.toNat k, (Lut.entry l v).len ≠ 0)
    (hfit : (sourceCodes s l k).length ≤ 8 * s.cfg.capBytes) :
    ∃ b, forSrc s (encodeByte s.cfg l) 0 k .empty = .ok b ∧ b.bits = sourceCodes s l k ∧ b.legal s.cfg := by
  rw [forSrc_readableTo hr, overBytes_encodeByte hcode]
  obtain ⟨b, happ, hbits, -⟩ := appendBits_room BitBuffer.empty_shaped ((Nat.zero_add _).le.trans hfit)
  exact ⟨b, happ, hbits, appendBits_legal happ (BitBuffer.empty_legal _)⟩

theorem body_encode (hr : regionOk s.cfg s.ops.srcAddr s.ops.srcLen = true) (hl : s.lut = some l) :
    body .encode s = (do
      let b ← forSrc s (encodeByte s.cfg l) 0 s.ops.srcLen.toNat .empty
      .ok ((s.setBb (some b)).setResult0 (word b.n))) := by
  rw [body, checkBuffers_of_regionOk (by decide) (fun _ => hr) (fun h => absurd h (by decide)), ok_bind, encodeBody, hl,
    require_some, ok_bind]

end

/-- Settles O43: the loop over the first source bytes appends their codes, and ends at the next byte if that cannot be read,
has no code or does not fit. -/
theorem encodeConcatenatesTheCodes : Obligations.EncodeConcatenatesTheCodes := by
  intro s
  refine ⟨fun hr => endsWith_of_body (body_of_checkBuffers (.inl (by decide)) (checkBuffers_source (by decide) hr)),
    fun hr hl => missingStructureIsNotReady.1 .encode s .lut (by simp [needs, State.valid, hl])
      (fun h => absurd h (by decide)) (fun h => by cases h) (fun _ => hr) (fun h => absurd h (by decide)),
    fun l hl hr => ⟨fun hread hcode hfit => ?_, fun k hk hread hcode hfit => ?_⟩⟩
  · obtain ⟨b, hloop, hbits, hlegal⟩ := forSrc_encodeByte hread hcode hfit
    have hbody := body_encode hr hl
    rw [hloop, ok_bind] at hbody
    exact ⟨b, exec_of_body hbody, hbits, hlegal⟩
  · obtain ⟨b, hloop, hbits, hlegal⟩ := forSrc_encodeByte hread (forall_mem_bytesAt.2 hcode) hfit
    have hstop {code : ErrCode} {info : Word} (he : srcByte s k = .error ⟨code, info⟩ ∨
        ∃ v, srcByte s k = .ok v ∧ encodeByte s.cfg l k v b = .error ⟨code, info⟩) : endsWith .encode s code info := by
      refine endsWith_of_body ?_
      rw [body_encode hr hl, forSrc_stops hk hloop he, error_bind]
    refine ⟨fun hhole => hstop (.inl (srcByte_hole hhole)),
      fun hans hno => hstop (.inr ⟨_, srcByte_answers hans, encodeByte_noCode hno⟩),
      fun hans hover => hstop (.inr ⟨_, srcByte_answers hans, encodeByte_overflow hlegal.1 ?_⟩)⟩
    rw [← BitBuffer.bits_length, hbits, ← List.length_append, ← sourceCodes_succ]
    exact hover

/-! ## `DECODE` (R460, R462) -/

/-- With a machine and a buffer `DECODE` emits what the machine puts out, and then looks at the state it ended in (R462). -/
theorem body_decode {s : State} {f : Fsm} {b : BitBuffer} (hr : regionOk s.cfg s.ops.dstAddr s.ops.dstCap = true)
    (hf : s.fsm = some f) (hb : s.bb = some b) {first : Nat} (h : f.lastOutput (some f.start) b.bits first) :
    body .decode s = (do
      let t ← emit s (Fsm.run f (some f.start) b.bits).2
      if (Fsm.run f (some f.start) b.bits).1 = some f.start then .ok t
      else .error ⟨.decodeIncomplete, word first⟩) := by
  rw [body, checkBuffers_of_regionOk (by decide) (fun h => absurd h (by decide)) (fun _ => hr), ok_bind,
    decodeBody_eq hf hb h]

/-- The first structure missing ends `DECODE` (R462). -/
theorem endsWith_decode_missing {s : State} {p : Struct} (hr : regionOk s.cfg s.ops.dstAddr s.ops.dstCap = true)
    (hp : [Struct.fsm, .bb].find? (fun q => !s.valid q) = some p) : endsWith .decode s .notReady p.number :=
  missingStructureIsNotReady.1 .decode s p hp (fun h => absurd h (by decide)) (fun h => by cases h)
    (fun h => absurd h (by decide)) (fun _ => hr)

/-- Settles O44: the emission of the machine's output ends as every emission does, and the state the machine ends in decides
the rest. -/
theorem decodeWalksTheBits : Obligations.DecodeWalksTheBits := by
  intro s hwf
  refine ⟨fun hr => endsWith_of_body
      (body_of_checkBuffers (.inr (by decide)) (checkBuffers_dest (by decide) (fun h => absurd h (by decide)) hr)),
    fun hr hf => endsWith_decode_missing (p := .fsm) hr (by simp [State.valid, hf]),
    fun f hf hr => ⟨fun hb => endsWith_decode_missing (p := .bb) hr (by simp [State.valid, hf, hb]), fun b hb => ?_⟩⟩
  have hall : b.bits.take b.n = b.bits := List.take_of_length_le (by rw [BitBuffer.bits_length])
  intro run out
  simp only [run, out, hall]
  obtain ⟨first, hfirst⟩ := f.lastOutput_exists (some f.start) b.bits
  have hbody := body_decode hr hf hb hfirst
  refine ⟨fun hw => ?_, fun hcap hto => endsWith_of_body ?_, fun k hk hcap hto he => endsWith_of_body ?_⟩
  · obtain ⟨u, hu⟩ := emit_writable hw
    obtain ⟨hu', -, hwrote⟩ := emit_ok hu hwf
    refine ⟨fun hend => ?_, fun hend m _ hm hmin => endsWith_of_body ?_⟩
    · rw [hu, ok_bind, if_pos hend] at hbody
      exact ⟨_, exec_of_body hbody, hwrote, by rw [hu']; rfl⟩
    · rw [body_decode hr hf hb ⟨hm, hmin⟩, hu, ok_bind, if_neg hend]
  · rw [hbody, emit_overflow hcap hto, error_bind]
  · rw [hbody, emit_hole hk hcap hto he, error_bind]

end Sys2Proof.Machine

/-! # The entry points

`COMPRESS` that completes leaves the container of its source bytes, from which `DECOMPRESS` gives the bytes back. Neither
depends on a structure that an earlier command left (47_pipeline.md R482 to R488). -/

namespace Sys2Proof.Machine

/-! ## The source of `COMPRESS` -/

/-- The platform answers for the first `n` source bytes, or there is a first one for which it does not. -/
theorem sourceReadableTo_or_hole (s : State) (n : Nat) : sourceReadableTo s n ∨
    ∃ k < n, sourceReadableTo s k ∧ Config.memOK s.cfg (s.ops.srcAddr.toNat + k) = false := by
  induction n with
  | zero => exact .inl fun j hj => absurd hj (Nat.not_lt_zero j)
  | succ n ih =>
    rcases ih with hto | ⟨k, hk, hole⟩
    · cases hn : Config.memOK s.cfg (s.ops.srcAddr.toNat + n) with
      | false => exact .inr ⟨n, n.lt_succ_self, hto, hn⟩
      | true => exact .inl fun j hj => (Nat.lt_succ_iff_lt_or_eq.1 hj).elim (hto j) fun hj => hj ▸ hn
    · exact .inr ⟨k, hk.trans n.lt_succ_self, hole⟩

section
variable {s : State}

theorem compressBody_hole {k : Nat} (hk : k < s.ops.srcLen.toNat) (hto : sourceReadableTo s k)
    (he : Config.memOK s.cfg (s.ops.srcAddr.toNat + k) = false) :
    compressBody s = .error ⟨.memFault, word (s.ops.srcAddr.toNat + k)⟩ := by
  rw [compressBody, freqCountBody_hole hk hto he, error_bind]

theorem build_sourceBytes (h0 : s.ops.srcLen ≠ 0) :
    ∃ t, build (FreqTable.ofBytes (sourceBytes s)) = .ok (some t) := by
  have hlen := sourceBytes_length s
  refine build_ofBytes (List.ne_nil_of_length_pos ?_) (hlen ▸ s.ops.srcLen.isLt)
  exact hlen ▸ Nat.pos_of_ne_zero fun h => h0 (BitVec.eq_of_toNat_eq h)

end

/-! ## `COMPRESS` that completes -/

theorem BitBuffer.getBit_eq_getElem? (b : BitBuffer) (i : Nat) : b.getBit i = b.bits[i]? := by
  by_cases hi : i < b.n
  · simp [BitBuffer.bits, BitBuffer.getBit_of_lt hi, hi]
  · rw [List.getElem?_eq_none (by rw [BitBuffer.bits_length]; omega), BitBuffer.getBit, if_pos (Nat.not_lt.1 hi)]

/-- A bit buffer in the form of R70 and R71 is given by its bit sequence. -/
theorem BitBuffer.eq_of_bits {b b' : BitBuffer} (hb : b.shaped) (hb' : b'.shaped) (h : b.bits = b'.bits) : b = b' := by
  refine BitBuffer.eq_of_getBit hb hb' (by rw [← BitBuffer.bits_length, h, BitBuffer.bits_length]) fun i _ => ?_
  rw [BitBuffer.getBit_eq_getElem?, h, BitBuffer.getBit_eq_getElem?]

theorem WroteDest.destBytes_eq {s t : State} {bs : List Byte} (h : WroteDest s t bs) (ho : t.ops = s.ops) :
    destBytes t bs.length = bs := by
  have hin := h.1
  rwa [← ho] at hin

/-- What `COMPRESS` of the source of `s` leaves in `u`: the container of the counts and the payload (R470). -/
structure Compressed (s u : State) (t : Tree) (b : BitBuffer) : Prop where
  tree : build (FreqTable.ofBytes (sourceBytes s)) = .ok (some t)
  bits : b.bits = payloadBits t (sourceBytes s)
  legal : b.legal s.cfg
  outLen : u.res.outLen = word (containerOf (FreqTable.ofBytes (sourceBytes s)) b).length
  result0 : u.res.result0 = word b.n
  result1 : u.res.result1 = word (Lut.longest (genLut t))
  written : destBytes u u.res.outLen.toNat = containerOf (FreqTable.ofBytes (sourceBytes s)) b

section
variable {s u : State}

/-- `COMPRESS` without error is its body without error, on a source within DMA space. -/
theorem compressBody_of_exec (h : exec .compress s = .next u) (herr : u.status.err = false) :
    regionOk s.cfg s.ops.srcAddr s.ops.srcLen = true ∧ ∃ v, compressBody s = .ok v ∧ u = v.complete := by
  rcases exec_next_cases h with ⟨v, hv, rfl⟩ | ⟨e, -, he⟩
  · obtain ⟨_, hc, hv⟩ := bind_eq_ok.1 hv
    exact ⟨(checkBuffers_eq_ok.1 hc).1 rfl, v, hv, rfl⟩
  · rw [herr] at he; cases he

/-- `COMPRESS` of a non-empty source that completes without error has written its container (R470). -/
theorem compress_completes (hwf : s.mem.wf = true) (h0 : s.ops.srcLen ≠ 0) (h : exec .compress s = .next u)
    (herr : u.status.err = false) : ∃ t b, Compressed s u t b := by
  obtain ⟨hr, v, hv, rfl⟩ := compressBody_of_exec h herr
  obtain ⟨t, ht⟩ := build_sourceBytes h0
  rcases sourceReadableTo_or_hole s s.ops.srcLen.toNat with hto | ⟨k, hk, hto, he⟩
  · rw [compressBody_readable ⟨hr, hto⟩ ht] at hv
    obtain ⟨b, happ, hv⟩ := bind_eq_ok.1 hv
    have hlegal := appendBits_legal happ (BitBuffer.empty_legal s.cfg)
    obtain ⟨-, hbits, -⟩ := appendBits_ok happ BitBuffer.empty_shaped
    rw [containerBytes_eq hlegal.2] at hv
    obtain ⟨hv', hcap, hwrote⟩ := emit_ok hv hwf
    have hlen : (word (containerOf (FreqTable.ofBytes (sourceBytes s)) b).length).toNat = _ :=
      Nat.mod_eq_of_lt (hcap.trans_lt (BitVec.isLt _))
    refine ⟨t, b, ht, hbits, hlegal, ?_, ?_, ?_, ?_⟩ <;> rw [hv']
    · rfl
    · rfl
    · rfl
    · exact (congrArg (destBytes _) hlen).trans hwrote.1
  · rw [compressBody_hole hk hto he] at hv; cases hv

end

/-- Settles O47: the container written holds the counts of the source and the payload its tree gives it, on which that tree's
machine puts out the source. -/
theorem decompressInvertsCompress : Obligations.DecompressInvertsCompress := by
  intro s u s' _ hwf _ h0 hexec herr hcfg' hwf' hrun' hcap hread' hsrc' hw' hdis'
  obtain ⟨t, b, hc⟩ := compress_completes hwf h0 hexec herr
  have hlegal' : b.legal s'.cfg := ⟨hc.legal.1.trans (Nat.mul_le_mul_left 8 hcap), hc.legal.2⟩
  obtain ⟨-, -, hload⟩ := decompressWritesTheData s' hread'.1 hw'.1 hdis' hwf' hcfg'
  obtain ⟨-, -, hbuilt⟩ := hload hread' _ b hlegal' (.inl (hsrc'.trans hc.written))
  obtain ⟨hrun, hdone, -⟩ := hbuilt t hc.tree
  have hcode : ∀ v ∈ sourceBytes s, (codeOf t v).isSome := fun v hv => by
    rw [codeOf_isSome hc.tree, FreqTable.entry_ofBytes, if_pos hv]; rfl
  have hrun := hrun (sourceBytes s) hcode hc.bits
  have hlen := sourceBytes_length s
  rw [hrun, hlen] at hdone
  obtain ⟨v, hv, hwrote, hv'⟩ := (hdone hw').1 rfl
  refine ⟨v, hv, by rw [hv'], by rw [hv']; exact hrun'.2.2, by rw [hv']; exact word_toNat _, ?_⟩
  exact hlen ▸ hwrote.destBytes_eq (by rw [hv'])

/-- Settles O48: both runs leave the container of the same counts, whose tree gives both the same payload. -/
theorem compressDependsOnTheSourceAlone : Obligations.CompressDependsOnTheSourceAlone := by
  intro s s' u u' hwf hwf' _ _ hsrc h h' herr herr'
  have hlen : s.ops.srcLen = s'.ops.srcLen := by
    apply BitVec.eq_of_toNat_eq
    rw [← sourceBytes_length, hsrc, sourceBytes_length]
  by_cases h0 : s.ops.srcLen = 0
  · obtain ⟨-, v, hv, rfl⟩ := compressBody_of_exec h herr
    obtain ⟨-, v', hv', rfl⟩ := compressBody_of_exec h' herr'
    rw [compressBody_empty h0] at hv
    rw [compressBody_empty (hlen ▸ h0)] at hv'
    cases hv; cases hv'
    exact ⟨rfl, rfl, rfl, rfl⟩
  · obtain ⟨t, b, hc⟩ := compress_completes hwf h0 h herr
    obtain ⟨t', b', hc'⟩ := compress_completes hwf' (hlen ▸ h0) h' herr'
    obtain rfl : t = t' := by
      have htree := hc'.tree
      rw [← hsrc, hc.tree] at htree
      injection htree with htree
      injection htree
    obtain rfl : b = b' := BitBuffer.eq_of_bits hc.legal.2 hc'.legal.2 (by rw [hc.bits, hc'.bits, hsrc])
    exact ⟨by rw [hc.outLen, hc'.outLen, hsrc], by rw [hc.result0, hc'.result0], by rw [hc.result1, hc'.result1],
      by rw [hc.written, hc'.written, hsrc]⟩

/-! ## Structures left by earlier commands -/

/-- `s` with other structures. -/
def State.withStructures (s : State) (ft : Option FreqTable) (tree : Option Tree) (lut : Option Lut) (fsm : Option Fsm)
    (bb : Option BitBuffer) : State :=
  { s with ft := ft, tree := tree, lut := lut, fsm := fsm, bb := bb }

section
variable {s s' : State} (hc : s'.cfg = s.cfg) (ho : s'.ops = s.ops) (hm : s'.mem = s.mem)
include hc ho hm

/-- What a read of the source answers depends on the parameters, the operands and memory alone. -/
theorem srcBytes_congr (c k : Nat) : srcBytes s' c k = srcBytes s c k := by
  induction k generalizing c with
  | zero => rfl
  | succ k ih => rw [srcBytes, srcBytes, srcByte, memRead, hc, ho, hm, ih]; rfl

theorem deserialize_congr : deserialize s' = deserialize s := by
  simp only [deserialize, deserializePayload, takeSrc, room, srcBytes_congr hc ho hm, hc, ho]

end

section
variable (s : State) (ft : Option FreqTable) (tree : Option Tree) (lut : Option Lut) (fsm : Option Fsm)
  (bb : Option BitBuffer)

theorem compressBody_withStructures (hr : regionOk s.cfg s.ops.srcAddr s.ops.srcLen = true) (h0 : s.ops.srcLen ≠ 0) :
    compressBody (s.withStructures ft tree lut fsm bb) = compressBody s := by
  obtain ⟨t, ht⟩ := build_sourceBytes h0
  rcases sourceReadableTo_or_hole s s.ops.srcLen.toNat with hto | ⟨k, hk, hto, he⟩
  · rw [compressBody_readable ⟨hr, hto⟩ ht]
    exact compressBody_readable (s := s.withStructures ft tree lut fsm bb) ⟨hr, hto⟩ ht
  · rw [compressBody_hole hk hto he]
    exact compressBody_hole (s := s.withStructures ft tree lut fsm bb) hk hto he

/-- `DECOMPRESS` goes on from what it loads, which replaces every structure (R480). -/
theorem decompressBody_withStructures : decompressBody (s.withStructures ft tree lut fsm bb) = decompressBody s := by
  have hload : deserialize (s.withStructures ft tree lut fsm bb) = deserialize s := deserialize_congr rfl rfl rfl
  cases hd : deserialize s with
  | error e => rw [decompressBody, decompressBody, ctDeserializeBody, ctDeserializeBody, hload, hd]; rfl
  | ok r => rw [decompressBody_loaded hd, decompressBody_loaded (hload.trans hd)]; rfl

variable {i : Instr} (hi : i = .compress ∨ i = .decompress)
include hi

/-- The checks of the buffers read no structure. -/
theorem body_withStructures (h0 : s.ops.srcLen ≠ 0) : body i (s.withStructures ft tree lut fsm bb) = body i s := by
  have hcheck : checkBuffers i (s.withStructures ft tree lut fsm bb) = checkBuffers i s := rfl
  cases hc : checkBuffers i s with
  | error e =>
    have hread : i ∈ srcReaders := by rcases hi with rfl | rfl <;> decide
    rw [body_of_checkBuffers (.inl hread) hc, body_of_checkBuffers (.inl hread) (hcheck.trans hc)]
  | ok v =>
    rcases hi with rfl | rfl
    · have hr := (checkBuffers_eq_ok.1 hc).1 rfl
      rw [body, body, hcheck, compressBody_withStructures s ft tree lut fsm bb hr h0]
    · rw [body, body, hcheck, decompressBody_withStructures, if_neg, if_neg]
      all_goals exact fun h => h0 (BitVec.eq_of_toNat_eq h)

/-- An error of an entry point clears every structure (R509 item 4). -/
theorem raise_withStructures (e : CmdError) :
    (s.withStructures ft tree lut fsm bb).raise (writesStructs i) (writesDst i) e =
      s.raise (writesStructs i) (writesDst i) e := by
  rcases hi with rfl | rfl <;> rfl

theorem exec_withStructures (h0 : s.ops.srcLen ≠ 0) : exec i (s.withStructures ft tree lut fsm bb) = exec i s := by
  rw [exec_eq_finish, exec_eq_finish, body_withStructures s ft tree lut fsm bb hi h0]
  cases body i s with
  | ok t => rfl
  | error e => exact congrArg Host.Outcome.next (raise_withStructures s ft tree lut fsm bb hi e)

end

/-- Settles O49: the bodies of the entry points read no structure before they write it, and their errors clear them all. -/
theorem entryPointsIgnoreEarlierStructures : Obligations.EntryPointsIgnoreEarlierStructures := by
  intro s s' h0 hs'
  have hexec (i : Instr) (hi : i = .compress ∨ i = .decompress) : exec i s' = exec i s := by
    rw [hs']
    exact exec_withStructures s _ _ _ _ _ hi h0
  exact ⟨hexec .compress (.inl rfl), hexec .decompress (.inr rfl)⟩

end Sys2Proof.Machine

/-! # Errors, the interrupt and the resets

What an error and a reset leave of each part of the state (60_exceptions.md R505, R509; 70_reset_and_hazards.md R551 to R554),
and what can raise `irq` (60_exceptions.md R530, R531). -/

namespace Sys2Proof.Machine

/-! ## The free bytes of the destination buffer -/

section
variable {s : State} {a : Nat}

/-- The free bytes are within the destination buffer (R509 item 3, R554). -/
theorem scrambleDst_read_outside (ha : ¬ inDest s a) : s.scrambleDst.mem.read a = s.mem.read a :=
  Memory.read_fill_outside _ (by simp only [not_and, State.dstExtent] at ha ⊢; omega)

/-- Every byte of the destination buffer within DMA space is a free byte of its own (R509 item 3, R554). -/
theorem scrambleDst_read_inside (hwf : s.mem.wf = true) (ha : inDest s a) (hspace : a < 2 ^ s.cfg.addrW) :
    s.scrambleDst.mem.read a = Config.freeByte s.draws a :=
  Memory.read_fill_inside _ hwf ha.1 (by simp only [inDest, State.dstExtent, Config.space] at ha ⊢; omega)

end

/-! ## The state after an error -/

section
variable (s : State) (l : List Struct) (d : Bool) (e : CmdError)

/-- An error draws the destination bytes first, if it frees them, and then the two results (R509 items 2 and 3). -/
theorem raise_drawn :
    (s.raise l d e).res.result0 = Config.freeWord (s.draws + d.toNat) ∧
      (s.raise l d e).res.result1 = Config.freeWord (s.draws + d.toNat + 1) ∧
      (s.raise l d e).draws = s.draws + d.toNat + 2 := by
  have hk := (invalidateAll_keeps s l).1.draws
  cases d <;> simp [State.raise, hk]

/-- The two results are free values drawn after all that were drawn before (R509 item 2). -/
theorem raise_results_free :
    ∃ k, s.draws ≤ k ∧ (s.raise l d e).res.result0 = Config.freeWord k ∧
      (s.raise l d e).res.result1 = Config.freeWord (k + 1) ∧ k + 1 < (s.raise l d e).draws := by
  obtain ⟨h0, h1, hdraws⟩ := raise_drawn s l d e
  exact ⟨s.draws + d.toNat, Nat.le_add_right _ _, h0, h1, by omega⟩

/-- An error of a command that does not write the destination keeps memory (R509 item 3). -/
theorem raise_mem_kept (hd : d = false) : (s.raise l d e).mem = s.mem := by
  subst hd; exact raise_mem s l false e

theorem raise_mem_scrambled (hd : d = true) : (s.raise l d e).mem = s.scrambleDst.mem := by
  subst hd; exact raise_mem s l true e

end

/-- A running command that ends with `ERR` ends as an error ends it: its body keeps `ERR` clear up to the completion
(R505). -/
theorem exec_err_eq_raise {i : Instr} {s t : State} (hs : running s) (h : exec i s = .next t) (herr : t.status.err = true) :
    ∃ e, t = s.raise (writesStructs i) (writesDst i) e := by
  obtain ⟨-, -, hclear⟩ := hs
  rcases exec_next_cases h with ⟨u, hu, rfl⟩ | ⟨e, ht, -⟩
  · have hu_err : u.status.err = false := (congrArg Status.err (body_keeps hu).status).trans hclear
    exact nomatch hu_err.symm.trans herr
  · exact ⟨e, ht⟩

/-- Settles O10: the parts of the state one by one, and a running command's only end with `ERR`. -/
theorem errorLeavesOnlyDefinedState : Obligations.ErrorLeavesOnlyDefinedState := by
  refine ⟨fun i s e => ?_, fun s w => ⟨rfl, rfl, rfl, rfl, rfl, rfl, rfl, rfl, rfl, rfl, rfl⟩,
    fun i s t => exec_err_eq_raise, by decide⟩
  intro t
  obtain ⟨hcfg, hcmd, hirq, hops, hhost, hturns, hcache, hdata, hstatus⟩ :=
    raise_control s (writesStructs i) (writesDst i) e
  obtain ⟨hlen, hinfo⟩ := raise_results s (writesStructs i) (writesDst i) e
  obtain ⟨hft, htree, hlut, hfsm, hbb⟩ := raise_structs_of_writes i s e
  refine ⟨hstatus, hinfo, hlen, raise_results_free s _ _ e, hft, htree, hlut, hfsm, hbb, fun a ha => ?_,
    fun hi hwf a ha hspace => ?_, hcfg, hcmd, hirq, hops, hhost, hturns, hcache, hdata⟩
  · rcases ha with hi | ha
    · rw [raise_mem_kept _ _ _ e (Bool.eq_false_of_not_eq_true (mt mem_dstWriters.2 hi))]
    · exact raise_mem_outside ha
  · rw [raise_mem_scrambled _ _ _ e (mem_dstWriters.1 hi)]
    exact scrambleDst_read_inside hwf ha hspace

/-! ## What raises `irq` -/

section
variable {s t : State}

/-- `irq` is the level of its two terms (R530). -/
theorem State.irq_iff :
    s.irq = true ↔ (s.status.done = true ∧ s.irqEn.doneIe = true) ∨ (s.status.err = true ∧ s.irqEn.errIe = true) := by
  simp only [State.irq, Bool.or_eq_true, Bool.and_eq_true]

theorem State.done_or_err_of_irq (h : s.irq = true) : s.status.done = true ∨ s.status.err = true :=
  (State.irq_iff.1 h).imp And.left And.left

theorem resetBlock_irq (s : State) : (resetBlock s).irq = false := by rw [resetBlock_eq]; rfl

/-- Acceptance clears `DONE` and `ERR` (R181). -/
theorem accept_irq (s : State) (w : Word) : (s.accept w).irq = false := rfl

/-- An acknowledgement sets neither `DONE` nor `ERR` (R36). -/
theorem irq_of_acknowledge_irq {v : Word} (h : (s.acknowledge v).irq = true) : s.irq = true := by
  rw [State.irq_iff] at h ⊢
  simp only [State.acknowledge_status, Status.writeOneClears, State.acknowledge_irqEn, Bool.and_eq_true] at h
  exact h.imp (And.imp_left And.left) (And.imp_left And.left)

theorem irq_of_whenIdle_irq (h : (whenIdle s t).irq = true) : s.irq = true ∨ t.irq = true := by
  unfold whenIdle at h
  split at h
  · exact .inl h
  · exact .inr h

/-- Of the register writes only that of `IRQ_EN` can raise `irq`, and only while `DONE` or `ERR` is 1 (R531). -/
theorem writeReg_irq_cases {r : Reg} {v : Word} (h : (writeReg r v s).irq = true) :
    s.irq = true ∨ (r = .irqEn ∧ (s.status.done = true ∨ s.status.err = true)) := by
  cases r with
  | ctrl =>
    rw [writeReg] at h
    split at h
    · exact nomatch (resetBlock_irq s).symm.trans h
    · exact .inl h
  | cmd => exact .inl ((irq_of_whenIdle_irq h).resolve_right fun ht => nomatch (accept_irq s v).symm.trans ht)
  | status => exact .inl (irq_of_acknowledge_irq h)
  | irqEn =>
    rcases irq_of_whenIdle_irq h with hwas | hnow
    · exact .inl hwas
    · exact .inr ⟨rfl, State.done_or_err_of_irq (s := { s with irqEn := IrqEnable.ofWord v }) hnow⟩
  | srcAddr | srcLen | dstAddr | dstCap | arg0 | arg1 =>
    rcases irq_of_whenIdle_irq h with hwas | hwas <;> exact .inl hwas
  | id | cap | state | outLen | result0 | result1 | errInfo => exact .inl h

theorem regAt_eq_irqEn {off : Nat} (h : regAt off = some .irqEn) : off = 0x030 := by
  unfold regAt at h
  split at h
  case h_7 => rfl
  all_goals cases h

theorem readAt_irq (off : Nat) (s : State) : (readAt off s).irq = s.irq := by
  unfold readAt readReg
  split
  · split <;> rfl
  · rfl

theorem hostStore_irq (a : Nat) (v : Byte) (s : State) : (hostStore a v s).irq = s.irq := by
  unfold hostStore
  split <;> rfl

theorem hostLoad_irq (a : Nat) (s : State) : (hostLoad a s).irq = s.irq := by
  unfold hostLoad
  split
  · rfl
  · split
    · rfl
    · split <;> rfl

theorem hostWriteBack_irq (a : Nat) (s : State) : (hostWriteBack a s).irq = s.irq := by
  unfold hostWriteBack
  split
  · split <;> rfl
  · rfl

/-- Of the host's actions only a write to `IRQ_EN` can raise `irq`, and only while `DONE` or `ERR` is 1 (R531). -/
theorem hostAct_irq_cases {a : HostAction} (h : hostAct a s = .next t) (hirq : t.irq = true) :
    s.irq = true ∨ ((∃ v, a = .regWrite 0x030 8 v) ∧ (s.status.done = true ∨ s.status.err = true)) := by
  cases a with
  | regWrite off size v =>
    obtain ⟨rfl, -, -, rfl⟩ := regAction_next h
    unfold writeAt at hirq
    split at hirq
    · rename_i r hr
      rcases writeReg_irq_cases hirq with hwas | ⟨rfl, hpending⟩
      · exact .inl hwas
      · exact .inr ⟨⟨v, by rw [regAt_eq_irqEn hr]⟩, hpending⟩
    · exact .inl hirq
  | platformReset =>
    injection h with h
    subst h
    exact nomatch (resetBlock_irq s).symm.trans hirq
  | regRead off size =>
    obtain ⟨-, -, -, rfl⟩ := regAction_next h
    exact .inl (readAt_irq off s ▸ hirq)
  | store a v =>
    obtain ⟨-, -, rfl⟩ := memAction_next h
    exact .inl (hostStore_irq a v s ▸ hirq)
  | load a =>
    obtain ⟨-, -, rfl⟩ := memAction_next h
    exact .inl (hostLoad_irq a s ▸ hirq)
  | writeBack a =>
    obtain ⟨-, -, rfl⟩ := memAction_next h
    exact .inl (hostWriteBack_irq a s ▸ hirq)
  | discard a =>
    obtain ⟨-, -, rfl⟩ := memAction_next h
    exact .inl hirq

end

/-- The host's action starts in a state with the `irq` and `STATUS` of the step's. -/
theorem hostTurn_keeps (s : State) (rest : List HostAction) :
    let u : State := { (if s.status.busy then s.takeTurn else s) with host := rest }
    u.irq = s.irq ∧ u.status = s.status := by
  intro u
  simp only [u]
  split <;> exact ⟨rfl, rfl⟩

/-- Settles O56: a step is the block's, which ends the command, one action of the host, or none. -/
theorem interruptRisesOnlyAtCompletion : Obligations.InterruptRisesOnlyAtCompletion := by
  refine ⟨rfl, fun s => ⟨State.irq_iff, fun t h hlow hhigh => ?_⟩⟩
  rcases step_cases h with ⟨hn, hbusy, -⟩ | ⟨-, a, rest, hh, h⟩ | ⟨-, -, -, rfl⟩
  · obtain ⟨u, hu, hidle⟩ := step_of_block_ends hn
    rw [h] at hu
    exact .inl ⟨hbusy, Host.Outcome.next.inj hu ▸ hidle, hn⟩
  · obtain ⟨hirq, hstatus⟩ := hostTurn_keeps s rest
    rcases hostAct_irq_cases h hhigh with hwas | ⟨⟨v, rfl⟩, hpending⟩
    · exact nomatch hlow.symm.trans (hirq.symm.trans hwas)
    · exact .inr ⟨v, rest, hh, hstatus ▸ hpending⟩
  · exact nomatch hlow.symm.trans hhigh

/-! ## Resets -/

section
variable {s : State}

/-- The running command writes the destination when `CMD` holds the word of one that does (R146, R554). -/
theorem runningWritesDst_iff : runningWritesDst s = true ↔ ∃ i ∈ dstWriters, decode s.cmd = .ok i := by
  unfold runningWritesDst
  cases hd : decode s.cmd with
  | ok i => simp [mem_dstWriters]
  | error r => simp

/-- Memory after a reset: with free destination bytes when it aborts a command that writes them (R552, R554). -/
theorem resetBlock_mem (s : State) :
    (resetBlock s).mem = if s.status.busy && runningWritesDst s then s.scrambleDst.mem else s.mem := by
  rw [resetBlock_eq]

theorem resetBlock_mem_idle (h : s.status.busy = false) : (resetBlock s).mem = s.mem := by
  rw [resetBlock_mem, h, Bool.false_and, if_neg Bool.false_ne_true]

theorem resetBlock_mem_aborted (hbusy : s.status.busy = true) (hcmd : ∃ i ∈ dstWriters, decode s.cmd = .ok i) :
    (resetBlock s).mem = s.scrambleDst.mem := by
  rw [resetBlock_mem, hbusy, runningWritesDst_iff.2 hcmd, Bool.and_self, if_pos rfl]

/-- A reset keeps every byte that is no destination byte of an aborted command (R552, R554). -/
theorem resetBlock_read_kept {a : Nat}
    (ha : ¬ (s.status.busy = true ∧ (∃ i ∈ dstWriters, decode s.cmd = .ok i) ∧ inDest s a)) :
    (resetBlock s).mem.read a = s.mem.read a := by
  rw [resetBlock_mem]
  split
  · rename_i habort
    obtain ⟨hbusy, hcmd⟩ := Bool.and_eq_true_iff.1 habort
    exact scrambleDst_read_outside fun hd => ha ⟨hbusy, runningWritesDst_iff.1 hcmd, hd⟩
  · rfl

end

/-- Settles O55: both resets are `resetBlock`, whose registers and structures are the reset values. -/
theorem resetAbortsAndKeepsMemory : Obligations.ResetAbortsAndKeepsMemory := by
  intro s v hv
  refine ⟨resetBlock s, ?_, rfl, ?_, resetBlock_irq s, ?_, ?_, resetBlock_mem_idle, fun a => resetBlock_read_kept,
    fun hbusy hcmd hwf a ha hspace => ?_⟩
  · rw [hostAct_write_reg (r := .ctrl) v rfl, writeReg, if_pos hv]
  · rw [resetBlock_eq]
    exact ⟨rfl, rfl, rfl, rfl, rfl, rfl, rfl, rfl, rfl, rfl, rfl⟩
  · rw [resetBlock_status]; rfl
  · rw [resetBlock_status]; rfl
  · rw [resetBlock_mem_aborted hbusy hcmd]
    exact scrambleDst_read_inside hwf ha hspace

/-- Settles O54: each register of the map with its value in the reset state, and the structures as R551 has them. -/
theorem resetValues : Obligations.ResetValues := by
  refine ⟨fun c hc => ?_, rfl⟩
  intro s
  refine ⟨?_, fun b => congrArg some (FreqTable.entry_empty b), rfl, rfl, rfl, rfl, rfl, rfl⟩
  have hread {off n : Nat} {r : Reg} (h : regAt off = some r) (hv : (regValue s r).toNat = n) :
      hostAct (.regRead off 8) s = .next { s with hostData := BitVec.ofNat 64 n } := by
    obtain ⟨v, rfl, hread⟩ := hostAct_read_toNat (s := s) h rfl hv
    rw [hread, BitVec.ofNat_toNat, BitVec.setWidth_eq]
  have hstatus : Status.reset.word.toNat = 0 := by decide
  have hstate : (regValue s .state).toNat = 0x11 := by
    have hleaf : s.nleaf = 0 := State.nleaf_of_none rfl
    rw [regValue, State.stateWord_toNat (by omega), hleaf]; rfl
  simp only [List.forall_mem_cons]
  exact ⟨hread (r := .id) rfl (Config.idWord_toNat hc), hread (r := .cap) rfl (capWord_toNat hc),
    hread (r := .ctrl) rfl rfl, hread (r := .cmd) rfl rfl, hread (r := .status) rfl hstatus,
    hread (r := .state) rfl hstate, hread (r := .irqEn) rfl (IrqEnable.word_toNat _),
    hread (r := .srcAddr) rfl rfl, hread (r := .srcLen) rfl rfl, hread (r := .dstAddr) rfl rfl,
    hread (r := .dstCap) rfl rfl, hread (r := .arg0) rfl rfl, hread (r := .arg1) rfl rfl,
    hread (r := .outLen) rfl rfl, hread (r := .result0) rfl rfl, hread (r := .result1) rfl rfl,
    hread (r := .errInfo) rfl rfl, fun _ h => nomatch h⟩

/-- A reset leaves empty structures, no derived structure and an empty memory, all of them legal. -/
theorem resetOf_legal {c : Config} (hc : c.wellFormed = true) : (State.resetOf c).legal := by
  refine ⟨Status.reset_legal, fun b hb => ?_, ⟨rfl, fun _ hp => nomatch hp⟩, ⟨?_, ?_, ?_⟩, rfl, hc⟩
  · exact Option.some.inj hb ▸ BitBuffer.empty_legal c
  all_goals exact fun _ h => nomatch h

/-- Settles O58. -/
theorem resetIsLegal : Obligations.ResetIsLegal := ⟨resetOf_legal (by decide), fun _ => resetOf_legal⟩

end Sys2Proof.Machine
